-- ==== Sys2Proof/Word.lean ====
section
/-! DEFINITION. The word types of NETSGP-FCS: a byte of a frame, a 16-bit field, a 32-bit register (spec/00_scope.md R6). -/

namespace Sys2Proof

/-- A byte (R6: "A byte is 8 bits"). -/
abbrev Byte := BitVec 8

/-- A 16-bit field of a frame (R52). -/
abbrev Half := BitVec 16

/-- A register of the port: "Every register is 32 bits wide" (R14). -/
abbrev Word := BitVec 32

end Sys2Proof
end

