-- ==== Sys2Proof/Syntax.lean ====
section
/-! DEFINITION. The instructions of NETSGP-FCS, one constructor for each row of spec/opcode_table.json, and the
steps the six agents can take (spec/10_state.md R11, spec/30_encoding.md R46 to R55). -/

namespace Sys2Proof

/-- A CommandFrame (R51) but for its magic and command bytes, which the row fixes. The reserved bytes and the
checksum are kept, so that the row says of them what R51 says: WellFormed.lean asks 0x00 and sum8. -/
structure CommandFrame where
  reservedA : BitVec 32
  deviceId : BitVec 32
  reservedB : BitVec 24
  value : Byte
  checksum : Byte
deriving DecidableEq, Repr, Inhabited

/-- A StatusReply (R52) but for its magic and command bytes. `tail` is bytes 23 to 26: the state and temperature
bytes and the two bytes the source does not name, whose places the parameter STATE_OFS gives. -/
structure StatusReply where
  reserved : BitVec 32
  deviceId : BitVec 32
  power : BitVec 32
  checksum : Byte
  dcv : Half
  dci : Half
  acv : Half
  aci : Half
  tail : BitVec 32
deriving DecidableEq, Repr, Inhabited

/-- A ControlOrPowerGradeReply (R53) but for its magic and command bytes; `unnamed` is bytes 10 to 12. -/
structure AckReply where
  reserved : BitVec 32
  deviceId : BitVec 32
  unnamed : BitVec 24
  echo : Byte
  checksum : Byte
deriving DecidableEq, Repr, Inhabited

/-- The rows of spec/opcode_table.json. An operation keeps the 28 bits of its word that R46 ignores, so that no
bit of an encoding is dropped; a wire frame keeps every field of its format. -/
inductive Instr where
  | nop (ignored : BitVec 28)
  | encode (ignored : BitVec 28)
  | checksum (ignored : BitVec 28)
  | validate (ignored : BitVec 28)
  | decodeStatus (ignored : BitVec 28)
  | validateAck (ignored : BitVec 28)
  | send (ignored : BitVec 28)
  | flush (ignored : BitVec 28)
  | recvFixed (ignored : BitVec 28)
  | scanRecv (ignored : BitVec 28)
  | getStatus (ignored : BitVec 28)
  | sendValidate (ignored : BitVec 28)
  | drainOne (ignored : BitVec 28)
  | reservedD (ignored : BitVec 28)
  | reservedE (ignored : BitVec 28)
  | reservedF (ignored : BitVec 28)
  | frameCmdStatus (f : CommandFrame)
  | frameCmdControl (f : CommandFrame)
  | frameCmdPowerGrade (f : CommandFrame)
  | frameStatusReply (f : StatusReply)
  | frameAckControl (f : AckReply)
  | frameAckPowerGrade (f : AckReply)
deriving DecidableEq, Repr

/-- The side of the link a frame goes to: `tx` block to device, `rx` device to block (R55). -/
inductive Direction where
  | tx
  | rx
deriving DecidableEq, Repr, Inhabited

/-- What an instruction is encoded as: a word written to OP, or a frame on the wire in a direction. R55: nothing in
a frame tells its direction, so the direction is part of what is decoded. -/
inductive Encoded where
  | op (w : Word)
  | frame (d : Direction) (bytes : List Byte)
deriving DecidableEq, Repr

/-- A register-port access (R30), of any width, so that R32's wrong widths can be asked for. -/
inductive HostAccess where
  | read (addr : BitVec 8) (width : Nat)
  | write (addr : BitVec 8) (width : Nat) (v : Word)
deriving DecidableEq, Repr, Inhabited

/-- One step of one agent (R11). `wire` is a whole run of bytes crossing the wire in one direction with no other
agent's step between them (log 1 and log 2). -/
inductive Event where
  | host (a : HostAccess)
  | rxByte (b : Byte)
  | txTake
  | msTick
  | fsm
  | rst
  | wire (d : Direction) (bytes : List Byte)
deriving DecidableEq, Repr, Inhabited

end Sys2Proof
end

