-- ==== Sys2Proof/Config.lean ====
section
/-! DEFINITION. The constants and the parameters of spec/00_scope.md R5, and the model's free values. -/

namespace Sys2Proof.Config

/-- MAGIC, the first byte of every frame (R5, R20). -/
def magic : Byte := 0x43#8

/-- CMD_STATUS (R5, R54). -/
def cmdStatus : Byte := 0xC0#8

/-- CMD_CONTROL (R5, R54). -/
def cmdControl : Byte := 0xC1#8

/-- CMD_POWER_GRADE (R5, R54). -/
def cmdPowerGrade : Byte := 0xC3#8

/-- CMD_LEN (R5). -/
def cmdLen : Nat := 15

/-- STATUS_LEN (R5). -/
def statusLen : Nat := 27

/-- ACK_LEN (R5). -/
def ackLen : Nat := 15

/-- CSUM_SPAN (R5). -/
def csumSpan : Nat := 14

/-- BUF_LEN (R5). -/
def bufLen : Nat := 27

/-- RSV_BYTE (R5). -/
def rsvByte : Byte := 0x00#8

/-- STATUS_VALUE (R5). -/
def statusValue : Byte := 0x00#8

/-- TMO_BLOCK's reset value in milliseconds (R5, R14). -/
def tmoBlockReset : Word := 100#32

/-- TMO_WAIT's reset value in milliseconds (R5, R14). -/
def tmoWaitReset : Word := 1000#32

/-- PATTERN's reset value, the status header (R14, R111). -/
def patternReset : Half := 0xC043#16

/-! The operation codes of spec/30_encoding.md R47. -/

abbrev opcNop : BitVec 4 := 0x0#4
abbrev opcEncode : BitVec 4 := 0x1#4
abbrev opcChecksum : BitVec 4 := 0x2#4
abbrev opcValidate : BitVec 4 := 0x3#4
abbrev opcDecodeStatus : BitVec 4 := 0x4#4
abbrev opcValidateAck : BitVec 4 := 0x5#4
abbrev opcSend : BitVec 4 := 0x6#4
abbrev opcFlush : BitVec 4 := 0x7#4
abbrev opcRecvFixed : BitVec 4 := 0x8#4
abbrev opcScanRecv : BitVec 4 := 0x9#4
abbrev opcGetStatus : BitVec 4 := 0xA#4
abbrev opcSendValidate : BitVec 4 := 0xB#4
abbrev opcDrainOne : BitVec 4 := 0xC#4

/-- The two places STATE_OFS may name (R5). -/
inductive StateOfs where
  | at23
  | at25
deriving DecidableEq, Repr

/-- STATE_OFS as an offset into the StatusReply. -/
def StateOfs.toNat : StateOfs → Nat
  | .at23 => 23
  | .at25 => 25

/-- The rows of R5 marked *parameter*. `fClk` is in Hz; `stepsPerTick` is the lower bound on FSM steps between two
MS_TICK pulses, 0 for no bound. -/
structure Params where
  rxqDepth : Nat
  stateOfs : StateOfs
  fClk : Option Nat
  stepsPerTick : Nat
deriving DecidableEq, Repr

/-- The defaults of R5. -/
def Params.default : Params :=
  { rxqDepth := 64, stateOfs := .at25, fClk := none, stepsPerTick := 0 }

/-- The range of R5 and R22: 27 ≤ RXQ_DEPTH ≤ 65535. -/
def Params.legal (p : Params) : Bool :=
  decide (27 ≤ p.rxqDepth) && decide (p.rxqDepth ≤ 65535)

/-- FREE VALUE (log 4). The agent that takes the next step when the script is empty: R11 leaves the interleaving to
the environment. -/
opaque schedule : Nat → Event

/-- FREE VALUE (log 12). The sign and the low fraction bits of a NaN that f32mul answers; R8 fixes the rounding of a
product and says nothing of a NaN. -/
opaque nanProduct : Word → Word → BitVec 23

end Sys2Proof.Config
end

