-- ==== Sys2Proof/Machine/Bytes.lean ====
section
/-! DEFINITION. Byte order, the additive checksum, and the bytes of the frame formats
(spec/00_scope.md R7, spec/20_memory.md R33, spec/30_encoding.md R51 to R53). -/

namespace Sys2Proof.Machine

open Sys2Proof.Config

/-- `be16(a, b) = a ++ b` (R7). -/
def be16 (a b : Byte) : Half := a ++ b

/-- Three bytes, the first the most significant (R33). -/
def be24 (a b c : Byte) : BitVec 24 := a ++ b ++ c

/-- `be32(a, b, c, d) = a ++ b ++ c ++ d` (R7). -/
def be32 (a b c d : Byte) : Word := a ++ b ++ c ++ d

/-- Byte k of a value, byte 0 the least significant. -/
def byteOf {w : Nat} (v : BitVec w) (k : Nat) : Byte := v.extractLsb' (8 * k) 8

/-- The bytes of a 16-bit field in wire order (R33). -/
def bytes16 (v : Half) : List Byte := [byteOf v 1, byteOf v 0]

/-- The bytes of a 24-bit field in wire order (R33). -/
def bytes24 (v : BitVec 24) : List Byte := [byteOf v 2, byteOf v 1, byteOf v 0]

/-- The bytes of a 32-bit field in wire order (R33). -/
def bytes32 (v : Word) : List Byte := [byteOf v 3, byteOf v 2, byteOf v 1, byteOf v 0]

/-- `sum8` of a byte sequence: the sum modulo 256 (R7, R59). -/
def sum8 : List Byte → Byte
  | [] => 0#8
  | b :: bs => b + sum8 bs

/-- Bytes 0 to 13 of a CommandFrame (R51). -/
def commandBody (command : Byte) (f : CommandFrame) : List Byte :=
  [magic, command] ++ bytes32 f.reservedA ++ bytes32 f.deviceId ++ bytes24 f.reservedB ++ [f.value]

/-- The 15 bytes of a CommandFrame (R51). -/
def commandBytes (command : Byte) (f : CommandFrame) : List Byte :=
  commandBody command f ++ [f.checksum]

/-- The 27 bytes of a StatusReply (R52). -/
def statusBytes (f : StatusReply) : List Byte :=
  [magic, cmdStatus] ++ bytes32 f.reserved ++ bytes32 f.deviceId ++ bytes32 f.power ++ [f.checksum] ++
    bytes16 f.dcv ++ bytes16 f.dci ++ bytes16 f.acv ++ bytes16 f.aci ++ bytes32 f.tail

/-- The 15 bytes of a ControlOrPowerGradeReply (R53). -/
def ackBytes (command : Byte) (f : AckReply) : List Byte :=
  [magic, command] ++ bytes32 f.reserved ++ bytes32 f.deviceId ++ bytes24 f.unnamed ++ [f.echo, f.checksum]

end Sys2Proof.Machine
end

