-- ==== Sys2Proof/WellFormed.lean ====
section
/-! DEFINITION. When an instruction is one the spec's formats allow (spec/30_encoding.md R46, R51 to R53). -/

namespace Sys2Proof

open Sys2Proof.Config Sys2Proof.Machine

/-- R51: the reserved bytes are 0x00 and "checksum = additive sum (mod 256) of the first 14 bytes". -/
def CommandFrame.wellFormed (command : Byte) (f : CommandFrame) : Bool :=
  f.reservedA == 0#32 && f.reservedB == 0#24 && f.checksum == sum8 (commandBody command f)

/-- Every word is an operation's (R46, R49) and every received frame of the right length and header is one of R52 or
R53, a bad checksum included; a sent command frame keeps R51's invariant. -/
def Instr.wellFormed : Instr → Bool
  | .nop _ => true
  | .encode _ => true
  | .checksum _ => true
  | .validate _ => true
  | .decodeStatus _ => true
  | .validateAck _ => true
  | .send _ => true
  | .flush _ => true
  | .recvFixed _ => true
  | .scanRecv _ => true
  | .getStatus _ => true
  | .sendValidate _ => true
  | .drainOne _ => true
  | .reservedD _ => true
  | .reservedE _ => true
  | .reservedF _ => true
  | .frameCmdStatus f => f.wellFormed cmdStatus
  | .frameCmdControl f => f.wellFormed cmdControl
  | .frameCmdPowerGrade f => f.wellFormed cmdPowerGrade
  | .frameStatusReply _ => true
  | .frameAckControl _ => true
  | .frameAckPowerGrade _ => true

/-- The predicate the statements use. -/
abbrev WellFormed (i : Instr) : Prop := i.wellFormed = true

end Sys2Proof
end

