-- ==== Sys2Proof/Decode.lean ====
section
/-! DEFINITION. The decoder and, after it, the encoder (spec/30_encoding.md R46, R47, R49, R51 to R55). -/

namespace Sys2Proof

open Sys2Proof.Config Sys2Proof.Machine

/-- Why bytes on the wire are no frame of R51 to R53. -/
inductive DecodeError where
  /-- not 15 bytes (27 for a StatusReply): R55 -/
  | wrongLength
  /-- byte 0 is not 0x43: R54 -/
  | badMagic
  /-- byte 1 is none of 0xC0, 0xC1, 0xC3: R54 -/
  | unknownCommand
  /-- a reserved byte of a CommandFrame is not 0x00: R51 -/
  | reservedNotZero
  /-- byte 14 of a CommandFrame is not the sum of bytes 0 to 13: R51 -/
  | badChecksum
deriving DecidableEq, Repr

/-- R46 and R47: OPC is bits [3:0]; the other 28 bits are ignored and kept. Every word is some row's. -/
def decodeOp (w : Word) : Instr :=
  let ignored := w.extractLsb' 4 28
  match (w.extractLsb' 0 4).toNat with
  | 0x0 => .nop ignored
  | 0x1 => .encode ignored
  | 0x2 => .checksum ignored
  | 0x3 => .validate ignored
  | 0x4 => .decodeStatus ignored
  | 0x5 => .validateAck ignored
  | 0x6 => .send ignored
  | 0x7 => .flush ignored
  | 0x8 => .recvFixed ignored
  | 0x9 => .scanRecv ignored
  | 0xA => .getStatus ignored
  | 0xB => .sendValidate ignored
  | 0xC => .drainOne ignored
  | 0xD => .reservedD ignored
  | 0xE => .reservedE ignored
  | _ => .reservedF ignored

/-- Builds a command frame's row from its fields if R51 holds of them. -/
def checkCommand (command : Byte) (row : CommandFrame → Instr) (f : CommandFrame) : Except DecodeError Instr :=
  if f.reservedA ≠ 0#32 ∨ f.reservedB ≠ 0#24 then .error .reservedNotZero
  else if f.checksum ≠ sum8 (commandBody command f) then .error .badChecksum
  else .ok (row f)

/-- A frame going from the block to the device (R51, R55). -/
def decodeTx : List Byte → Except DecodeError Instr
  | [b0, b1, b2, b3, b4, b5, b6, b7, b8, b9, b10, b11, b12, b13, b14] =>
    let f : CommandFrame :=
      { reservedA := be32 b2 b3 b4 b5, deviceId := be32 b6 b7 b8 b9, reservedB := be24 b10 b11 b12,
        value := b13, checksum := b14 }
    if b0 ≠ magic then .error .badMagic
    else if b1 = cmdStatus then checkCommand cmdStatus .frameCmdStatus f
    else if b1 = cmdControl then checkCommand cmdControl .frameCmdControl f
    else if b1 = cmdPowerGrade then checkCommand cmdPowerGrade .frameCmdPowerGrade f
    else .error .unknownCommand
  | _ => .error .wrongLength

/-- The 13 bytes after the header of a ControlOrPowerGradeReply (R53). -/
def decodeAck (row : AckReply → Instr) : List Byte → Except DecodeError Instr
  | [b2, b3, b4, b5, b6, b7, b8, b9, b10, b11, b12, b13, b14] =>
    .ok (row { reserved := be32 b2 b3 b4 b5, deviceId := be32 b6 b7 b8 b9, unnamed := be24 b10 b11 b12,
               echo := b13, checksum := b14 })
  | _ => .error .wrongLength

/-- The 25 bytes after the header of a StatusReply (R52). -/
def decodeStatusReply : List Byte → Except DecodeError Instr
  | [b2, b3, b4, b5, b6, b7, b8, b9, b10, b11, b12, b13, b14, b15, b16, b17, b18, b19, b20, b21, b22,
     b23, b24, b25, b26] =>
    .ok (.frameStatusReply
      { reserved := be32 b2 b3 b4 b5, deviceId := be32 b6 b7 b8 b9, power := be32 b10 b11 b12 b13,
        checksum := b14, dcv := be16 b15 b16, dci := be16 b17 b18, acv := be16 b19 b20, aci := be16 b21 b22,
        tail := be32 b23 b24 b25 b26 })
  | _ => .error .wrongLength

/-- A frame coming from the device: the command byte fixes the length (R55). -/
def decodeRx : List Byte → Except DecodeError Instr
  | b0 :: b1 :: rest =>
    if b0 ≠ magic then .error .badMagic
    else if b1 = cmdStatus then decodeStatusReply rest
    else if b1 = cmdControl then decodeAck .frameAckControl rest
    else if b1 = cmdPowerGrade then decodeAck .frameAckPowerGrade rest
    else .error .unknownCommand
  | _ => .error .wrongLength

/-- The decoder: total, and what it refuses it refuses by name. -/
def decode : Encoded → Except DecodeError Instr
  | .op w => .ok (decodeOp w)
  | .frame .tx bytes => decodeTx bytes
  | .frame .rx bytes => decodeRx bytes

/-- An OP word: the 28 ignored bits above OPC (R46). -/
def opWord (ignored : BitVec 28) (opc : BitVec 4) : Word := ignored ++ opc

/-- The encoder, written from R46, R47 and R51 to R53. -/
def encode : Instr → Encoded
  | .nop x => .op (opWord x 0x0#4)
  | .encode x => .op (opWord x 0x1#4)
  | .checksum x => .op (opWord x 0x2#4)
  | .validate x => .op (opWord x 0x3#4)
  | .decodeStatus x => .op (opWord x 0x4#4)
  | .validateAck x => .op (opWord x 0x5#4)
  | .send x => .op (opWord x 0x6#4)
  | .flush x => .op (opWord x 0x7#4)
  | .recvFixed x => .op (opWord x 0x8#4)
  | .scanRecv x => .op (opWord x 0x9#4)
  | .getStatus x => .op (opWord x 0xA#4)
  | .sendValidate x => .op (opWord x 0xB#4)
  | .drainOne x => .op (opWord x 0xC#4)
  | .reservedD x => .op (opWord x 0xD#4)
  | .reservedE x => .op (opWord x 0xE#4)
  | .reservedF x => .op (opWord x 0xF#4)
  | .frameCmdStatus f => .frame .tx (commandBytes cmdStatus f)
  | .frameCmdControl f => .frame .tx (commandBytes cmdControl f)
  | .frameCmdPowerGrade f => .frame .tx (commandBytes cmdPowerGrade f)
  | .frameStatusReply f => .frame .rx (statusBytes f)
  | .frameAckControl f => .frame .rx (ackBytes cmdControl f)
  | .frameAckPowerGrade f => .frame .rx (ackBytes cmdPowerGrade f)

/-- The bytes of a received frame whose first two bytes are the 16 bits of a wire-frame row of the opcode table
("bytes 0 and 1 in wire order, written byte0 byte1") and whose other bytes are 0, at the length R55 gives the command
byte. -/
def tableFrame (w : Nat) : List Byte :=
  let b0 : Byte := BitVec.ofNat 8 (w / 256)
  let b1 : Byte := BitVec.ofNat 8 w
  b0 :: b1 :: List.replicate ((if b1 = cmdStatus then statusLen else ackLen) - 2) 0#8

/-- What a table word of nbits bits is written as: 32 bits are an OP word (R46), 16 bits the header of a frame. The
table gives a command row and a reply row the same 16 bits and no direction; a frame without one is read as the block
reads frames, as received (log 7). -/
def tableEncoded (nbits w : Nat) : Option Encoded :=
  if nbits = 32 then some (.op (BitVec.ofNat 32 w))
  else if nbits = 16 then some (.frame .rx (tableFrame w))
  else none

/-- The host's reading of a table word: what `decode` answers for it. -/
def decodeTableWord (nbits w : Nat) : Option Instr :=
  match tableEncoded nbits w with
  | some e => (decode e).toOption
  | none => none

end Sys2Proof
end

