-- ==== Sys2Proof/Machine/State.lean ====
section
/-! DEFINITION. The state of NETSGP-FCS as plain data, its reset value, and the reasons a step can stop
(spec/10_state.md R14 to R29). -/

namespace Sys2Proof.Machine

open Sys2Proof.Config

/-- The phases of R25. -/
inductive Phase where
  | idle
  | flush
  | tx
  | hunt
  | collect
  | finish
  | pscan
deriving DecidableEq, Repr, Inhabited

/-- The outcome labels of R27 and R95, model-only. -/
inductive Cause where
  | none
  | operand
  | timeout
  | shortRead
  | checksum
  | echo
  | headerNotFound
  | noFrame
deriving DecidableEq, Repr, Inhabited

/-- The frame buffer's cells: (index, byte) in one canonical form (`Memory.wf`, Ops.lean). An unlisted index reads
0x00: "A byte not written since reset reads 0x00" (R21). -/
abbrev Memory := List Host.Cell

/-- What the host bus answers to one access (R30, R32): the data of a read, and the error indication. -/
structure BusResponse where
  data : Word
  error : Bool
deriving DecidableEq, Repr, Inhabited

/-- The whole machine. Every field but the last five is a piece of state the spec names; `params` holds the parameters
of R5, and the last four are the model's own (INVENTORY.md, State). -/
@[ext]
structure State where
  /-- OP.OPC (R16) -/
  opReg : BitVec 4
  /-- STAT.BUSY (R17) -/
  busy : Bool
  /-- STAT.DONE (R17) -/
  done : Bool
  /-- STAT.OK (R17) -/
  ok : Bool
  /-- STAT.REC (R17) -/
  recd : Bool
  /-- STAT.RX_OVF (R17) -/
  rxOvf : Bool
  /-- STAT.REJ (R17) -/
  rej : Bool
  /-- ST (R25) -/
  st : Phase
  /-- CMD (R18) -/
  cmd : Byte
  /-- DEVID (R18) -/
  devid : Word
  /-- VALUE (R18) -/
  value : Byte
  /-- LEN (R18) -/
  len : Byte
  /-- EXPECT (R18) -/
  expect : Byte
  /-- PATTERN: P0 in bits 7 to 0, P1 in bits 15 to 8 (R18) -/
  pattern : Half
  /-- TMO_BLOCK (R18) -/
  tmoBlock : Word
  /-- TMO_WAIT (R18) -/
  tmoWait : Word
  /-- CSUM (R19) -/
  csum : Byte
  /-- FLEN (R19) -/
  flen : Nat
  /-- NOW (R24) -/
  now : Word
  /-- R_DEVID (R19) -/
  rDevid : Word
  /-- R_POWER (R19) -/
  rPower : Word
  /-- R_DC.DCV (R14) -/
  rDcv : Half
  /-- R_DC.DCI (R14) -/
  rDci : Half
  /-- R_AC.ACV (R14) -/
  rAcv : Half
  /-- R_AC.ACI (R14) -/
  rAci : Half
  /-- R_MISC.STATE (R14) -/
  rState : Byte
  /-- R_MISC.TEMP (R14) -/
  rTemp : Byte
  /-- R_MISC.VALID (R19, R28) -/
  rValid : Bool
  /-- BUF (R21) -/
  buf : Memory
  /-- the RX FIFO, its head first (R22) -/
  rxq : List Byte
  /-- TXD (R23) -/
  txd : Byte
  /-- TXV (R23) -/
  txv : Bool
  /-- T0 (R24) -/
  t0 : Word
  /-- TMO_CUR (R24) -/
  tmoCur : Word
  /-- ARMED (R24) -/
  armed : Bool
  /-- EXP (R24) -/
  exp : Bool
  /-- OPC, the latched opcode (R25) -/
  opc : BitVec 4
  /-- IDX (R25) -/
  idx : Nat
  /-- N (R25) -/
  n : Nat
  /-- BUDGET (R25) -/
  budget : Nat
  /-- L_CMD (R26) -/
  lCmd : Byte
  /-- L_DEVID (R26) -/
  lDevid : Word
  /-- L_VALUE (R26) -/
  lValue : Byte
  /-- L_LEN (R26) -/
  lLen : Byte
  /-- L_EXPECT (R26) -/
  lExpect : Byte
  /-- L_P0 (R26) -/
  lP0 : Byte
  /-- L_P1 (R26) -/
  lP1 : Byte
  /-- L_TB (R26) -/
  lTb : Word
  /-- L_TW (R26) -/
  lTw : Word
  /-- CAUSE, model-only (R27, log 8) -/
  cause : Cause
  /-- the parameters of R5 (log 3) -/
  params : Params
  /-- the agents' steps still to come, the next first (log 4) -/
  script : List Event
  /-- how often the free schedule has been asked (log 4) -/
  turn : Nat
  /-- the bytes the TX sink has taken, the first first (log 6) -/
  wire : List Byte
  /-- the host bus's answer to the last host access (log 6) -/
  bus : Option BusResponse
deriving DecidableEq, Repr

/-- Why the machine may stop. Each is raised only in states that no run from reset reaches. -/
inductive Fault where
  /-- Raised by the PSCAN phase on a Peek or Pop past the end of the RX FIFO, which R22 leaves undefined. Safe: the
  model stops (log 9). -/
  | fifoReadPastEnd
  /-- Raised by the TX and COLLECT phases on BUF[i] with i ≥ 27, which R7 leaves undefined. Safe: the model stops
  (log 10). -/
  | bufIndexOutOfRange
  /-- Raised by the TX, HUNT and FINISH phases when their case analysis has no line for OPC (R78, R79, R81). Safe: the
  model stops (log 11). -/
  | noCaseForOperation
deriving DecidableEq, Repr

/-- Why the model may give no meaning. -/
inductive Refusal where
  /-- Raised by an arm of `exec` whose instruction has no meaning yet. Safe: the model stops. No arm raises it now. -/
  | notModelled (mnemonic : String)
deriving DecidableEq, Repr

/-- R29 with the parameters given: the reset column of R14, and every other piece of state. The last four lines are
the model's own fields (log 4, log 6). -/
def State.resetWith (p : Params) : State :=
  { opReg := 0#4, busy := false, done := false, ok := false, recd := false, rxOvf := false, rej := false,
    st := .idle, cmd := 0#8, devid := 0#32, value := 0#8, len := 0#8, expect := 0#8, pattern := patternReset,
    tmoBlock := tmoBlockReset, tmoWait := tmoWaitReset, csum := 0#8, flen := 0, now := 0#32, rDevid := 0#32,
    rPower := 0#32, rDcv := 0#16, rDci := 0#16, rAcv := 0#16, rAci := 0#16, rState := 0#8, rTemp := 0#8,
    rValid := false, buf := [], rxq := [], txd := 0#8, txv := false, t0 := 0#32, tmoCur := 0#32, armed := false,
    exp := false, opc := 0#4, idx := 0, n := 0, budget := 0, lCmd := 0#8, lDevid := 0#32, lValue := 0#8,
    lLen := 0#8, lExpect := 0#8, lP0 := 0#8, lP1 := 0#8, lTb := 0#32, lTw := 0#32, cause := .none, params := p,
    script := [],
    turn := 0,
    wire := [],
    bus := none }

/-- The machine right after reset, with the default parameters (R5, R29, R111). -/
def State.reset : State := State.resetWith Params.default

end Sys2Proof.Machine
end

