-- ==== Sys2Proof/Machine/Ops.lean ====
section
/-! DEFINITION. The named operations over the buffer, the RX FIFO, the TX holding register and the deadline; completion,
failure and rejection, which stand where other machines take an exception (spec/60_exceptions.md R94); reset. -/

namespace Sys2Proof.Machine

open Sys2Proof.Config

/-! The frame buffer (spec/10_state.md R21). -/

/-- The byte at index a; 0x00 where nothing is listed (R21). -/
def Memory.read : Memory → Nat → Byte
  | [], _ => 0#8
  | c :: cs, a => if c.1 = a then c.2 else Memory.read cs a

/-- Drops every cell of index a. -/
def Memory.erase (m : Memory) (a : Nat) : Memory := m.filter (fun c => c.1 != a)

/-- Puts a cell before the first cell of a greater index. -/
def Memory.insert : Memory → Host.Cell → Memory
  | [], c => [c]
  | x :: xs, c => if c.1 < x.1 then c :: x :: xs else x :: Memory.insert xs c

/-- `BUF[a] <- v`; writing 0x00, which an unlisted index reads as, leaves the index unlisted. -/
def Memory.write (m : Memory) (a : Nat) (v : Byte) : Memory :=
  if v = 0#8 then Memory.erase m a else Memory.insert (Memory.erase m a) (a, v)

/-- Indexes rise strictly from `lo`, stay below BUF_LEN, and no cell holds 0x00. -/
def Memory.wfFrom : Nat → Memory → Bool
  | _, [] => true
  | lo, c :: cs => decide (lo ≤ c.1) && decide (c.1 < bufLen) && (c.2 != 0#8) && Memory.wfFrom (c.1 + 1) cs

/-- The one canonical form of the frame buffer. -/
def Memory.wf (m : Memory) : Bool := Memory.wfFrom 0 m

/-- Writes bytes at consecutive indexes. -/
def Memory.writeBytes (m : Memory) (base : Nat) : List Byte → Memory
  | [] => m
  | b :: bs => Memory.writeBytes (Memory.write m base b) (base + 1) bs

/-- BUF[0..k-1], in wire order. -/
def bufBytes (s : State) (k : Nat) : List Byte := (List.range k).map (Memory.read s.buf)

/-- `sum8(BUF, k)` (R7, R59). -/
def bufSum (s : State) (k : Nat) : Byte := sum8 (bufBytes s k)

/-! Writes of one piece of state, so that an operation reads as a chain of them. -/

/-- `ST <- p` (R25). -/
def setPhase (p : Phase) (s : State) : State := { s with st := p }

/-- `IDX <- k` (R25). -/
def setIdx (k : Nat) (s : State) : State := { s with idx := k }

/-- `N <- k` (R25). -/
def setCount (k : Nat) (s : State) : State := { s with n := k }

/-- `BUDGET <- k` (R25). -/
def setBudget (k : Nat) (s : State) : State := { s with budget := k }

/-- `FLEN <- k` (R19). -/
def setFlen (k : Nat) (s : State) : State := { s with flen := k }

/-- `CSUM <- v` (R19). -/
def setCsum (v : Byte) (s : State) : State := { s with csum := v }

/-- `STAT.REC <- 1` (R17). -/
def setRecord (s : State) : State := { s with recd := true }

/-- `CAUSE <- c` (R27). -/
def setCause (c : Cause) (s : State) : State := { s with cause := c }

/-- The frame buffer takes new contents. -/
def setBuf (m : Memory) (s : State) : State := { s with buf := m }

/-- `OP.OPC <- opc; OPC <- opc` (R48). -/
def setOpcode (opc : BitVec 4) (s : State) : State := { s with opReg := opc, opc := opc }

/-! The RX FIFO (R22). -/

/-- `Avail()`. -/
def avail (s : State) : Nat := s.rxq.length

/-- `Push(b)`: a byte that finds the queue full is dropped and sets RX_OVF (R22, R98). -/
def push (b : Byte) (s : State) : State :=
  if avail s < s.params.rxqDepth then { s with rxq := s.rxq ++ [b] } else { s with rxOvf := true }

/-- `Push` of each byte in turn. -/
def pushAll : List Byte → State → State
  | [], s => s
  | b :: bs, s => pushAll bs (push b s)

/-- `Discard(k)`. -/
def discard (k : Nat) (s : State) : State := { s with rxq := s.rxq.drop k }

/-- `BUF[i] <- Pop()` for i = base .. base + k - 1, one after the other. -/
def popInto (base k : Nat) (s : State) : State :=
  { s with buf := Memory.writeBytes s.buf base (s.rxq.take k), rxq := s.rxq.drop k }

/-! The TX holding register (R23). -/

/-- The loading line of R78: the next byte is put on offer. -/
def offerByte (s : State) : State :=
  { s with txd := Memory.read s.buf s.idx, txv := true, idx := s.idx + 1 }

/-- The TXSNK step, enabled when TXV = 1: `Emit(TXD); TXV <- 0` (R23). -/
def takeByte (s : State) : State :=
  if s.txv then { s with wire := s.wire ++ [s.txd], txv := false } else s

/-! The time base (R24) and the deadline (spec/41_transactor.md R74). -/

/-- `arm(t)` (R74). -/
def arm (t : Word) (s : State) : State :=
  { s with t0 := s.now, tmoCur := t, armed := true, exp := decide (t = 0#32) }

/-- `disarm` (R74). -/
def disarm (s : State) : State := { s with armed := false, exp := false }

/-- The TICK step (R24): the comparison uses the new NOW and wraps modulo 2^32. -/
def tick (s : State) : State :=
  { s with now := s.now + 1#32,
           exp := s.exp || (s.armed && decide (s.tmoCur ≤ s.now + 1#32 - s.t0)) }

/-! Completion, failure, rejection: the block raises no trap (R94); this is what it does in a trap's place. -/

/-- `complete(ok)` (R73). -/
def complete (result : Bool) (s : State) : State :=
  { s with st := .idle, busy := false, done := true, ok := result, armed := false, exp := false, idx := 0, n := 0,
           budget := 0 }

/-- The lines of `fail(c)` before its completion (R73): GET_STATUS also clears R_MISC.VALID. -/
def labelFailure (c : Cause) (s : State) : State :=
  { s with cause := c, rValid := if s.opc = opcGetStatus then false else s.rValid }

/-- `fail(c)` (R73, R96). -/
def fail (c : Cause) (s : State) : State := complete false (labelFailure c s)

/-- A rejection: "sets STAT.REJ = 1 and changes nothing else" (R97). -/
def reject (s : State) : State := { s with rej := true }

/-- The RESET step (spec/70_reset_and_hazards.md R110): the state of R29. The parameters are no state, and the
environment (script, bytes already on the wire, the bus) is not reset: "the bytes the TX sink already took are on the
wire". -/
def resetBlock (s : State) : State :=
  { State.resetWith s.params with script := s.script, turn := s.turn, wire := s.wire, bus := s.bus }

end Sys2Proof.Machine
end

