-- ==== Sys2Proof/Machine/Flags.lean ====
section
/-! DEFINITION. The flags: the bits of STAT and who writes them (spec/10_state.md R17, R25, R28). -/

namespace Sys2Proof.Machine

open Sys2Proof.Config

/-- The code STAT.ST shows (R25). -/
def stCode : Phase → BitVec 4
  | .idle => 0#4
  | .flush => 1#4
  | .tx => 2#4
  | .hunt => 3#4
  | .collect => 4#4
  | .finish => 5#4
  | .pscan => 6#4

/-- STAT as read: [11:8] ST, [5] REJ, [4] RX_OVF, [3] REC, [2] OK, [1] DONE, [0] BUSY, every other bit 0 (R14, R17). -/
def statWord (s : State) : Word :=
  0#20 ++ stCode s.st ++ 0#2 ++ BitVec.ofBool s.rej ++ BitVec.ofBool s.rxOvf ++ BitVec.ofBool s.recd ++
    BitVec.ofBool s.ok ++ BitVec.ofBool s.done ++ BitVec.ofBool s.busy

/-- A write to STAT "changes only RX_OVF and REJ, and only where the written bit is 1" (R17). -/
def clearSticky (v : Word) (s : State) : State :=
  { s with rxOvf := s.rxOvf && !v.getLsbD 4, rej := s.rej && !v.getLsbD 5 }

/-- What acceptance does to the flags (R17, R28, R48). -/
def clearOnAccept (s : State) : State := { s with done := false, ok := false, recd := false, cause := .none }

/-- How a codec operation ends: DONE = 1 and OK is its result (R58), with the label of a failure (R95). -/
def codecDone (result : Bool) (c : Cause) (s : State) : State := { s with done := true, ok := result, cause := c }

end Sys2Proof.Machine
end

