-- ==== Sys2Proof/Machine/Operands.lean ====
section
/-! DEFINITION. Operands: latched at acceptance, unsigned, checked when the operation starts
(spec/10_state.md R18, R26, spec/30_encoding.md R48, R50, R54). -/

namespace Sys2Proof.Machine

open Sys2Proof.Config

/-- PATTERN.P0 (R14). -/
def patternP0 (s : State) : Byte := s.pattern.extractLsb' 0 8

/-- PATTERN.P1 (R14). -/
def patternP1 (s : State) : Byte := s.pattern.extractLsb' 8 8

/-- "the block copies its operands into internal latches" (R26). -/
def latchOperands (s : State) : State :=
  { s with lCmd := s.cmd, lDevid := s.devid, lValue := s.value, lLen := s.len, lExpect := s.expect,
           lP0 := patternP0 s, lP1 := patternP1 s, lTb := s.tmoBlock, lTw := s.tmoWait }

/-- L_LEN as an unsigned count (R50). -/
def lenOperand (s : State) : Nat := s.lLen.toNat

/-- The command codes of the protocol (R54). -/
def isCommandCode (c : Byte) : Bool := c == cmdStatus || c == cmdControl || c == cmdPowerGrade

/-- The command codes SEND_VALIDATE takes (R54, R89). -/
def isAckCommandCode (c : Byte) : Bool := c == cmdControl || c == cmdPowerGrade

/-- `hp()`, the header a HUNT looks for (spec/41_transactor.md section 2): SCAN_RECV and SEND_VALIDATE have one. -/
def headerPattern (s : State) : Option (Byte × Byte) :=
  if s.opc = opcScanRecv then some (s.lP0, s.lP1)
  else if s.opc = opcSendValidate then some (magic, s.lCmd)
  else none

/-- The accepting lines of R48. -/
def accept (opc : BitVec 4) (s : State) : State :=
  latchOperands (clearOnAccept (setOpcode opc s))

/-- R48 for an operation that is no reserved one: BUSY is tested first; `act` is the codec operation (R58) or the start
action (R71), and runs in the same HOST step. -/
def issue (opc : BitVec 4) (act : State → State) (s : State) : State :=
  if s.busy then reject s else act (accept opc s)

/-- R48 for OPC 0xD to 0xF: "Both lead to the same rejection" (R99). -/
def issueReserved (s : State) : State := if s.busy then reject s else reject s

end Sys2Proof.Machine
end

