-- ==== Sys2Proof/Machine/Codec.lean ====
section
/-! DEFINITION. The Frame Codec operations, OPC 0x0 to 0x5 (spec/40_codec.md R58 to R66). -/

namespace Sys2Proof.Machine

open Sys2Proof.Config

/-- `sum8(BUF, 14) = BUF[14]` (R60, R66, R81, R82). -/
def frameSumGood (s : State) : Bool := bufSum s csumSpan == Memory.read s.buf 14

/-- `BUF[13] = L_VALUE` (R66, R81). -/
def echoGood (s : State) : Bool := Memory.read s.buf 13 == s.lValue

/-- `decode_fields()` (R60). -/
def decodeFields (s : State) : State :=
  let b := Memory.read s.buf
  let ofs := s.params.stateOfs.toNat
  { s with rDevid := be32 (b 6) (b 7) (b 8) (b 9), rPower := be32 (b 10) (b 11) (b 12) (b 13),
           rDcv := be16 (b 15) (b 16), rDci := be16 (b 17) (b 18), rAcv := be16 (b 19) (b 20),
           rAci := be16 (b 21) (b 22), rState := b ofs, rTemp := b (ofs + 1), rValid := frameSumGood s }

/-- The BUF writes of R62: BUF[0..13] as R51, then BUF[14] from the sum of what now stands there. -/
def encodeFrame (command : Byte) (deviceId : Word) (value : Byte) (s : State) : State :=
  let body := [magic, command] ++ List.replicate 4 rsvByte ++ bytes32 deviceId ++ List.replicate 3 rsvByte ++ [value]
  let t := setBuf (Memory.writeBytes s.buf 0 body) s
  setFlen cmdLen (setBuf (Memory.write t.buf 14 (bufSum t csumSpan)) t)

/-- R61. -/
def runNop (s : State) : State := codecDone true s.cause s

/-- R62. -/
def runEncode (s : State) : State :=
  if isCommandCode s.lCmd then codecDone true s.cause (encodeFrame s.lCmd s.lDevid s.lValue s)
  else codecDone false .operand s

/-- R63. -/
def runChecksum (s : State) : State :=
  if lenOperand s > bufLen then codecDone false .operand s
  else codecDone true s.cause (setCsum (bufSum s (lenOperand s)) s)

/-- R64. -/
def runValidate (s : State) : State :=
  if lenOperand s > bufLen then codecDone false .operand s
  else if bufSum s (lenOperand s) = s.lExpect then codecDone true s.cause s
  else codecDone false .checksum s

/-- R65. -/
def runDecodeStatus (s : State) : State :=
  let t := decodeFields s
  if t.rValid then codecDone true t.cause t else codecDone false .checksum t

/-- R66; the checksum is tested before the echo (R99). -/
def runValidateAck (s : State) : State :=
  if !frameSumGood s then codecDone false .checksum s
  else if !echoGood s then codecDone false .echo s
  else codecDone true s.cause s

/-- NOP (R48, R61). -/
def execNop (s : State) : Host.Outcome State Fault Refusal := .next (issue opcNop runNop s)

/-- ENCODE (R48, R62). -/
def execEncode (s : State) : Host.Outcome State Fault Refusal := .next (issue opcEncode runEncode s)

/-- CHECKSUM (R48, R63). -/
def execChecksum (s : State) : Host.Outcome State Fault Refusal := .next (issue opcChecksum runChecksum s)

/-- VALIDATE (R48, R64). -/
def execValidate (s : State) : Host.Outcome State Fault Refusal := .next (issue opcValidate runValidate s)

/-- DECODE_STATUS (R48, R65). -/
def execDecodeStatus (s : State) : Host.Outcome State Fault Refusal := .next (issue opcDecodeStatus runDecodeStatus s)

/-- VALIDATE_ACK (R48, R66). -/
def execValidateAck (s : State) : Host.Outcome State Fault Refusal := .next (issue opcValidateAck runValidateAck s)

end Sys2Proof.Machine
end

