-- ==== Sys2Proof/Machine/Frames.lean ====
section
/-! DEFINITION. The wire-frame rows of the opcode table: a frame crosses the wire (spec/30_encoding.md R51 to R53,
spec/10_state.md R22, R23, spec/20_memory.md R34; log 1 and log 2). -/

namespace Sys2Proof.Machine

open Sys2Proof.Config

/-- The block is about to offer exactly these bytes: ST = TX with nothing sent yet and BUF[0..N-1] the bytes (R78). -/
def offering (bytes : List Byte) (s : State) : Bool :=
  decide (s.st = .tx) && !s.txv && s.idx == 0 && s.n == bytes.length && decide (s.n ≤ bufLen) &&
    bufBytes s s.n == bytes

/-- One byte crosses to the device: the TX phase offers it (R78) and the sink takes it (R23). -/
def sendByte (s : State) : State := takeByte (offerByte s)

/-- `sendByte`, k times. -/
def sendBytes : Nat → State → State
  | 0, s => s
  | k + 1, s => sendBytes k (sendByte s)

/-- A run of bytes crosses from the block to the device. It can happen only where the block offers those bytes;
elsewhere no agent has the step and nothing changes (log 2). -/
def emitFrame (bytes : List Byte) (s : State) : State :=
  if offering bytes s then sendBytes bytes.length s else s

/-- A run of bytes crosses from the device to the block: one RXSRC Push a byte, in wire order (R22, R34). -/
def receiveFrame (bytes : List Byte) (s : State) : State := pushAll bytes s

/-- FRAME_CMD_STATUS (R51). -/
def execFrameCmdStatus (f : CommandFrame) (s : State) : Host.Outcome State Fault Refusal :=
  .next (emitFrame (commandBytes cmdStatus f) s)

/-- FRAME_CMD_CONTROL (R51). -/
def execFrameCmdControl (f : CommandFrame) (s : State) : Host.Outcome State Fault Refusal :=
  .next (emitFrame (commandBytes cmdControl f) s)

/-- FRAME_CMD_POWER_GRADE (R51). -/
def execFrameCmdPowerGrade (f : CommandFrame) (s : State) : Host.Outcome State Fault Refusal :=
  .next (emitFrame (commandBytes cmdPowerGrade f) s)

/-- FRAME_STATUS_REPLY (R52). -/
def execFrameStatusReply (f : StatusReply) (s : State) : Host.Outcome State Fault Refusal :=
  .next (receiveFrame (statusBytes f) s)

/-- FRAME_ACK_CONTROL (R53). -/
def execFrameAckControl (f : AckReply) (s : State) : Host.Outcome State Fault Refusal :=
  .next (receiveFrame (ackBytes cmdControl f) s)

/-- FRAME_ACK_POWER_GRADE (R53). -/
def execFrameAckPowerGrade (f : AckReply) (s : State) : Host.Outcome State Fault Refusal :=
  .next (receiveFrame (ackBytes cmdPowerGrade f) s)

end Sys2Proof.Machine
end

