-- ==== Sys2Proof/Machine/Reserved.lean ====
section
/-! DEFINITION. The reserved operation codes 0xD to 0xF: "A write of one is rejected (rule R48), and no operation
starts" (spec/30_encoding.md R48, R49). -/

namespace Sys2Proof.Machine

/-- RESERVED_D (R48, R49). -/
def execReservedD (s : State) : Host.Outcome State Fault Refusal := .next (issueReserved s)

/-- RESERVED_E (R48, R49). -/
def execReservedE (s : State) : Host.Outcome State Fault Refusal := .next (issueReserved s)

/-- RESERVED_F (R48, R49). -/
def execReservedF (s : State) : Host.Outcome State Fault Refusal := .next (issueReserved s)

end Sys2Proof.Machine
end

