-- ==== Sys2Proof/Machine/Transactor.lean ====
section
/-! DEFINITION. The start actions of the Transactor Synchronizer operations, OPC 0x6 to 0xC
(spec/41_transactor.md R71, R84 to R90). -/

namespace Sys2Proof.Machine

open Sys2Proof.Config

/-- `STAT.BUSY <- 1` and a first phase (R71). -/
def enterPhase (p : Phase) (s : State) : State := { s with busy := true, st := p }

/-- R84. -/
def startSend (s : State) : State :=
  if lenOperand s > bufLen then fail .operand s
  else if lenOperand s = 0 then complete true s
  else enterPhase .tx (setIdx 0 (setCount (lenOperand s) s))

/-- R85. -/
def startFlush (s : State) : State := enterPhase .flush s

/-- R86. -/
def startRecvFixed (s : State) : State :=
  if lenOperand s > bufLen then fail .operand s
  else if lenOperand s = 0 then complete true (setFlen 0 s)
  else enterPhase .collect (arm s.lTb (setCount (lenOperand s) (setIdx 0 (setFlen 0 s))))

/-- R87. -/
def startScanRecv (s : State) : State :=
  if lenOperand s < 2 ∨ lenOperand s > bufLen then fail .operand s
  else enterPhase .hunt (arm s.lTw (setCount (lenOperand s) (setIdx 0 (setFlen 0 s))))

/-- R88. -/
def startGetStatus (s : State) : State :=
  enterPhase .flush (setCount cmdLen (setIdx 0 (encodeFrame cmdStatus s.lDevid statusValue s)))

/-- R89. -/
def startSendValidate (s : State) : State :=
  if isAckCommandCode s.lCmd then
    enterPhase .tx (setCount cmdLen (setIdx 0 (encodeFrame s.lCmd s.lDevid s.lValue s)))
  else fail .operand s

/-- R90. -/
def startDrainOne (s : State) : State := enterPhase .pscan (setBudget (avail s) s)

/-- SEND (R48, R84). -/
def execSend (s : State) : Host.Outcome State Fault Refusal := .next (issue opcSend startSend s)

/-- FLUSH (R48, R85). -/
def execFlush (s : State) : Host.Outcome State Fault Refusal := .next (issue opcFlush startFlush s)

/-- RECV_FIXED (R48, R86). -/
def execRecvFixed (s : State) : Host.Outcome State Fault Refusal := .next (issue opcRecvFixed startRecvFixed s)

/-- SCAN_RECV (R48, R87). -/
def execScanRecv (s : State) : Host.Outcome State Fault Refusal := .next (issue opcScanRecv startScanRecv s)

/-- GET_STATUS (R48, R88). -/
def execGetStatus (s : State) : Host.Outcome State Fault Refusal := .next (issue opcGetStatus startGetStatus s)

/-- SEND_VALIDATE (R48, R89). -/
def execSendValidate (s : State) : Host.Outcome State Fault Refusal := .next (issue opcSendValidate startSendValidate s)

/-- DRAIN_ONE (R48, R90). -/
def execDrainOne (s : State) : Host.Outcome State Fault Refusal := .next (issue opcDrainOne startDrainOne s)

end Sys2Proof.Machine
end

