-- ==== Sys2Proof/Machine/Dispatch.lean ====
section
/-! DEFINITION. The meaning of each row of spec/opcode_table.json. -/

namespace Sys2Proof.Machine

def exec (i : Instr) (s : State) : Host.Outcome State Fault Refusal :=
  match i with
  | .nop _ => Sys2Proof.Machine.execNop s
  | .encode _ => Sys2Proof.Machine.execEncode s
  | .checksum _ => Sys2Proof.Machine.execChecksum s
  | .validate _ => Sys2Proof.Machine.execValidate s
  | .decodeStatus _ => Sys2Proof.Machine.execDecodeStatus s
  | .validateAck _ => Sys2Proof.Machine.execValidateAck s
  | .send _ => Sys2Proof.Machine.execSend s
  | .flush _ => Sys2Proof.Machine.execFlush s
  | .recvFixed _ => Sys2Proof.Machine.execRecvFixed s
  | .scanRecv _ => Sys2Proof.Machine.execScanRecv s
  | .getStatus _ => Sys2Proof.Machine.execGetStatus s
  | .sendValidate _ => Sys2Proof.Machine.execSendValidate s
  | .drainOne _ => Sys2Proof.Machine.execDrainOne s
  | .reservedD _ => Sys2Proof.Machine.execReservedD s
  | .reservedE _ => Sys2Proof.Machine.execReservedE s
  | .reservedF _ => Sys2Proof.Machine.execReservedF s
  | .frameCmdStatus f => Sys2Proof.Machine.execFrameCmdStatus f s
  | .frameCmdControl f => Sys2Proof.Machine.execFrameCmdControl f s
  | .frameCmdPowerGrade f => Sys2Proof.Machine.execFrameCmdPowerGrade f s
  | .frameStatusReply f => Sys2Proof.Machine.execFrameStatusReply f s
  | .frameAckControl f => Sys2Proof.Machine.execFrameAckControl f s
  | .frameAckPowerGrade f => Sys2Proof.Machine.execFrameAckPowerGrade f s

end Sys2Proof.Machine
end

