-- ==== Sys2Proof/Machine/Phases.lean ====
section
/-! DEFINITION. The FSM step: the phases of the Transactor Synchronizer (spec/41_transactor.md R72, R75, R77 to R83).
A hold is a step the FSM does not have: the state stays as it is (R7, R72). -/

namespace Sys2Proof.Machine

open Sys2Proof.Config

/-- ST = FLUSH (R77): every byte queued at this step goes. -/
def stepFlush (s : State) : Host.Outcome State Fault Refusal :=
  if s.opc = opcFlush then .next (complete true (discard (avail s) s))
  else .next (setPhase .tx (discard (avail s) s))

/-- The last line of R78: the command is out. -/
def endTx (s : State) : Host.Outcome State Fault Refusal :=
  if s.opc = opcSend then .next (complete true s)
  else if s.opc = opcGetStatus then
    .next (setPhase .collect (arm s.lTb (setFlen 0 (setCount statusLen (setIdx 0 s)))))
  else if s.opc = opcSendValidate then
    .next (setPhase .hunt (arm s.lTw (setFlen 0 (setCount ackLen (setIdx 0 s)))))
  else .fault .noCaseForOperation

/-- ST = TX (R78). -/
def stepTx (s : State) : Host.Outcome State Fault Refusal :=
  if s.txv then .next s
  else if s.idx < s.n then
    if s.idx < bufLen then .next (offerByte s) else .fault .bufIndexOutOfRange
  else endTx s

/-- The header was found (R79): it goes to BUF[0..1]; a 2-byte frame is complete (spec/90_conflicts.md C4). -/
def huntMatch (s : State) : State :=
  let t := setFlen 2 (setIdx 2 (popInto 0 2 s))
  if s.n = 2 then setPhase .finish (disarm t) else setPhase .collect t

/-- ST = HUNT (R79); the deadline is tested first (R75). -/
def stepHunt (s : State) : Host.Outcome State Fault Refusal :=
  if s.exp then .next (fail .headerNotFound s)
  else
    match s.rxq with
    | b0 :: b1 :: _ =>
      match headerPattern s with
      | none => .fault .noCaseForOperation
      | some (p0, p1) => if b0 = p0 ∧ b1 = p1 then .next (huntMatch s) else .next (discard 1 s)
    | _ => .next s

/-- One byte read into BUF[IDX] (R80). -/
def collectByte (s : State) : State :=
  let t := setFlen (s.idx + 1) (setIdx (s.idx + 1) (popInto s.idx 1 s))
  if s.idx + 1 = s.n then setPhase .finish (disarm t) else t

/-- ST = COLLECT (R80); the deadline is tested first (R75). -/
def stepCollect (s : State) : Host.Outcome State Fault Refusal :=
  if s.exp then .next (fail (if s.idx = 0 then .timeout else .shortRead) s)
  else if avail s = 0 then .next s
  else if s.idx < bufLen then .next (collectByte s)
  else .fault .bufIndexOutOfRange

/-- GET_STATUS's line of R81: leftover drain, decode, validity. -/
def finishGetStatus (s : State) : State :=
  let t := decodeFields (discard (avail s) s)
  if t.rValid then complete true t else fail .checksum t

/-- SEND_VALIDATE's line of R81; the checksum is tested before the echo (R99). -/
def finishSendValidate (s : State) : State :=
  if frameSumGood s && echoGood s then complete true s
  else if !frameSumGood s then fail .checksum s
  else fail .echo s

/-- ST = FINISH (R81). -/
def stepFinish (s : State) : Host.Outcome State Fault Refusal :=
  if s.opc = opcRecvFixed ∨ s.opc = opcScanRecv then .next (complete true s)
  else if s.opc = opcGetStatus then .next (finishGetStatus s)
  else if s.opc = opcSendValidate then .next (finishSendValidate s)
  else .fault .noCaseForOperation

/-- `CAUSE <- NO_FRAME; complete(true)` (R82). -/
def endNoFrame (s : State) : State := complete true (setCause .noFrame s)

/-- The last branch of R82: 27 bytes are read; a good frame is delivered, a bad one dropped. -/
def scanFrame (s : State) : State :=
  let t := setFlen statusLen (setBudget (s.budget - statusLen) (popInto 0 statusLen s))
  if frameSumGood t then complete true (setRecord (decodeFields t)) else t

/-- ST = PSCAN (R82). -/
def stepPscan (s : State) : Host.Outcome State Fault Refusal :=
  if s.budget < 2 then .next (endNoFrame s)
  else
    match s.rxq with
    | b0 :: b1 :: _ =>
      if ¬(b0 = magic ∧ b1 = cmdStatus) then .next (setBudget (s.budget - 1) (discard 1 s))
      else if s.budget < statusLen then .next (endNoFrame s)
      else if avail s < statusLen then .fault .fifoReadPastEnd
      else .next (scanFrame s)
    | _ => .fault .fifoReadPastEnd

/-- When the FSM has a step: "ST ≠ IDLE and the phase rule for ST is not in a hold" (R11, R72). -/
def fsmEnabled (s : State) : Bool :=
  match s.st with
  | .idle => false
  | .flush => true
  | .tx => !s.txv
  | .hunt => s.exp || decide (2 ≤ avail s)
  | .collect => s.exp || decide (1 ≤ avail s)
  | .finish => true
  | .pscan => true

/-- One FSM step (R72). -/
def fsmStep (s : State) : Host.Outcome State Fault Refusal :=
  match s.st with
  | .idle => .next s
  | .flush => stepFlush s
  | .tx => stepTx s
  | .hunt => stepHunt s
  | .collect => stepCollect s
  | .finish => stepFinish s
  | .pscan => stepPscan s

end Sys2Proof.Machine
end

