-- ==== Sys2Proof/Machine/Port.lean ====
section
/-! DEFINITION. The register port: the map of offsets, what each register reads as, and what a write to each but OP does
(spec/10_state.md R14 to R21, spec/20_memory.md R30 to R32, R38). -/

namespace Sys2Proof.Machine

open Sys2Proof.Config

/-- The registers of R14. -/
inductive PortReg where
  | op
  | stat
  | cmd
  | devid
  | value
  | len
  | expect
  | pattern
  | tmoBlock
  | tmoWait
  | csum
  | flen
  | rxcount
  | now
  | magic
  | rDevid
  | rPower
  | rDc
  | rAc
  | rMisc
  | buf (i : Fin 27)
deriving DecidableEq, Repr

/-- The offset column of R14. -/
def portOffset : PortReg → BitVec 8
  | .op => 0x00#8
  | .stat => 0x04#8
  | .cmd => 0x08#8
  | .devid => 0x0C#8
  | .value => 0x10#8
  | .len => 0x14#8
  | .expect => 0x18#8
  | .pattern => 0x1C#8
  | .tmoBlock => 0x20#8
  | .tmoWait => 0x24#8
  | .csum => 0x28#8
  | .flen => 0x2C#8
  | .rxcount => 0x30#8
  | .now => 0x34#8
  | .magic => 0x38#8
  | .rDevid => 0x40#8
  | .rPower => 0x44#8
  | .rDc => 0x48#8
  | .rAc => 0x4C#8
  | .rMisc => 0x50#8
  | .buf i => BitVec.ofNat 8 (0x80 + 4 * i.val)

/-- The register at an offset; none where R14 lists no register, a misaligned offset among them (R31, R32). -/
def portReg (a : BitVec 8) : Option PortReg :=
  match a.toNat with
  | 0x00 => some .op
  | 0x04 => some .stat
  | 0x08 => some .cmd
  | 0x0C => some .devid
  | 0x10 => some .value
  | 0x14 => some .len
  | 0x18 => some .expect
  | 0x1C => some .pattern
  | 0x20 => some .tmoBlock
  | 0x24 => some .tmoWait
  | 0x28 => some .csum
  | 0x2C => some .flen
  | 0x30 => some .rxcount
  | 0x34 => some .now
  | 0x38 => some .magic
  | 0x40 => some .rDevid
  | 0x44 => some .rPower
  | 0x48 => some .rDc
  | 0x4C => some .rAc
  | 0x50 => some .rMisc
  | k =>
    if h : 0x80 ≤ k ∧ k ≤ 0xE8 ∧ k % 4 = 0 then some (.buf ⟨(k - 0x80) / 4, by omega⟩) else none

/-- The register an access reaches: its width must be 4 bytes (R32). -/
def portAccess (a : BitVec 8) (width : Nat) : Option PortReg := if width = 4 then portReg a else none

/-- What a register reads as (R14 to R20); the bits R14 marks 0 read as 0 (R15). -/
def readReg (r : PortReg) (s : State) : Word :=
  match r with
  | .op => s.opReg.setWidth 32
  | .stat => statWord s
  | .cmd => s.cmd.setWidth 32
  | .devid => s.devid
  | .value => s.value.setWidth 32
  | .len => s.len.setWidth 32
  | .expect => s.expect.setWidth 32
  | .pattern => s.pattern.setWidth 32
  | .tmoBlock => s.tmoBlock
  | .tmoWait => s.tmoWait
  | .csum => s.csum.setWidth 32
  | .flen => (BitVec.ofNat 8 s.flen).setWidth 32
  | .rxcount => (BitVec.ofNat 16 (avail s)).setWidth 32
  | .now => s.now
  | .magic => Config.magic.setWidth 32
  | .rDevid => s.rDevid
  | .rPower => s.rPower
  | .rDc => s.rDci ++ s.rDcv
  | .rAc => s.rAci ++ s.rAcv
  | .rMisc => 0#15 ++ BitVec.ofBool s.rValid ++ s.rTemp ++ s.rState
  | .buf i => (Memory.read s.buf i.val).setWidth 32

/-- What a write to a register does. A narrow field takes only its bits (R15), a read-only register ignores the write
and sets no flag (R14, R97), and BUF is the operation's while one runs (R21, R97). A write to OP is an operation:
`hostWrite` (Agents.lean) runs it, and nothing is left for this function to do. -/
def writeReg (r : PortReg) (v : Word) (s : State) : State :=
  match r with
  | .op => s
  | .stat => clearSticky v s
  | .cmd => { s with cmd := v.setWidth 8 }
  | .devid => { s with devid := v }
  | .value => { s with value := v.setWidth 8 }
  | .len => { s with len := v.setWidth 8 }
  | .expect => { s with expect := v.setWidth 8 }
  | .pattern => { s with pattern := v.setWidth 16 }
  | .tmoBlock => { s with tmoBlock := v }
  | .tmoWait => { s with tmoWait := v }
  | .csum => s
  | .flen => s
  | .rxcount => s
  | .now => s
  | .magic => s
  | .rDevid => s
  | .rPower => s
  | .rDc => s
  | .rAc => s
  | .rMisc => s
  | .buf i => if s.busy then reject s else { s with buf := Memory.write s.buf i.val (v.setWidth 8) }

end Sys2Proof.Machine
end

