-- ==== Sys2Proof/Machine/Agents.lean ====
section
/-! DEFINITION. One step of each of the six agents (spec/10_state.md R11). An agent whose step is not enabled leaves the
state as it is. -/

namespace Sys2Proof.Machine

/-- The host bus answers an access (R30, R32); nothing of the block changes (log 5, log 6). -/
def respond (data : Word) (error : Bool) (s : State) : State := { s with bus := some { data := data, error := error } }

/-- `MemRead(a, n)`: the register's value at this step; "A read that errs returns 0x00000000 with the error indication"
(R30, R32). No read has a side effect (R38). -/
def hostRead (a : BitVec 8) (width : Nat) (s : State) : State :=
  match portAccess a width with
  | none => respond 0#32 true s
  | some r => respond (readReg r s) false s

/-- `MemWrite(a, n, v)` (R30, R32, R38): a write to OP is the operation its word decodes to (R46, R48). -/
def hostWrite (a : BitVec 8) (width : Nat) (v : Word) (s : State) : Host.Outcome State Fault Refusal :=
  match portAccess a width with
  | none => .next (respond 0#32 true s)
  | some .op => exec (decodeOp v) (respond 0#32 false s)
  | some r => .next (writeReg r v (respond 0#32 false s))

/-- One HOST step (R11, R30). -/
def hostStep (a : HostAccess) (s : State) : Host.Outcome State Fault Refusal :=
  match a with
  | .read addr width => .next (hostRead addr width s)
  | .write addr width v => hostWrite addr width v s

/-- A run of bytes crosses the wire: a frame of R51 to R53 has the meaning of its row; other bytes cross as they are
(R22, R34, R84: "BUF is sent as it stands"). -/
def wireStep (d : Direction) (bytes : List Byte) (s : State) : Host.Outcome State Fault Refusal :=
  match decode (.frame d bytes) with
  | .ok i => exec i s
  | .error _ =>
    match d with
    | .tx => .next (emitFrame bytes s)
    | .rx => .next (receiveFrame bytes s)

/-- One step of the agent an event names (R11). -/
def act (e : Event) (s : State) : Host.Outcome State Fault Refusal :=
  match e with
  | .host a => hostStep a s
  | .rxByte b => .next (push b s)
  | .txTake => .next (takeByte s)
  | .msTick => .next (tick s)
  | .fsm => fsmStep s
  | .rst => .next (resetBlock s)
  | .wire d bytes => wireStep d bytes s

/-- The event that brings an encoded instruction to the block: an OP word is written to OP, a frame crosses the wire. -/
def eventOf : Encoded → Event
  | .op w => .host (.write 0x00#8 4 w)
  | .frame d bytes => .wire d bytes

end Sys2Proof.Machine
end

