-- ==== Sys2Proof/Machine/Step.lean ====
section
/-! DEFINITION. One step of the machine: the next agent of the script takes its step; with an empty script the agent is
a free value (spec/10_state.md R11, log 4). -/

namespace Sys2Proof.Machine

open Sys2Proof.Config

def step (s : State) : Host.Outcome State Fault Refusal :=
  match s.script with
  | [] => act (schedule s.turn) { s with turn := s.turn + 1 }
  | e :: rest => act e { s with script := rest }

/-- The instruction of a table word, put first in the script: the host's write of an OP word, or the arrival of a frame
(log 7, log 16). -/
def State.withFetchWord (s : State) (nbits w : Nat) : State :=
  match tableEncoded nbits w with
  | none => s
  | some e => { s with script := eventOf e :: s.script }

end Sys2Proof.Machine
end

