-- ==== Sys2Proof/Machine/HostNotation.lean ====
section
/-! DEFINITION. The host-program notation of spec/30_encoding.md R57. The host's control flow is no part of the block, so
it stands beside the machine: a program is a list of lines, and a line is a sequence of agent steps (log 14). -/

namespace Sys2Proof.Machine

/-- The lines of R57. `op NAME` carries the operation's code; labels are names. -/
inductive HostLine where
  | wr (r : PortReg) (v : Word)
  | rd (r : PortReg)
  | op (code : BitVec 4)
  | wait
  | rx (bytes : List Byte)
  | tick (k : Nat)
  | txtake (k : Nat)
  | run
  | label (name : String)
  | bif (r : PortReg) (hi lo : Nat) (imm : Nat) (target : String)
  | b (target : String)
deriving DecidableEq, Repr

/-- Where the host stands in its program, and the machine. -/
structure HostState where
  line : Nat
  machine : State
deriving DecidableEq, Repr

/-- A host read through the port, and the value read. -/
def readPort (r : PortReg) (s : State) : State := hostRead (portOffset r) 4 s

/-- `run`: "FSM steps until the FSM holds or ST = IDLE", at most k of them. -/
def runFsm : Nat → State → Host.Outcome State Fault Refusal
  | 0, s => .next s
  | k + 1, s =>
    if fsmEnabled s then
      match fsmStep s with
      | .next t => runFsm k t
      | .fault f => .fault f
      | .refused r => .refused r
    else .next s

/-- Enough FSM steps for `run` from any state of a run: with no other agent's step between them, each step but five
takes a byte from the FIFO. -/
def runFuel (s : State) : Nat := avail s + 8

/-- k TICK steps. -/
def ticks : Nat → State → State
  | 0, s => s
  | k + 1, s => ticks k (tick s)

/-- k TXSNK steps, "each allowed only when TXV = 1". -/
def takes : Nat → State → State
  | 0, s => s
  | k + 1, s => takes k (takeByte s)

/-- The line after a label; the program's end where no line has it. -/
def findLabel (program : List HostLine) (name : String) : Nat :=
  program.findIdx (fun l => l == .label name)

/-- Bits hi to lo of a word, as a number. -/
def fieldOf (w : Word) (hi lo : Nat) : Nat := w.toNat / 2 ^ lo % 2 ^ (hi + 1 - lo)

/-- One line of a host program; past its end nothing happens. -/
def hostLine (program : List HostLine) (h : HostState) : Host.Outcome HostState Fault Refusal :=
  let s := h.machine
  let go (r : Host.Outcome State Fault Refusal) : Host.Outcome HostState Fault Refusal :=
    match r with
    | .next t => .next { line := h.line + 1, machine := t }
    | .fault f => .fault f
    | .refused e => .refused e
  match program[h.line]? with
  | none => .next h
  | some (.wr r v) => go (hostWrite (portOffset r) 4 v s)
  | some (.rd r) => go (.next (readPort r s))
  | some (.op code) => go (hostWrite (portOffset .op) 4 (code.setWidth 32) s)
  | some .wait =>
    if s.busy then .next { h with machine := readPort .stat s } else go (.next (readPort .stat s))
  | some (.rx bytes) => go (.next (pushAll bytes s))
  | some (.tick k) => go (.next (ticks k s))
  | some (.txtake k) => go (.next (takes k s))
  | some .run => go (runFsm (runFuel s) s)
  | some (.label _) => go (.next s)
  | some (.bif r hi lo imm target) =>
    if fieldOf (readReg r s) hi lo = imm then
      .next { line := findLabel program target, machine := readPort r s }
    else go (.next (readPort r s))
  | some (.b target) => .next { h with line := findLabel program target }

end Sys2Proof.Machine
end

