-- ==== Sys2Proof/Machine/Units.lean ====
section
/-! DEFINITION. The physical reading of the result registers: "pure functions the model defines beside the machine"
(spec/40_codec.md R67 to R70, spec/00_scope.md R8). A binary32 value is held as its 32 bits, so that every pattern is a
value of its own. -/

namespace Sys2Proof.Machine

open Sys2Proof.Config

/-- A binary32 value, bit for bit (R8): bit 31 sign, bits 30 to 23 biased exponent, bits 22 to 0 fraction (log 17). -/
abbrev F32 := BitVec 32

/-- `bits32_to_f32(w)`: no numeric conversion (R8, R68). -/
def bits32ToF32 (w : Word) : F32 := w

/-- The sign bit. -/
def f32Sign (x : F32) : Bool := x.getLsbD 31

/-- The biased exponent. -/
def f32Exp (x : F32) : Nat := (x.extractLsb' 23 8).toNat

/-- The fraction. -/
def f32Frac (x : F32) : Nat := (x.extractLsb' 0 23).toNat

def f32IsNaN (x : F32) : Bool := f32Exp x == 255 && f32Frac x != 0

def f32IsInf (x : F32) : Bool := f32Exp x == 255 && f32Frac x == 0

def f32IsZero (x : F32) : Bool := f32Exp x == 0 && f32Frac x == 0

/-- The significand of a finite value, as an integer: its value is ± significand · 2^(f32Scale - 149). -/
def f32Significand (x : F32) : Nat := if f32Exp x = 0 then f32Frac x else 2 ^ 23 + f32Frac x

/-- The power of two that goes with the significand, counted from 2^-149. -/
def f32Scale (x : F32) : Nat := if f32Exp x = 0 then 0 else f32Exp x - 1

/-- The rational a finite binary32 value stands for (R8). -/
def f32Value (x : F32) : ℚ :=
  (if f32Sign x then -1 else 1) * (f32Significand x * 2 ^ f32Scale x : ℕ) / 2 ^ 149

/-- num / den to the nearest integer, ties to even. -/
def divNearestEven (num den : Nat) : Nat :=
  let q := num / den
  let r := num % den
  if 2 * r < den then q else if den < 2 * r then q + 1 else q + q % 2

/-- The least k with num / den < 2^(k + 24) · 2^-149: the power of two, counted from 2^-149, of the last place of a
24-bit significand for num / den, 0 for a subnormal. -/
def lastPlace (num den : Nat) : Nat := (Nat.log2 (num * 2 ^ 149 / den) + 1) - 24

/-- The 31 magnitude bits of `rne32` of the non-negative rational num / den; a magnitude past the largest finite value
is infinity (R8: round to nearest, ties to even). -/
def rneMagnitude (num den : Nat) : Nat :=
  let k := lastPlace num den
  let m := divNearestEven (num * 2 ^ 149) (den * 2 ^ k)
  let bits := k * 2 ^ 23 + m
  if 0x7F800000 ≤ bits then 0x7F800000 else bits

/-- `rne32(q)` for q = ± num / den (R8). -/
def rne32 (negative : Bool) (num den : Nat) : F32 :=
  BitVec.ofBool negative ++ BitVec.ofNat 31 (rneMagnitude num den)

/-- Some NaN: the exponent all ones and the quiet bit set; the rest is free (log 12). -/
def f32NaNOf (a b : F32) : F32 :=
  (nanProduct a b).extractLsb' 22 1 ++ 0xFF#8 ++ 1#1 ++ (nanProduct a b).extractLsb' 0 22

/-- `f32mul(a, b)`: the exact product rounded to nearest, ties to even (R8). -/
def f32mul (a b : F32) : F32 :=
  let negative := f32Sign a != f32Sign b
  if f32IsNaN a || f32IsNaN b || (f32IsInf a && f32IsZero b) || (f32IsZero a && f32IsInf b) then f32NaNOf a b
  else if f32IsInf a || f32IsInf b then BitVec.ofBool negative ++ 0x7F800000#31
  else rne32 negative (f32Significand a * f32Significand b * 2 ^ (f32Scale a + f32Scale b)) (2 ^ 149 * 2 ^ 149)

/-- `scale(v) = rne32(v / 100)` (R69). -/
def scale (v : Half) : F32 := rne32 false v.toNat 100

/-- The source's InverterStatus record (R67). State and temperature stay raw bytes. -/
structure InverterStatus where
  deviceID : Word
  state : Byte
  temperature : Byte
  totalGeneratedPower : F32
  dcVoltage : F32
  dcCurrent : F32
  acVoltage : F32
  acCurrent : F32
  dcPower : F32
  acPower : F32
  valid : Bool
deriving DecidableEq, Repr

/-- R67 to R70: the record the result registers stand for. -/
def inverterStatus (s : State) : InverterStatus :=
  { deviceID := s.rDevid
    state := s.rState
    temperature := s.rTemp
    totalGeneratedPower := bits32ToF32 s.rPower
    dcVoltage := scale s.rDcv
    dcCurrent := scale s.rDci
    acVoltage := scale s.rAcv
    acCurrent := scale s.rAci
    dcPower := f32mul (scale s.rDcv) (scale s.rDci)
    acPower := f32mul (scale s.rAcv) (scale s.rAci)
    valid := s.rValid }

end Sys2Proof.Machine
end

