-- ==== Sys2Proof/Safety.lean ====
section
/-! DEFINITION. The terms claims are stated in: runs of several steps, the invariant of every run, and the progress
assumptions of spec/41_transactor.md R76 as predicates on schedules. -/

namespace Sys2Proof.Machine

open Sys2Proof.Config

/-! Runs. -/

/-- Several events, one after the other; a run ends at the first fault or refusal. -/
def runEvents : List Event → State → Host.Outcome State Fault Refusal
  | [], s => .next s
  | e :: es, s =>
    match act e s with
    | .next t => runEvents es t
    | .fault f => .fault f
    | .refused r => .refused r

/-- k FSM steps. -/
def fsmSteps (k : Nat) (s : State) : Host.Outcome State Fault Refusal := runEvents (List.replicate k .fsm) s

/-- k rounds of one FSM step and one TXSNK step: the sink takes each byte as soon as it is offered. -/
def sendRounds (k : Nat) : List Event := (List.replicate k [Event.fsm, Event.txTake]).flatten

/-- What the operation of a code does once it is accepted (R47): a codec operation or a start action. The reserved codes
are never accepted (R48). -/
def operationAction (opc : BitVec 4) : State → State :=
  match opc.toNat with
  | 0x0 => runNop
  | 0x1 => runEncode
  | 0x2 => runChecksum
  | 0x3 => runValidate
  | 0x4 => runDecodeStatus
  | 0x5 => runValidateAck
  | 0x6 => startSend
  | 0x7 => startFlush
  | 0x8 => startRecvFixed
  | 0x9 => startScanRecv
  | 0xA => startGetStatus
  | 0xB => startSendValidate
  | 0xC => startDrainOne
  | _ => id

/-- The state after the bus has answered a write: data 0 and no error, which is the model's choice (log 6). -/
def answered (s : State) : State := { s with bus := some { data := 0#32, error := false } }

/-- The queued bytes `g`, with `rest` behind them, are passed over by k PSCAN steps: each step drops a byte that starts no
status header, or a 27-byte frame with the header and a bad checksum (R82). -/
inductive ScanSkips (rest : List Byte) : Nat → List Byte → Prop where
  | done : ScanSkips rest 0 []
  | dropByte (k : Nat) (b : Byte) (g : List Byte) :
      ¬(b = 0x43#8 ∧ (g ++ rest).head? = some 0xC0#8) → ScanSkips rest k g → ScanSkips rest (k + 1) (b :: g)
  | dropFrame (k : Nat) (frame g : List Byte) :
      frame.length = 27 → frame.getD 0 0#8 = 0x43#8 → frame.getD 1 0#8 = 0xC0#8 →
      sum8 (frame.take 14) ≠ frame.getD 14 0#8 → ScanSkips rest k g → ScanSkips rest (k + 1) (frame ++ g)

/-- A change made to the state of a next outcome. -/
def mapNext (f : State → State) : Host.Outcome State Fault Refusal → Host.Outcome State Fault Refusal
  | .next s => .next (f s)
  | .fault e => .fault e
  | .refused r => .refused r

/-- The 15 bytes of a command frame as R50, R51 and R62 list them, offset by offset. -/
def sentFrame (command : Byte) (deviceId : Word) (value : Byte) : List Byte :=
  let d3 := deviceId.extractLsb' 24 8
  let d2 := deviceId.extractLsb' 16 8
  let d1 := deviceId.extractLsb' 8 8
  let d0 := deviceId.extractLsb' 0 8
  [0x43#8, command, 0x00#8, 0x00#8, 0x00#8, 0x00#8, d3, d2, d1, d0, 0x00#8, 0x00#8, 0x00#8, value,
   0x43#8 + command + d3 + d2 + d1 + d0 + value]

/-- The four bytes of a 32-bit field, most significant first (R33). -/
def wireBytes32 (v : BitVec 32) : List Byte :=
  [v.extractLsb' 24 8, v.extractLsb' 16 8, v.extractLsb' 8 8, v.extractLsb' 0 8]

/-- The three bytes of a 24-bit run, most significant first. -/
def wireBytes24 (v : BitVec 24) : List Byte := [v.extractLsb' 16 8, v.extractLsb' 8 8, v.extractLsb' 0 8]

/-- The two bytes of a 16-bit field, most significant first (R33). -/
def wireBytes16 (v : Half) : List Byte := [v.extractLsb' 8 8, v.extractLsb' 0 8]

/-- How many more bytes the RX FIFO takes (R22). -/
def room (s : State) : Nat := s.params.rxqDepth - s.rxq.length

/-- The operand registers of R18, all of them rewritten. -/
def withOperands (cmd : Byte) (devid : Word) (value len expect : Byte) (pattern : Half) (tb tw : Word) (s : State) : State :=
  { s with cmd := cmd, devid := devid, value := value, len := len, expect := expect, pattern := pattern,
           tmoBlock := tb, tmoWait := tw }

/-- The block has loaded these 15 bytes to send and has offered none of them yet (R78). -/
def Offers (bytes : List Byte) (s : State) : Prop :=
  s.st = .tx ∧ s.txv = false ∧ s.idx = 0 ∧ s.n = bytes.length ∧ s.n ≤ bufLen ∧
    ∀ i, i < bytes.length → Memory.read s.buf i = bytes.getD i 0#8

/-- The offsets R31 maps. -/
def Mapped (a : BitVec 8) : Prop :=
  a.toNat % 4 = 0 ∧
    (a.toNat ≤ 0x38 ∨ (0x40 ≤ a.toNat ∧ a.toNat ≤ 0x50) ∨ (0x80 ≤ a.toNat ∧ a.toNat ≤ 0xE8))

/-- A finite binary32 value. -/
def F32Finite (x : F32) : Prop := f32Exp x ≠ 255

/-- r is finite, no finite binary32 value is nearer to q, and where another one is as near the last bit of r is 0: "the
binary32 value nearest the exact rational q, ties to even" (R8). -/
def NearestEven (r : F32) (q : ℚ) : Prop :=
  F32Finite r ∧ ∀ x : F32, F32Finite x →
    |f32Value r - q| ≤ |f32Value x - q| ∧
      (|f32Value x - q| = |f32Value r - q| → f32Value x ≠ f32Value r → r.getLsbD 0 = false)

/-- BUF[i] of a state. -/
def bufAt (s : State) (i : Nat) : Byte := Memory.read s.buf i

/-- `m` is the buffer of `s` but for the bytes at base, base + 1, ..., which are `bytes`. -/
def BufWritten (s : State) (m : Memory) (base : Nat) (bytes : List Byte) : Prop :=
  ∀ i, Memory.read m i =
    if base ≤ i ∧ i < base + bytes.length then bytes.getD (i - base) 0#8 else Memory.read s.buf i

/-! The invariant of every run. -/

/-- What R25 and the phase rules say of the other state of a running operation, phase by phase. -/
def PhaseInv (s : State) : Prop :=
  match s.st with
  | .idle => s.idx = 0 ∧ s.n = 0 ∧ s.budget = 0
  | .flush => s.idx = 0 ∧ s.budget = 0 ∧ ((s.opc = opcFlush ∧ s.n = 0) ∨ (s.opc = opcGetStatus ∧ s.n = cmdLen))
  | .tx => s.budget = 0 ∧ s.idx ≤ s.n ∧ 1 ≤ s.n ∧ s.n ≤ bufLen ∧
      (s.opc = opcSend ∨ s.opc = opcGetStatus ∨ s.opc = opcSendValidate)
  | .hunt => s.budget = 0 ∧ s.idx = 0 ∧ 2 ≤ s.n ∧ s.n ≤ bufLen ∧ (s.opc = opcScanRecv ∨ s.opc = opcSendValidate)
  | .collect => s.budget = 0 ∧ s.idx < s.n ∧ s.n ≤ bufLen ∧ s.flen = s.idx ∧
      (s.opc = opcRecvFixed ∨ s.opc = opcScanRecv ∨ s.opc = opcGetStatus ∨ s.opc = opcSendValidate)
  | .finish => s.budget = 0 ∧ s.idx = s.n ∧ s.n ≤ bufLen ∧ s.flen = s.n ∧
      (s.opc = opcRecvFixed ∨ s.opc = opcScanRecv ∨ s.opc = opcGetStatus ∨ s.opc = opcSendValidate)
  | .pscan => s.idx = 0 ∧ s.n = 0 ∧ s.budget ≤ avail s ∧ s.opc = opcDrainOne

/-- What holds at reset and after every step, of every agent, in every order. -/
structure Inv (s : State) : Prop where
  /-- R5, R22: the parameters are in their ranges -/
  params : s.params.legal = true
  /-- R21: the frame buffer is in its canonical form, its indexes below 27 -/
  buf : Memory.wf s.buf = true
  /-- R22: "0 <= Avail() <= RXQ_DEPTH" -/
  fifo : avail s ≤ s.params.rxqDepth
  /-- R25: "BUSY = 1 exactly when ST ≠ IDLE" -/
  busyIff : s.busy = true ↔ s.st ≠ .idle
  /-- R48: OP.OPC and OPC are written together -/
  opcSame : s.opReg = s.opc
  /-- R49: no reserved operation is ever accepted -/
  opcLegal : s.opc.toNat ≤ 12
  /-- R14: FLEN is 0 to 27 -/
  flen : s.flen ≤ bufLen
  /-- R17: a running operation has DONE = 0, OK = 0 and REC = 0 -/
  running : s.busy = true → s.done = false ∧ s.ok = false ∧ s.recd = false
  /-- R17: REC = 1 only after a DRAIN_ONE that completed with OK = 1 -/
  record : s.recd = true → s.opc = opcDrainOne ∧ s.done = true ∧ s.ok = true
  /-- R78: a byte on offer is the byte of BUF before IDX -/
  offer : s.txv = true → s.st = .tx ∧ 0 < s.idx ∧ s.txd = Memory.read s.buf (s.idx - 1)
  /-- R74: a deadline runs exactly in the receive phases -/
  armedIff : s.armed = true ↔ s.st = .hunt ∨ s.st = .collect
  /-- R74: only a running deadline has expired -/
  expArmed : s.exp = true → s.armed = true
  /-- R24: a running deadline that has not expired has time left -/
  timeLeft : s.armed = true → s.exp = false → s.now - s.t0 < s.tmoCur
  /-- R89: SEND_VALIDATE runs with a command code it takes -/
  ackCommand : s.busy = true → s.opc = opcSendValidate → isAckCommandCode s.lCmd = true
  /-- R25: the position of the running operation -/
  phase : PhaseInv s

/-! Schedules and the progress assumptions of R76. -/

/-- An infinite choice of agents' steps. -/
abbrev Schedule := Nat → Event

/-- The state after k steps of a schedule; a fault or a refusal stops the run where it is. -/
def scheduleState (c : Schedule) (s : State) : Nat → State
  | 0 => s
  | k + 1 =>
    match act (c k) (scheduleState c s k) with
    | .next t => t
    | .fault _ => scheduleState c s k
    | .refused _ => scheduleState c s k

/-- How many FSM steps an event is, in the state that meets it. An `fsm` event is one where the FSM has an enabled step,
and none where it is idle or holds (R72). A run of bytes to the device is one for each byte offered (log 2). DESIGN
CHOICE: the spec does not say what an event of a script counts for (log 13). -/
def fsmStepsOf (e : Event) (s : State) : Nat :=
  match e with
  | .fsm => if fsmEnabled s then 1 else 0
  | .wire .tx bytes => if offering bytes s then bytes.length else 0
  | .wire .rx _ => 0
  | .host _ => 0
  | .rxByte _ => 0
  | .txTake => 0
  | .msTick => 0
  | .rst => 0

/-- R76, 1: "an FSM step that stays enabled is eventually taken". -/
def FsmFair (c : Schedule) (s : State) : Prop :=
  ∀ k, (∀ j, k ≤ j → fsmEnabled (scheduleState c s j) = true) →
    ∃ j, k ≤ j ∧ 0 < fsmStepsOf (c j) (scheduleState c s j)

/-- R76, 2: "TICK steps occur infinitely often". -/
def TicksForever (c : Schedule) : Prop := ∀ k, ∃ j, k ≤ j ∧ c j = .msTick

/-- R76, 3: "When TXV = 1, a TXSNK step eventually occurs". -/
def SinkTakes (c : Schedule) (s : State) : Prop :=
  ∀ k, (scheduleState c s k).txv = true → ∃ j, k ≤ j ∧ c j = .txTake

/-- The three assumptions of R76 together. -/
structure Progress (c : Schedule) (s : State) : Prop where
  fsm : FsmFair c s
  ticks : TicksForever c
  sink : SinkTakes c s

/-- How many FSM steps are taken strictly between places i and j of a schedule, run from s; each event counts as
`fsmStepsOf` says (DESIGN CHOICE, log 13). -/
def fsmBetween (c : Schedule) (s : State) (i j : Nat) : Nat :=
  ((List.range j).map fun m => if i < m then fsmStepsOf (c m) (scheduleState c s m) else 0).sum

/-- Places i and j hold two MS_TICK pulses with none between them. -/
def NextTick (c : Schedule) (i j : Nat) : Prop :=
  i < j ∧ c i = .msTick ∧ c j = .msTick ∧ ∀ m, i < m → m < j → c m ≠ .msTick

/-- The premise STEPS_PER_TICK (R5): "lower bound on FSM steps between two MS_TICK pulses", to the letter. With a bound
above 0 no schedule meets it that leaves the FSM idle or holding from one tick to the next (log 13). -/
def StepsPerTick (c : Schedule) (s : State) : Prop :=
  ∀ i j, NextTick c i j → s.params.stepsPerTick ≤ fsmBetween c s i j

/-- The same bound asked only of a tick-to-tick interval in which the FSM always has an enabled step. DESIGN CHOICE: the
weaker premise, so that a claim may speak of schedules in which the FSM rests (log 13). -/
def StepsPerTickWhenEnabled (c : Schedule) (s : State) : Prop :=
  ∀ i j, NextTick c i j → (∀ m, i < m → m ≤ j → fsmEnabled (scheduleState c s m) = true) →
    s.params.stepsPerTick ≤ fsmBetween c s i j

/-- The premise F_CLK (R5, R72): at most one FSM step a clock cycle, and one MS_TICK pulse a millisecond, in which
hz / 1000 cycles and a part of one begin (DESIGN CHOICE, log 13). -/
def ClockBound (c : Schedule) (s : State) : Prop :=
  ∀ hz, s.params.fClk = some hz → ∀ i j, NextTick c i j → fsmBetween c s i j ≤ hz / 1000 + 1

end Sys2Proof.Machine
end

