-- ==== Sys2Proof/Certificates/Slice0/Obligations.lean ====
section
/-! DEFINITION. The statements for the provers. Each docstring names the rules of spec/ it formalises; a docstring that
says "the model's choice" names the log entry it rests on. -/

open Sys2Proof Sys2Proof.Machine Sys2Proof.Config

/-! Encodings. -/

/-- Decoding the encoding of a well-formed instruction gives it back, with every operand (R46, R47, R51 to R53). -/
def Obligations.DecodeOfEncode : Prop :=
  ∀ i : Instr, WellFormed i → decode (encode i) = .ok i

/-- What decodes was the encoding of exactly that instruction, and the instruction is well-formed. -/
def Obligations.EncodeOfDecode : Prop :=
  ∀ (e : Encoded) (i : Instr), decode e = .ok i → encode i = e ∧ WellFormed i

/-- Words and frames written out in the spec decode to the rows they stand for (R47, R49, R62, R66). -/
def Obligations.SpecWordsDecode : Prop :=
  decode (.op 0xFFFFFFF1#32) = .ok (.encode 0xFFFFFFF#28) ∧
  decode (.op 0x0000000C#32) = .ok (.drainOne 0#28) ∧
  decode (.op 0x0000000D#32) = .ok (.reservedD 0#28) ∧
  decode (.frame .tx [0x43#8, 0xC0#8, 0#8, 0#8, 0#8, 0#8, 0x11#8, 0x22#8, 0x33#8, 0x44#8, 0#8, 0#8, 0#8, 0#8, 0xAD#8]) =
    .ok (.frameCmdStatus
      { reservedA := 0#32, deviceId := 0x11223344#32, reservedB := 0#24, value := 0#8, checksum := 0xAD#8 }) ∧
  decode (.frame .rx
      [0x43#8, 0xC3#8, 0#8, 0#8, 0#8, 0#8, 0x11#8, 0x22#8, 0x33#8, 0x44#8, 0#8, 0#8, 0#8, 0x32#8, 0xE2#8]) =
    .ok (.frameAckPowerGrade
      { reserved := 0#32, deviceId := 0x11223344#32, unnamed := 0#24, echo := 0x32#8, checksum := 0xE2#8 })

/-- Two OP words with the same bits [3:0] do the same in every state (R46). -/
def Obligations.OpWordUpperBitsIgnored : Prop :=
  ∀ (v w : Word) (s : State), v.extractLsb' 0 4 = w.extractLsb' 0 4 →
    hostWrite 0x00#8 4 v s = hostWrite 0x00#8 4 w s

/-! A step runs the decoded instruction. -/

/-- What `step` adds around `exec`: the event leaves the script; an OP write also gets a bus answer without error. With
an empty script the agent is the free value. The state `withFetchWord` builds runs the instruction of its table word
next. The model's choice: log 4, log 7 and log 16, and log 6 for the bus answer (data 0, no error) to the OP write. -/
def Obligations.StepRunsDecodedInstruction : Prop :=
  (∀ (s : State) (rest : List Event) (w : Word) (i : Instr),
    s.script = .host (.write 0x00#8 4 w) :: rest → decode (.op w) = .ok i →
      step s = exec i { s with script := rest, bus := some { data := 0#32, error := false } }) ∧
  (∀ (s : State) (rest : List Event) (d : Direction) (bytes : List Byte) (i : Instr),
    s.script = .wire d bytes :: rest → decode (.frame d bytes) = .ok i →
      step s = exec i { s with script := rest }) ∧
  (∀ (s : State) (rest : List Event) (e : Event), s.script = e :: rest → step s = act e { s with script := rest }) ∧
  (∀ s : State, s.script = [] → step s = act (schedule s.turn) { s with turn := s.turn + 1 }) ∧
  (∀ (s : State) (nbits w : Nat) (i : Instr), decodeTableWord nbits w = some i →
    (nbits = 32 →
      step (s.withFetchWord nbits w) = exec i { s with bus := some { data := 0#32, error := false } }) ∧
    (nbits = 16 → step (s.withFetchWord nbits w) = exec i s))

/-! Acceptance and rejection. -/

/-- R48 and R26, of a host write of an operation that is no reserved one: a busy block rejects it; an idle one writes both
opcodes, clears DONE, OK, REC and CAUSE, and latches every operand before the operation runs on that state. The bus
answer is the model's choice (log 6). -/
def Obligations.AcceptanceLatchesOperands : Prop :=
  ∀ (v : Word) (s : State), (v.extractLsb' 0 4).toNat ≤ 12 →
    (s.busy = true → hostWrite 0x00#8 4 v s = .next { answered s with rej := true }) ∧
    (s.busy = false → hostWrite 0x00#8 4 v s =
      .next (operationAction (v.extractLsb' 0 4)
        { answered s with
            opReg := v.extractLsb' 0 4, opc := v.extractLsb' 0 4,
            done := false, ok := false, recd := false, cause := .none,
            lCmd := s.cmd, lDevid := s.devid, lValue := s.value, lLen := s.len, lExpect := s.expect,
            lP0 := s.pattern.extractLsb' 0 8, lP1 := s.pattern.extractLsb' 8 8,
            lTb := s.tmoBlock, lTw := s.tmoWait }))

/-- R49: the reserved codes are rejected, busy or not, and nothing but REJ changes. -/
def Obligations.ReservedOperationsRejected : Prop :=
  ∀ (s : State) (x : BitVec 28),
    exec (.reservedD x) s = .next { s with rej := true } ∧
    exec (.reservedE x) s = .next { s with rej := true } ∧
    exec (.reservedF x) s = .next { s with rej := true }

/-- The three rejected writes set REJ and change nothing else; writes to read-only registers change nothing (R97). The
bus answer is the model's choice (log 6). -/
def Obligations.RejectedWritesOnlySetRej : Prop :=
  ∀ (s : State) (v : Word),
    (s.busy = true → hostWrite 0x00#8 4 v s = .next { answered s with rej := true }) ∧
    (13 ≤ (v.extractLsb' 0 4).toNat → hostWrite 0x00#8 4 v s = .next { answered s with rej := true }) ∧
    (s.busy = true → ∀ i : Fin 27, hostWrite (portOffset (.buf i)) 4 v s = .next { answered s with rej := true }) ∧
    (∀ r : PortReg, r ∈ [.csum, .flen, .rxcount, .now, .magic, .rDevid, .rPower, .rDc, .rAc, .rMisc] →
      hostWrite (portOffset r) 4 v s = .next (answered s))

/-- R17, R28, R120: REJ and RX_OVF, once set, stay until the host writes 1 to their STAT bit or the block is reset. -/
def Obligations.StickyFlagsStay : Prop :=
  ∀ (e : Event) (s t : State), act e s = .next t →
    (s.rej = true → t.rej = false → e = .rst ∨ ∃ v : Word, e = .host (.write 0x04#8 4 v) ∧ v.getLsbD 5 = true) ∧
    (s.rxOvf = true → t.rxOvf = false → e = .rst ∨ ∃ v : Word, e = .host (.write 0x04#8 4 v) ∧ v.getLsbD 4 = true)

/-! The Frame Codec. -/

/-- R61, with what acceptance leaves and the STAT word of the example. -/
def Obligations.NopCompletes : Prop :=
  ∀ (s : State) (x : BitVec 28),
    (s.busy = false →
      exec (.nop x) s =
        .next { accept opcNop s with done := true, ok := true, recd := false, cause := .none } ∧
      (s.st = .idle → s.rxOvf = false → s.rej = false →
        statWord { accept opcNop s with done := true, ok := true, recd := false, cause := .none } = 0x00000006#32)) ∧
    (s.busy = true → exec (.nop x) s = .next { s with rej := true })

/-- R62: a code that is no command changes nothing but the outcome; a command code gives the 15 bytes of the frame, FLEN
= 15, every other byte and register as acceptance left it; and VALIDATE over it succeeds. -/
def Obligations.EncodeBuildsFrame : Prop :=
  (∀ (s : State) (x : BitVec 28), s.busy = false → s.cmd ≠ 0xC0#8 → s.cmd ≠ 0xC1#8 → s.cmd ≠ 0xC3#8 →
    exec (.encode x) s = .next { accept opcEncode s with done := true, ok := false, cause := .operand }) ∧
  (∀ (s : State) (x : BitVec 28), s.busy = false → (s.cmd = 0xC0#8 ∨ s.cmd = 0xC1#8 ∨ s.cmd = 0xC3#8) →
    ∃ m, BufWritten s m 0 (sentFrame s.cmd s.devid s.value) ∧
      exec (.encode x) s = .next { accept opcEncode s with buf := m, flen := 15, done := true, ok := true }) ∧
  (∀ (s t : State) (x y : BitVec 28), s.busy = false → (s.cmd = 0xC0#8 ∨ s.cmd = 0xC1#8 ∨ s.cmd = 0xC3#8) →
    exec (.encode x) s = .next t →
      ∃ u, exec (.validate y) { t with len := 14#8, expect := bufAt t 14 } = .next u ∧ u.done = true ∧ u.ok = true)

/-- R63: CSUM is the sum of the first LEN bytes; a LEN above 27 fails and leaves CSUM. -/
def Obligations.ChecksumCompletes : Prop :=
  ∀ (s : State) (x : BitVec 28), s.busy = false →
    (27 < s.len.toNat →
      exec (.checksum x) s = .next { accept opcChecksum s with done := true, ok := false, cause := .operand }) ∧
    (s.len.toNat ≤ 27 →
      exec (.checksum x) s =
        .next { accept opcChecksum s with
                  csum := sum8 ((List.range s.len.toNat).map (bufAt s)), done := true, ok := true })

/-- R64: OK says whether the sum of the first LEN bytes is EXPECT; CSUM is not written. -/
def Obligations.ValidateCompletes : Prop :=
  ∀ (s : State) (x : BitVec 28), s.busy = false →
    (27 < s.len.toNat →
      exec (.validate x) s = .next { accept opcValidate s with done := true, ok := false, cause := .operand }) ∧
    (s.len.toNat ≤ 27 → sum8 ((List.range s.len.toNat).map (bufAt s)) = s.expect →
      exec (.validate x) s = .next { accept opcValidate s with done := true, ok := true }) ∧
    (s.len.toNat ≤ 27 → sum8 ((List.range s.len.toNat).map (bufAt s)) ≠ s.expect →
      exec (.validate x) s = .next { accept opcValidate s with done := true, ok := false, cause := .checksum })

/-- R60: what `decode_fields` writes, and that decoding the same reply twice gives the same. -/
def Obligations.FieldExtraction : Prop :=
  ∀ s : State,
    decodeFields s =
      { s with rDevid := be32 (bufAt s 6) (bufAt s 7) (bufAt s 8) (bufAt s 9),
               rPower := be32 (bufAt s 10) (bufAt s 11) (bufAt s 12) (bufAt s 13),
               rDcv := be16 (bufAt s 15) (bufAt s 16), rDci := be16 (bufAt s 17) (bufAt s 18),
               rAcv := be16 (bufAt s 19) (bufAt s 20), rAci := be16 (bufAt s 21) (bufAt s 22),
               rState := bufAt s s.params.stateOfs.toNat, rTemp := bufAt s (s.params.stateOfs.toNat + 1),
               rValid := decide (sum8 ((List.range 14).map (bufAt s)) = bufAt s 14) } ∧
    decodeFields (decodeFields s) = decodeFields s

/-- R65: the five result registers are written whatever the validity; OK is the validity. -/
def Obligations.DecodeStatusCompletes : Prop :=
  ∀ (s : State) (x : BitVec 28), s.busy = false →
    let d := decodeFields (accept opcDecodeStatus s)
    (sum8 ((List.range 14).map (bufAt s)) = bufAt s 14 →
      exec (.decodeStatus x) s = .next { d with rValid := true, done := true, ok := true, cause := .none }) ∧
    (sum8 ((List.range 14).map (bufAt s)) ≠ bufAt s 14 →
      exec (.decodeStatus x) s = .next { d with rValid := false, done := true, ok := false, cause := .checksum })

/-- R66: the checksum is tested first, then the echo; the result registers are not written. -/
def Obligations.ValidateAckCompletes : Prop :=
  ∀ (s : State) (x : BitVec 28), s.busy = false →
    (sum8 ((List.range 14).map (bufAt s)) = bufAt s 14 → bufAt s 13 = s.value →
      exec (.validateAck x) s = .next { accept opcValidateAck s with done := true, ok := true }) ∧
    (sum8 ((List.range 14).map (bufAt s)) ≠ bufAt s 14 →
      exec (.validateAck x) s = .next { accept opcValidateAck s with done := true, ok := false, cause := .checksum }) ∧
    (sum8 ((List.range 14).map (bufAt s)) = bufAt s 14 → bufAt s 13 ≠ s.value →
      exec (.validateAck x) s = .next { accept opcValidateAck s with done := true, ok := false, cause := .echo })

/-- R59: `sum8` is the unsigned sum reduced modulo 256, with each consequence the rule lists. -/
def Obligations.ChecksumIsAdditiveSum : Prop :=
  (∀ l : List Byte, (sum8 l).toNat = (l.map BitVec.toNat).sum % 256) ∧
  sum8 [] = 0#8 ∧
  (∀ l l' : List Byte, l.Perm l' → sum8 l = sum8 l') ∧
  (∀ (a b : List Byte) (x d : Byte), d ≠ 0#8 →
    sum8 (a ++ [x + d] ++ b) = sum8 (a ++ [x] ++ b) + d ∧ sum8 (a ++ [x + d] ++ b) ≠ sum8 (a ++ [x] ++ b)) ∧
  (∀ (a b c : List Byte) (x y d e : Byte), d + e = 0#8 →
    sum8 (a ++ [x + d] ++ b ++ [y + e] ++ c) = sum8 (a ++ [x] ++ b ++ [y] ++ c)) ∧
  (∀ (s : State) (n i : Nat) (v : Byte), n ≤ i →
    bufSum { s with buf := Memory.write s.buf i v } n = bufSum s n)

/-- R65, corner cases: after a change of one of BUF[0..14] a good reply decodes as invalid; a change of BUF[15..26] is
never detected. -/
def Obligations.TamperingIsDetected : Prop :=
  ∀ (s : State) (x : BitVec 28) (i : Nat) (v : Byte), s.busy = false →
    sum8 ((List.range 14).map (bufAt s)) = bufAt s 14 → v ≠ bufAt s i →
      (i ≤ 14 →
        ∃ t, exec (.decodeStatus x) { s with buf := Memory.write s.buf i v } = .next t ∧ t.ok = false ∧ t.rValid = false) ∧
      (15 ≤ i → i < 27 →
        ∃ t, exec (.decodeStatus x) { s with buf := Memory.write s.buf i v } = .next t ∧ t.ok = true ∧ t.rValid = true)

/-! The Transactor Synchronizer: how each operation starts. -/

/-- R84: a LEN above 27 fails, 0 completes at once, every other LEN starts the TX phase. -/
def Obligations.SendStarts : Prop :=
  ∀ (s : State) (x : BitVec 28), s.busy = false →
    (27 < s.len.toNat → exec (.send x) s = .next (fail .operand (accept opcSend s))) ∧
    (s.len = 0#8 → exec (.send x) s = .next (complete true (accept opcSend s))) ∧
    (1 ≤ s.len.toNat → s.len.toNat ≤ 27 →
      exec (.send x) s =
        .next { accept opcSend s with n := s.len.toNat, idx := 0, busy := true, st := .tx })

/-- R85 with R77: FLUSH starts, and its one FSM step empties the FIFO and completes; RX_OVF stays. -/
def Obligations.FlushEmptiesFifo : Prop :=
  ∀ (s : State) (x : BitVec 28), s.busy = false →
    ∃ t, exec (.flush x) s = .next t ∧ t = { accept opcFlush s with busy := true, st := .flush } ∧
      fsmStep t =
        .next { accept opcFlush s with
                  rxq := [], busy := false, st := .idle, done := true, ok := true, armed := false, exp := false,
                  idx := 0, n := 0, budget := 0 }

/-- R86, with the arming of R74. -/
def Obligations.RecvFixedStarts : Prop :=
  ∀ (s : State) (x : BitVec 28), s.busy = false →
    (27 < s.len.toNat → exec (.recvFixed x) s = .next (fail .operand (accept opcRecvFixed s))) ∧
    (s.len = 0#8 → exec (.recvFixed x) s = .next (complete true { accept opcRecvFixed s with flen := 0 })) ∧
    (1 ≤ s.len.toNat → s.len.toNat ≤ 27 →
      exec (.recvFixed x) s =
        .next { accept opcRecvFixed s with
                  flen := 0, idx := 0, n := s.len.toNat, t0 := s.now, tmoCur := s.tmoBlock, armed := true,
                  exp := decide (s.tmoBlock = 0#32), busy := true, st := .collect })

/-- R87, with the arming of R74. -/
def Obligations.ScanRecvStarts : Prop :=
  ∀ (s : State) (x : BitVec 28), s.busy = false →
    ((s.len.toNat < 2 ∨ 27 < s.len.toNat) → exec (.scanRecv x) s = .next (fail .operand (accept opcScanRecv s))) ∧
    (2 ≤ s.len.toNat → s.len.toNat ≤ 27 →
      exec (.scanRecv x) s =
        .next { accept opcScanRecv s with
                  flen := 0, idx := 0, n := s.len.toNat, t0 := s.now, tmoCur := s.tmoWait, armed := true,
                  exp := decide (s.tmoWait = 0#32), busy := true, st := .hunt })

/-- R88: the STATUS frame for DEVID stands in BUF and the FLUSH phase starts; CMD and VALUE play no part. -/
def Obligations.GetStatusStarts : Prop :=
  ∀ (s : State) (x : BitVec 28), s.busy = false →
    ∃ m, BufWritten s m 0 (sentFrame 0xC0#8 s.devid 0x00#8) ∧
      exec (.getStatus x) s =
        .next { accept opcGetStatus s with
                  buf := m, flen := 15, idx := 0, n := 15, busy := true, st := .flush }

/-- R89: a code other than CONTROL and POWER_GRADE fails with nothing sent; those two build their frame and start TX. -/
def Obligations.SendValidateStarts : Prop :=
  ∀ (s : State) (x : BitVec 28), s.busy = false →
    (s.cmd ≠ 0xC1#8 → s.cmd ≠ 0xC3#8 →
      exec (.sendValidate x) s = .next (fail .operand (accept opcSendValidate s))) ∧
    ((s.cmd = 0xC1#8 ∨ s.cmd = 0xC3#8) →
      ∃ m, BufWritten s m 0 (sentFrame s.cmd s.devid s.value) ∧
        exec (.sendValidate x) s =
          .next { accept opcSendValidate s with
                    buf := m, flen := 15, idx := 0, n := 15, busy := true, st := .tx })

/-- R90: the bytes now queued are the budget. -/
def Obligations.DrainOneStarts : Prop :=
  ∀ (s : State) (x : BitVec 28), s.busy = false →
    exec (.drainOne x) s =
      .next { accept opcDrainOne s with budget := s.rxq.length, busy := true, st := .pscan }

/-! Completion, failure and the deadline. -/

/-- R73: what `complete` and `fail` write; and an operation ends only by a completion or by reset. -/
def Obligations.CompletionEndsOperation : Prop :=
  (∀ (r : Bool) (s : State),
    complete r s =
      { s with st := .idle, busy := false, done := true, ok := r, armed := false, exp := false, idx := 0, n := 0,
               budget := 0 }) ∧
  (∀ (c : Cause) (s : State),
    fail c s =
      { s with st := .idle, busy := false, done := true, ok := false, armed := false, exp := false, idx := 0, n := 0,
               budget := 0, cause := c, rValid := if s.opc = 0xA#4 then false else s.rValid }) ∧
  (∀ (e : Event) (s t : State), act e s = .next t → s.busy = true → t.busy = false →
    e = .rst ∨ (e = .fsm ∧ ∃ (r : Bool) (u : State), t = complete r u))

/-- R74 and R24: a tick counts modulo 2^32; a deadline of t milliseconds has expired exactly from the t-th tick after
arming, whatever NOW was. -/
def Obligations.DeadlineExpiresAtTick : Prop :=
  (∀ s : State,
    tick s = { s with now := s.now + 1#32,
                      exp := s.exp || (s.armed && decide (s.tmoCur ≤ s.now + 1#32 - s.t0)) } ∧
    (tick s).now.toNat = (s.now.toNat + 1) % 4294967296) ∧
  (∀ (t : Word) (s : State),
    arm t s = { s with t0 := s.now, tmoCur := t, armed := true, exp := decide (t = 0#32) }) ∧
  (∀ s : State, disarm s = { s with armed := false, exp := false }) ∧
  (∀ (t : Word) (s : State) (k : Nat), (ticks k (arm t s)).exp = decide (t.toNat ≤ k))

/-- R75: with EXP = 1 a HUNT or COLLECT step fails, bytes waiting or not; such a step consumes a byte only with EXP = 0;
and EXP = 1 lasts until the FSM steps or the block is reset. -/
def Obligations.DeadlineWins : Prop :=
  (∀ s : State, s.st = .hunt → s.exp = true → fsmStep s = .next (fail .headerNotFound s)) ∧
  (∀ s : State, s.st = .collect → s.exp = true → s.idx = 0 → fsmStep s = .next (fail .timeout s)) ∧
  (∀ s : State, s.st = .collect → s.exp = true → s.idx ≠ 0 → fsmStep s = .next (fail .shortRead s)) ∧
  (∀ s t : State, (s.st = .hunt ∨ s.st = .collect) → fsmStep s = .next t → t.rxq ≠ s.rxq → s.exp = false) ∧
  (∀ s : State, (arm 0#32 s).exp = true) ∧
  (∀ (e : Event) (s t : State), act e s = .next t → s.busy = true → s.exp = true → t.exp = false →
    e = .rst ∨ e = .fsm)

/-! The phases. -/

/-- R77. -/
def Obligations.FlushPhase : Prop :=
  ∀ s : State, s.st = .flush →
    (s.opc = 0x7#4 → fsmStep s = .next (complete true { s with rxq := [] })) ∧
    (s.opc ≠ 0x7#4 → fsmStep s = .next { s with rxq := [], st := .tx }) ∧
    (∀ (t : State) (b : Byte), fsmStep s = .next t → 0 < s.params.rxqDepth → (push b t).rxq = [b])

/-- R78, with the TXSNK step of R23 that lifts the hold. That an `fsm` event in the hold leaves the state as it is, is the
model's choice (log 4). -/
def Obligations.TxPhase : Prop :=
  ∀ s : State, s.st = .tx →
    (s.txv = true →
      fsmEnabled s = false ∧ fsmStep s = .next s ∧
        act .txTake s = .next { s with wire := s.wire ++ [s.txd], txv := false }) ∧
    (s.txv = false → s.idx < s.n → s.n ≤ 27 →
      fsmStep s = .next { s with txd := bufAt s s.idx, txv := true, idx := s.idx + 1 }) ∧
    (s.txv = false → s.idx = s.n →
      (s.opc = 0x6#4 → fsmStep s = .next (complete true s)) ∧
      (s.opc = 0xA#4 →
        fsmStep s =
          .next { s with idx := 0, n := 27, flen := 0, t0 := s.now, tmoCur := s.lTb, armed := true,
                         exp := decide (s.lTb = 0#32), st := .collect }) ∧
      (s.opc = 0xB#4 →
        fsmStep s =
          .next { s with idx := 0, n := 15, flen := 0, t0 := s.now, tmoCur := s.lTw, armed := true,
                         exp := decide (s.lTw = 0#32), st := .hunt }))

/-- R79, one step with EXP = 0: the header is looked for at the head of the FIFO; a mismatch drops one byte; fewer than
two bytes hold. First, which header the operation looks for (41_transactor.md section 2). That an `fsm` event in the hold
leaves the state as it is, is the model's choice (log 4). -/
def Obligations.HuntPhase : Prop :=
  (∀ s : State, s.opc = 0x9#4 → headerPattern s = some (s.lP0, s.lP1)) ∧
  (∀ s : State, s.opc = 0xB#4 → headerPattern s = some (0x43#8, s.lCmd)) ∧
  ∀ (s : State) (p0 p1 : Byte), s.st = .hunt → s.exp = false → headerPattern s = some (p0, p1) →
    (∀ r : List Byte, s.rxq = p0 :: p1 :: r →
      ∃ m, BufWritten s m 0 [p0, p1] ∧
        (s.n = 2 →
          fsmStep s =
            .next { s with buf := m, rxq := r, idx := 2, flen := 2, armed := false, exp := false, st := .finish }) ∧
        (s.n ≠ 2 → fsmStep s = .next { s with buf := m, rxq := r, idx := 2, flen := 2, st := .collect })) ∧
    (∀ (b0 b1 : Byte) (r : List Byte), s.rxq = b0 :: b1 :: r → ¬(b0 = p0 ∧ b1 = p1) →
      fsmStep s = .next { s with rxq := b1 :: r }) ∧
    (s.rxq.length < 2 → fsmEnabled s = false ∧ fsmStep s = .next s)

/-- R80, in the states of a run (`Inv`). That an `fsm` event in the hold leaves the state as it is, is the model's choice
(log 4). -/
def Obligations.CollectPhase : Prop :=
  ∀ s : State, Inv s → s.st = .collect →
    (s.exp = true → s.idx = 0 → fsmStep s = .next (fail .timeout s)) ∧
    (s.exp = true → s.idx ≠ 0 → fsmStep s = .next (fail .shortRead s)) ∧
    (s.exp = true → ∀ t, fsmStep s = .next t → t.buf = s.buf ∧ t.flen = s.idx) ∧
    (s.exp = false → ∀ (b : Byte) (r : List Byte), s.rxq = b :: r →
      ∃ m, BufWritten s m s.idx [b] ∧
        (s.idx + 1 = s.n →
          fsmStep s =
            .next { s with buf := m, rxq := r, idx := s.idx + 1, flen := s.idx + 1, armed := false, exp := false,
                           st := .finish }) ∧
        (s.idx + 1 ≠ s.n →
          fsmStep s = .next { s with buf := m, rxq := r, idx := s.idx + 1, flen := s.idx + 1 })) ∧
    (s.exp = false → s.rxq = [] → fsmEnabled s = false ∧ fsmStep s = .next s)

/-- R81; that all N bytes are in BUF holds in the states of a run (`Inv`). -/
def Obligations.FinishPhase : Prop :=
  ∀ s : State, s.st = .finish →
    let good := sum8 ((List.range 14).map (bufAt s)) = bufAt s 14
    ((s.opc = 0x8#4 ∨ s.opc = 0x9#4) → fsmStep s = .next (complete true s)) ∧
    (s.opc = 0xA#4 → good → fsmStep s = .next (complete true (decodeFields { s with rxq := [] }))) ∧
    (s.opc = 0xA#4 → ¬good → fsmStep s = .next (fail .checksum (decodeFields { s with rxq := [] }))) ∧
    (s.opc = 0xB#4 → good → bufAt s 13 = s.lValue → fsmStep s = .next (complete true s)) ∧
    (s.opc = 0xB#4 → ¬good → fsmStep s = .next (fail .checksum s)) ∧
    (s.opc = 0xB#4 → good → bufAt s 13 ≠ s.lValue → fsmStep s = .next (fail .echo s)) ∧
    (Inv s → s.idx = s.n ∧ s.flen = s.n)

/-- R82, in the states of a run (`Inv`): the four branches, and that a step completes or consumes budget. -/
def Obligations.ScanPhase : Prop :=
  ∀ s : State, Inv s → s.st = .pscan →
    (s.budget < 2 → fsmStep s = .next (complete true { s with cause := .noFrame })) ∧
    (∀ (b0 b1 : Byte) (r : List Byte), 2 ≤ s.budget → s.rxq = b0 :: b1 :: r →
      (¬(b0 = 0x43#8 ∧ b1 = 0xC0#8) → fsmStep s = .next { s with rxq := b1 :: r, budget := s.budget - 1 }) ∧
      (b0 = 0x43#8 → b1 = 0xC0#8 → s.budget < 27 →
        fsmStep s = .next (complete true { s with cause := .noFrame })) ∧
      (b0 = 0x43#8 → b1 = 0xC0#8 → 27 ≤ s.budget →
        ∃ m, BufWritten s m 0 (s.rxq.take 27) ∧
          (sum8 (s.rxq.take 14) = s.rxq.getD 14 0#8 →
            fsmStep s =
              .next (complete true
                { decodeFields { s with buf := m, rxq := s.rxq.drop 27, flen := 27 } with recd := true })) ∧
          (sum8 (s.rxq.take 14) ≠ s.rxq.getD 14 0#8 →
            fsmStep s =
              .next { s with buf := m, rxq := s.rxq.drop 27, flen := 27, budget := s.budget - 27 }))) ∧
    s.budget ≤ s.rxq.length ∧
    (∀ t, fsmStep s = .next t → t.st = .idle ∨ t.budget < s.budget)

/-- R72 and R7 say that a held or idle FSM has no enabled step; that an `fsm` event then leaves the state as it is, is the
model's choice (log 4). In the states of a run an enabled FSM step changes it. -/
def Obligations.HoldsChangeNothing : Prop :=
  (∀ s : State, fsmEnabled s = false → fsmStep s = .next s) ∧
  (∀ s t : State, Inv s → fsmEnabled s = true → fsmStep s = .next t → t ≠ s)

/-! Whole operations. -/

/-- R93: a hunt discards exactly the bytes before the first header and fills BUF from it. -/
def Obligations.HuntResynchronises : Prop :=
  ∀ (s : State) (p0 p1 : Byte) (g r : List Byte),
    s.st = .hunt → s.exp = false → s.idx = 0 → headerPattern s = some (p0, p1) → 2 ≤ s.n → s.n ≤ 27 →
    s.rxq = g ++ p0 :: p1 :: r →
    (∀ j, j < g.length → ¬(s.rxq.getD j 0#8 = p0 ∧ s.rxq.getD (j + 1) 0#8 = p1)) →
    s.n - 2 ≤ r.length →
      ∃ m, BufWritten s m 0 (p0 :: p1 :: r.take (s.n - 2)) ∧
        fsmSteps (g.length + 1 + (s.n - 2)) s =
          .next { s with buf := m, rxq := r.drop (s.n - 2), idx := s.n, flen := s.n, armed := false, exp := false,
                         st := .finish }

/-- R84, R34, R92, R121: a SEND of 1 to 27 bytes takes LEN + 1 FSM steps and LEN TXSNK steps, and BUF[0..LEN-1] is on the
wire in order, as it stood. -/
def Obligations.SendEmitsBuffer : Prop :=
  ∀ (s u : State) (x : BitVec 28), Inv s → s.busy = false → 1 ≤ s.len.toNat → s.len.toNat ≤ 27 →
    exec (.send x) s = .next u →
      ∃ t, runEvents (sendRounds s.len.toNat ++ [.fsm]) u = .next t ∧
        t.wire = s.wire ++ (List.range s.len.toNat).map (bufAt s) ∧
        t.busy = false ∧ t.done = true ∧ t.ok = true ∧ t.txv = false ∧ t.buf = s.buf ∧ t.rxq = s.rxq ∧
        t.flen = s.flen

/-- R88 and R121: GET_STATUS flushes, sends the STATUS frame, reads 27 bytes at fixed offset, drains what is left, and
answers the validity of what it read. -/
def Obligations.GetStatusTransaction : Prop :=
  ∀ (s a : State) (x : BitVec 28), Inv s → s.busy = false → s.tmoBlock ≠ 0#32 → exec (.getStatus x) s = .next a →
    ∃ b, runEvents ([.fsm] ++ sendRounds 15 ++ [.fsm]) a = .next b ∧
      b.wire = s.wire ++ sentFrame 0xC0#8 s.devid 0x00#8 ∧ b.rxq = [] ∧ b.st = .collect ∧
      (∀ reply extra : List Byte, reply.length = 27 → 27 + extra.length ≤ s.params.rxqDepth →
        ∃ t, runEvents ((reply ++ extra).map .rxByte ++ List.replicate 28 .fsm) b = .next t ∧
          t.busy = false ∧ t.done = true ∧ t.ok = decide (sum8 (reply.take 14) = reply.getD 14 0#8) ∧
          t.rValid = t.ok ∧ t.rxq = [] ∧ t.flen = 27 ∧ (List.range 27).map (bufAt t) = reply ∧
          t.rDevid = be32 (reply.getD 6 0#8) (reply.getD 7 0#8) (reply.getD 8 0#8) (reply.getD 9 0#8) ∧
          t.rState = reply.getD s.params.stateOfs.toNat 0#8)

/-- R89 and R121: SEND_VALIDATE sends its frame and takes the reply that starts with its header; OK says that checksum
and echo are both right. -/
def Obligations.SendValidateTransaction : Prop :=
  ∀ (s a : State) (x : BitVec 28), Inv s → s.busy = false → s.tmoWait ≠ 0#32 → (s.cmd = 0xC1#8 ∨ s.cmd = 0xC3#8) →
    s.rxq = [] → exec (.sendValidate x) s = .next a →
    ∃ b, runEvents (sendRounds 15 ++ [.fsm]) a = .next b ∧
      b.wire = s.wire ++ sentFrame s.cmd s.devid s.value ∧ b.st = .hunt ∧
      (∀ reply : List Byte, reply.length = 15 → reply.getD 0 0#8 = 0x43#8 → reply.getD 1 0#8 = s.cmd →
        ∃ t, runEvents (reply.map .rxByte ++ List.replicate 15 .fsm) b = .next t ∧
          t.busy = false ∧ t.done = true ∧
          t.ok = (decide (sum8 (reply.take 14) = reply.getD 14 0#8) && decide (reply.getD 13 0#8 = s.value)) ∧
          t.rxq = [] ∧ t.flen = 15 ∧ (List.range 15).map (bufAt t) = reply ∧
          t.rDevid = s.rDevid ∧ t.rPower = s.rPower ∧ t.rValid = s.rValid)

/-- R90 and R92: DRAIN_ONE completes with OK = 1 after at most max(1, BUDGET) FSM steps, consumes nothing beyond its
budget, and changes the result registers only with REC = 1. -/
def Obligations.DrainOneBounded : Prop :=
  ∀ s : State, Inv s → s.st = .pscan →
    ∃ k t, 1 ≤ k ∧ k ≤ max 1 s.budget ∧ fsmSteps k s = .next t ∧ t.busy = false ∧ t.done = true ∧ t.ok = true ∧
      (∃ j, j ≤ s.budget ∧ t.rxq = s.rxq.drop j) ∧
      (t.recd = false →
        t.rDevid = s.rDevid ∧ t.rPower = s.rPower ∧ t.rDcv = s.rDcv ∧ t.rDci = s.rDci ∧ t.rAcv = s.rAcv ∧
          t.rAci = s.rAci ∧ t.rState = s.rState ∧ t.rTemp = s.rTemp ∧ t.rValid = s.rValid) ∧
      (t.recd = true → t.rValid = true)

/-- R90, R91 and R82: the first good StatusReply in the budget is delivered, once, and its bytes have left the FIFO; the
bytes before it are stray bytes and frames dropped for their checksum (`ScanSkips`). -/
def Obligations.DrainDeliversGoodFrame : Prop :=
  ∀ (s : State) (k : Nat) (g frame r : List Byte), Inv s → s.st = .pscan →
    s.rxq = g ++ frame ++ r → ScanSkips (frame ++ r) k g →
    frame.length = 27 → frame.getD 0 0#8 = 0x43#8 → frame.getD 1 0#8 = 0xC0#8 →
    sum8 (frame.take 14) = frame.getD 14 0#8 → g.length + 27 ≤ s.budget →
      ∃ t, fsmSteps (k + 1) s = .next t ∧ t.recd = true ∧ t.done = true ∧ t.ok = true ∧ t.busy = false ∧
        t.rxq = r ∧ t.flen = 27 ∧ (List.range 27).map (bufAt t) = frame ∧ t.rValid = true ∧
        t.rDevid = be32 (frame.getD 6 0#8) (frame.getD 7 0#8) (frame.getD 8 0#8) (frame.getD 9 0#8) ∧
        t.rPower = be32 (frame.getD 10 0#8) (frame.getD 11 0#8) (frame.getD 12 0#8) (frame.getD 13 0#8) ∧
        t.rDcv = be16 (frame.getD 15 0#8) (frame.getD 16 0#8) ∧
        t.rDci = be16 (frame.getD 17 0#8) (frame.getD 18 0#8) ∧
        t.rAcv = be16 (frame.getD 19 0#8) (frame.getD 20 0#8) ∧
        t.rAci = be16 (frame.getD 21 0#8) (frame.getD 22 0#8) ∧
        t.rState = frame.getD s.params.stateOfs.toNat 0#8 ∧ t.rTemp = frame.getD (s.params.stateOfs.toNat + 1) 0#8

/-- R92: under the three assumptions of R76 a running operation ends. -/
def Obligations.EveryOperationEnds : Prop :=
  ∀ (c : Schedule) (s : State), Inv s → Progress c s → s.busy = true → ∃ k, (scheduleState c s k).busy = false

/-! What an operation cannot see, and what the host cannot see. -/

/-- R26 and R44: the FSM steps of an operation never see the operand registers. -/
def Obligations.OperandsAreCaptured : Prop :=
  ∀ (s : State) (cmd : Byte) (devid : Word) (value len expect : Byte) (pattern : Half) (tb tw : Word),
    fsmStep (withOperands cmd devid value len expect pattern tb tw s) =
      mapNext (withOperands cmd devid value len expect pattern tb tw) (fsmStep s) ∧
    fsmEnabled (withOperands cmd devid value len expect pattern tb tw s) = fsmEnabled s

/-- R27: no register shows CAUSE, and no agent's step depends on it. -/
def Obligations.CauseIsNotVisible : Prop :=
  ∀ (s : State) (c : Cause),
    (∀ r : PortReg, readReg r (setCause c s) = readReg r s) ∧
    (∀ e : Event, mapNext (setCause .none) (act e (setCause c s)) = mapNext (setCause .none) (act e s)) ∧
    mapNext (setCause .none) (step (setCause c s)) = mapNext (setCause .none) (step s)

/-- R41: while the block is idle, no step of an agent but the host and RESET changes BUF, FLEN, CSUM, the result
registers or OK. -/
def Obligations.IdleResultsStay : Prop :=
  ∀ (e : Event) (s t : State), s.st = .idle → act e s = .next t → e ≠ .rst → (∀ a, e ≠ .host a) →
    t.buf = s.buf ∧ t.flen = s.flen ∧ t.csum = s.csum ∧ t.ok = s.ok ∧ t.done = s.done ∧ t.rDevid = s.rDevid ∧
      t.rPower = s.rPower ∧ t.rDcv = s.rDcv ∧ t.rDci = s.rDci ∧ t.rAcv = s.rAcv ∧ t.rAci = s.rAci ∧
      t.rState = s.rState ∧ t.rTemp = s.rTemp ∧ t.rValid = s.rValid

/-! The register port. -/

/-- R14 and R30 to R32: where each register stands; a read of width 4 at a mapped offset answers the register that stands
there, and a write of width 4 is that register's write or, at OP, the operation; every other access answers an error and
changes nothing. That an erring access is a next state, and what the bus carries on a write (data 0), are the model's
choice: log 5 and log 6. -/
def Obligations.BadAccessChangesNothing : Prop :=
  (portOffset .op = 0x00#8 ∧ portOffset .stat = 0x04#8 ∧ portOffset .cmd = 0x08#8 ∧ portOffset .devid = 0x0C#8 ∧
    portOffset .value = 0x10#8 ∧ portOffset .len = 0x14#8 ∧ portOffset .expect = 0x18#8 ∧
    portOffset .pattern = 0x1C#8 ∧ portOffset .tmoBlock = 0x20#8 ∧ portOffset .tmoWait = 0x24#8 ∧
    portOffset .csum = 0x28#8 ∧ portOffset .flen = 0x2C#8 ∧ portOffset .rxcount = 0x30#8 ∧ portOffset .now = 0x34#8 ∧
    portOffset .magic = 0x38#8 ∧ portOffset .rDevid = 0x40#8 ∧ portOffset .rPower = 0x44#8 ∧
    portOffset .rDc = 0x48#8 ∧ portOffset .rAc = 0x4C#8 ∧ portOffset .rMisc = 0x50#8 ∧
    ∀ i : Fin 27, (portOffset (.buf i)).toNat = 0x80 + 4 * i.val) ∧
  ∀ (a : BitVec 8) (width : Nat) (v : Word) (s : State),
    (width = 4 ∧ Mapped a →
      ∃ r : PortReg, portOffset r = a ∧
        hostRead a width s = { s with bus := some { data := readReg r s, error := false } } ∧
        (r = .op → hostWrite a width v s = exec (decodeOp v) (answered s)) ∧
        (r ≠ .op → hostWrite a width v s = .next (writeReg r v (answered s)))) ∧
    (¬(width = 4 ∧ Mapped a) →
      hostRead a width s = { s with bus := some { data := 0#32, error := true } } ∧
      hostWrite a width v s = .next { s with bus := some { data := 0#32, error := true } })

/-- R14, R17, R19, R20, R25: the bits of STAT, and what the other read-only registers show. -/
def Obligations.RegistersShowState : Prop :=
  ∀ s : State,
    (readReg .stat s).getLsbD 0 = s.busy ∧ (readReg .stat s).getLsbD 1 = s.done ∧
    (readReg .stat s).getLsbD 2 = s.ok ∧ (readReg .stat s).getLsbD 3 = s.recd ∧
    (readReg .stat s).getLsbD 4 = s.rxOvf ∧ (readReg .stat s).getLsbD 5 = s.rej ∧
    (readReg .stat s).extractLsb' 6 2 = 0#2 ∧ (readReg .stat s).extractLsb' 12 20 = 0#20 ∧
    ((readReg .stat s).extractLsb' 8 4 = match s.st with
      | .idle => 0#4 | .flush => 1#4 | .tx => 2#4 | .hunt => 3#4 | .collect => 4#4 | .finish => 5#4 | .pscan => 6#4) ∧
    (readReg .op s).toNat = s.opReg.toNat ∧
    (readReg .csum s).toNat = s.csum.toNat ∧
    (s.flen ≤ 27 → (readReg .flen s).toNat = s.flen) ∧
    (s.rxq.length ≤ 65535 → (readReg .rxcount s).toNat = s.rxq.length) ∧
    readReg .now s = s.now ∧ readReg .magic s = 0x00000043#32 ∧
    readReg .rDevid s = s.rDevid ∧ readReg .rPower s = s.rPower ∧
    (readReg .rDc s).extractLsb' 0 16 = s.rDcv ∧ (readReg .rDc s).extractLsb' 16 16 = s.rDci ∧
    (readReg .rAc s).extractLsb' 0 16 = s.rAcv ∧ (readReg .rAc s).extractLsb' 16 16 = s.rAci ∧
    (readReg .rMisc s).extractLsb' 0 8 = s.rState ∧ (readReg .rMisc s).extractLsb' 8 8 = s.rTemp ∧
    (readReg .rMisc s).getLsbD 16 = s.rValid ∧ (readReg .rMisc s).extractLsb' 17 15 = 0#15

/-- R15, R18, R21: an operand register keeps only its field's bits and reads back with zeros above; a BUF byte too, while
idle; nothing else changes. First, that a host write of width 4 at a register's offset does this; the bus answer is the
model's choice (log 6). -/
def Obligations.WritesKeepFieldBits : Prop :=
  ∀ (s : State) (v : Word),
    (∀ r : PortReg, r ≠ .op → hostWrite (portOffset r) 4 v s = .next (writeReg r v (answered s))) ∧
    (writeReg .cmd v s = { s with cmd := v.setWidth 8 } ∧ readReg .cmd (writeReg .cmd v s) = v &&& 0x000000FF#32) ∧
    (writeReg .devid v s = { s with devid := v } ∧ readReg .devid (writeReg .devid v s) = v) ∧
    (writeReg .value v s = { s with value := v.setWidth 8 } ∧
      readReg .value (writeReg .value v s) = v &&& 0x000000FF#32) ∧
    (writeReg .len v s = { s with len := v.setWidth 8 } ∧ readReg .len (writeReg .len v s) = v &&& 0x000000FF#32) ∧
    (writeReg .expect v s = { s with expect := v.setWidth 8 } ∧
      readReg .expect (writeReg .expect v s) = v &&& 0x000000FF#32) ∧
    (writeReg .pattern v s = { s with pattern := v.setWidth 16 } ∧
      readReg .pattern (writeReg .pattern v s) = v &&& 0x0000FFFF#32) ∧
    (writeReg .tmoBlock v s = { s with tmoBlock := v } ∧ readReg .tmoBlock (writeReg .tmoBlock v s) = v) ∧
    (writeReg .tmoWait v s = { s with tmoWait := v } ∧ readReg .tmoWait (writeReg .tmoWait v s) = v) ∧
    (writeReg .stat v s = { s with rxOvf := s.rxOvf && !v.getLsbD 4, rej := s.rej && !v.getLsbD 5 }) ∧
    (s.busy = false → ∀ i : Fin 27,
      (∃ m, BufWritten s m i.val [v.setWidth 8] ∧ writeReg (.buf i) v s = { s with buf := m }) ∧
      readReg (.buf i) (writeReg (.buf i) v s) = v &&& 0x000000FF#32)

/-- R110 and R29: reset gives every piece of state of the block its reset value, and the bytes already on the wire stay.
That the parameters, the script with its counter, and the bus answer stay too is the model's choice: log 3, log 4 and
log 6. -/
def Obligations.ResetRestoresBlock : Prop :=
  ∀ s : State, ∃ t, act .rst s = .next t ∧
    t.opReg = 0#4 ∧ t.busy = false ∧ t.done = false ∧ t.ok = false ∧ t.recd = false ∧ t.rxOvf = false ∧
    t.rej = false ∧ t.st = .idle ∧ t.cmd = 0x00#8 ∧ t.devid = 0#32 ∧ t.value = 0#8 ∧ t.len = 0#8 ∧ t.expect = 0#8 ∧
    t.pattern = 0xC043#16 ∧ t.tmoBlock = 100#32 ∧ t.tmoWait = 1000#32 ∧ t.csum = 0#8 ∧ t.flen = 0 ∧ t.now = 0#32 ∧
    t.rDevid = 0#32 ∧ t.rPower = 0#32 ∧ t.rDcv = 0#16 ∧ t.rDci = 0#16 ∧ t.rAcv = 0#16 ∧ t.rAci = 0#16 ∧
    t.rState = 0#8 ∧ t.rTemp = 0#8 ∧ t.rValid = false ∧ (∀ i, Memory.read t.buf i = 0x00#8) ∧ t.rxq = [] ∧
    t.txd = 0#8 ∧ t.txv = false ∧ t.t0 = 0#32 ∧ t.tmoCur = 0#32 ∧ t.armed = false ∧ t.exp = false ∧ t.opc = 0#4 ∧
    t.idx = 0 ∧ t.n = 0 ∧ t.budget = 0 ∧ t.lCmd = 0#8 ∧ t.lDevid = 0#32 ∧ t.lValue = 0#8 ∧ t.lLen = 0#8 ∧
    t.lExpect = 0#8 ∧ t.lP0 = 0#8 ∧ t.lP1 = 0#8 ∧ t.lTb = 0#32 ∧ t.lTw = 0#32 ∧ t.cause = .none ∧
    readReg .magic t = 0x00000043#32 ∧
    t.params = s.params ∧ t.script = s.script ∧ t.turn = s.turn ∧ t.wire = s.wire ∧ t.bus = s.bus

/-! Bytes on the wire. -/

/-- R22 and R98: received bytes queue in order as long as there is room; the rest are dropped and set RX_OVF; nothing else
changes. -/
def Obligations.ReceivedBytesQueueInOrder : Prop :=
  ∀ (s : State) (bytes : List Byte),
    runEvents (bytes.map .rxByte) s =
      .next { s with rxq := s.rxq ++ bytes.take (room s), rxOvf := s.rxOvf || decide (room s < bytes.length) }

/-- The three reply rows: the frame's bytes, laid out as R52 and R53 list them, are received one by one. That a row means
this is the model's choice: log 1. -/
def Obligations.ReplyFramesAreReceived : Prop :=
  (∀ (s : State) (f : StatusReply),
    let bytes := [0x43#8, 0xC0#8] ++ wireBytes32 f.reserved ++ wireBytes32 f.deviceId ++ wireBytes32 f.power ++
      [f.checksum] ++ wireBytes16 f.dcv ++ wireBytes16 f.dci ++ wireBytes16 f.acv ++ wireBytes16 f.aci ++
      wireBytes32 f.tail
    bytes.length = 27 ∧
    exec (.frameStatusReply f) s =
      .next { s with rxq := s.rxq ++ bytes.take (room s), rxOvf := s.rxOvf || decide (room s < 27) }) ∧
  (∀ (s : State) (f : AckReply),
    let rest := wireBytes32 f.reserved ++ wireBytes32 f.deviceId ++ wireBytes24 f.unnamed ++ [f.echo, f.checksum]
    exec (.frameAckControl f) s =
      .next { s with rxq := s.rxq ++ (0x43#8 :: 0xC1#8 :: rest).take (room s),
                     rxOvf := s.rxOvf || decide (room s < 15) } ∧
    exec (.frameAckPowerGrade f) s =
      .next { s with rxq := s.rxq ++ (0x43#8 :: 0xC3#8 :: rest).take (room s),
                     rxOvf := s.rxOvf || decide (room s < 15) })

/-- The three command rows: where the block has just loaded the frame, its 15 bytes go out as the TX phase and the sink
send them; elsewhere the row names a step no agent has, and nothing changes. That a row means this is the model's
choice: log 2. -/
def Obligations.CommandFramesAreSent : Prop :=
  ∀ (s : State) (f : CommandFrame),
    (¬Offers (commandBytes 0xC0#8 f) s → exec (.frameCmdStatus f) s = .next s) ∧
    (¬Offers (commandBytes 0xC1#8 f) s → exec (.frameCmdControl f) s = .next s) ∧
    (¬Offers (commandBytes 0xC3#8 f) s → exec (.frameCmdPowerGrade f) s = .next s) ∧
    (f.wellFormed 0xC0#8 = true → Offers (sentFrame 0xC0#8 f.deviceId f.value) s →
      exec (.frameCmdStatus f) s =
        .next { s with wire := s.wire ++ sentFrame 0xC0#8 f.deviceId f.value, idx := 15, txd := f.checksum } ∧
      exec (.frameCmdStatus f) s = runEvents (sendRounds 15) s) ∧
    (f.wellFormed 0xC1#8 = true → Offers (sentFrame 0xC1#8 f.deviceId f.value) s →
      exec (.frameCmdControl f) s =
        .next { s with wire := s.wire ++ sentFrame 0xC1#8 f.deviceId f.value, idx := 15, txd := f.checksum } ∧
      exec (.frameCmdControl f) s = runEvents (sendRounds 15) s) ∧
    (f.wellFormed 0xC3#8 = true → Offers (sentFrame 0xC3#8 f.deviceId f.value) s →
      exec (.frameCmdPowerGrade f) s =
        .next { s with wire := s.wire ++ sentFrame 0xC3#8 f.deviceId f.value, idx := 15, txd := f.checksum } ∧
      exec (.frameCmdPowerGrade f) s = runEvents (sendRounds 15) s)

/-! The frame buffer's data and the invariant of every run. -/

/-- R21: a byte reads back what was last written, every other byte as before, in one canonical form, so that two buffers
with the same bytes are the same data. -/
def Obligations.BufferIsCanonical : Prop :=
  (∀ (m : Memory) (a : Nat) (v : Byte), Memory.wf m = true → a < 27 →
    Memory.wf (Memory.write m a v) = true ∧
      ∀ b, Memory.read (Memory.write m a v) b = if b = a then v else Memory.read m b) ∧
  (∀ m m' : Memory, Memory.wf m = true → Memory.wf m' = true → (∀ a, Memory.read m a = Memory.read m' a) → m = m')

/-- `Inv` holds after reset, for every legal choice of the parameters. -/
def Obligations.InvAtReset : Prop :=
  Inv State.reset ∧ ∀ p : Params, p.legal = true → Inv (State.resetWith p)

/-- Every step, of every agent, keeps `Inv`. -/
def Obligations.InvKeptByStep : Prop :=
  ∀ s t : State, Inv s → step s = .next t → Inv t

/-- In the states of a run every step has a next state: the block raises no trap (R94), and the model's own faults stand
outside every run (log 9, log 10, log 11). -/
def Obligations.StepAlwaysAnswersNext : Prop :=
  ∀ s : State, Inv s → ∃ t, step s = .next t

/-! The physical reading. -/

/-- R67 and R68: what the record is read from, and that the power keeps its bits. -/
def Obligations.RecordReadsRegisters : Prop :=
  ∀ s : State,
    (inverterStatus s).deviceID = s.rDevid ∧ (inverterStatus s).state = s.rState ∧
    (inverterStatus s).temperature = s.rTemp ∧ (inverterStatus s).totalGeneratedPower = s.rPower ∧
    (inverterStatus s).dcVoltage = scale s.rDcv ∧ (inverterStatus s).dcCurrent = scale s.rDci ∧
    (inverterStatus s).acVoltage = scale s.rAcv ∧ (inverterStatus s).acCurrent = scale s.rAci ∧
    (inverterStatus s).dcPower = f32mul (scale s.rDcv) (scale s.rDci) ∧
    (inverterStatus s).acPower = f32mul (scale s.rAcv) (scale s.rAci) ∧
    (inverterStatus s).valid = s.rValid

/-- R69 with R8: `scale(v)` is the binary32 value nearest v / 100, ties to even; zero stays zero. The
layout and the rounding are PRESUMED: log 17. -/
def Obligations.ScaleIsNearest : Prop :=
  (∀ v : Half, NearestEven (scale v) (v.toNat / 100)) ∧ scale 0#16 = 0#32 ∧ scale 0xFFFF#16 = 0x4423D666#32

/-- R70 with R8: `f32mul` of finite values is the binary32 value nearest the exact product, ties to even, with the sign
of the product; a product of (2 - 2^-24) * 2^127 or more in magnitude is an infinity. The layout and the rounding are
PRESUMED: log 17. -/
def Obligations.ProductIsNearest : Prop :=
  ∀ a b : F32, F32Finite a → F32Finite b →
    let p := f32Value a * f32Value b
    f32Sign (f32mul a b) = (f32Sign a != f32Sign b) ∧
    (|p| < (2 ^ 25 - 1) * 2 ^ 103 → NearestEven (f32mul a b) p) ∧
    ((2 ^ 25 - 1) * 2 ^ 103 ≤ |p| → f32IsInf (f32mul a b) = true)
end

