-- ==== Sys2Proof/Laws/Memory.lean ====
section
/-! SUPPORT. The frame buffer: a read after a write, and the canonical form that every operation keeps. -/

namespace Sys2Proof.Machine

open Sys2Proof.Config

@[simp] theorem Memory.read_nil (a : Nat) : Memory.read [] a = 0#8 := rfl

theorem Memory.read_erase (m : Memory) (a b : Nat) :
    Memory.read (Memory.erase m a) b = if b = a then 0#8 else Memory.read m b := by
  induction m with
  | nil => simp [Memory.erase, Memory.read]
  | cons c cs ih =>
    unfold Memory.erase at ih ⊢
    by_cases hc : c.1 = a
    · by_cases hb : b = a
      · simp_all
      · simp_all [Memory.read, show a ≠ b from fun h => hb h.symm]
    · by_cases hb : b = a
      · simp_all [Memory.read]
      · by_cases hcb : c.1 = b <;> simp_all [Memory.read]

theorem Memory.read_insert (m : Memory) (c : Host.Cell) (b : Nat) (h : Memory.read m c.1 = 0#8 ∨ c.1 ≠ b)
    (hm : ∀ x ∈ m, x.1 ≠ c.1) :
    Memory.read (Memory.insert m c) b = if b = c.1 then c.2 else Memory.read m b := by
  induction m with
  | nil => simp only [Memory.insert, Memory.read, eq_comm]
  | cons x xs ih =>
    have hx : x.1 ≠ c.1 := hm x (List.mem_cons_self ..)
    have ih' := ih (by rcases h with h | h
                       · left; simpa [Memory.read, hx] using h
                       · exact .inr h) (fun y hy => hm y (List.mem_cons_of_mem _ hy))
    unfold Memory.insert
    split
    · by_cases hb : b = c.1
      · simp [Memory.read, hb]
      · simp [Memory.read, hb, show c.1 ≠ b from fun h => hb h.symm]
    · by_cases hb : b = c.1
      · subst hb; simpa [Memory.read, hx] using ih'
      · by_cases hxb : x.1 = b <;> simp_all [Memory.read]

/-- A read after a write: the written byte at its index, every other index as before. -/
theorem Memory.read_write (m : Memory) (a : Nat) (v : Byte) (b : Nat) :
    Memory.read (Memory.write m a v) b = if b = a then v else Memory.read m b := by
  unfold Memory.write
  split
  · next h => rw [Memory.read_erase, h]
  · have hm : ∀ x ∈ Memory.erase m a, x.1 ≠ a := by
      intro x hx
      simpa [Memory.erase] using (List.mem_filter.mp hx).2
    rw [Memory.read_insert _ _ _ (.inl (by rw [Memory.read_erase]; simp)) hm]
    by_cases hb : b = a
    · simp [hb]
    · simp [hb, Memory.read_erase]

@[simp] theorem Memory.read_write_same (m : Memory) (a : Nat) (v : Byte) :
    Memory.read (Memory.write m a v) a = v := by simp [Memory.read_write]

theorem Memory.read_write_ne (m : Memory) {a b : Nat} (v : Byte) (h : b ≠ a) :
    Memory.read (Memory.write m a v) b = Memory.read m b := by simp [Memory.read_write, h]

/-- Bytes written at consecutive indexes: each reads back, every other index reads as before. -/
theorem Memory.read_writeBytes (m : Memory) (base : Nat) (bs : List Byte) (b : Nat) :
    Memory.read (Memory.writeBytes m base bs) b =
      if base ≤ b ∧ b < base + bs.length then bs.getD (b - base) 0#8 else Memory.read m b := by
  induction bs generalizing m base with
  | nil => simp only [Memory.writeBytes, List.length_nil, Nat.add_zero]; rw [if_neg (by omega)]
  | cons x xs ih =>
    simp only [Memory.writeBytes, ih, List.length_cons]
    by_cases h1 : base + 1 ≤ b ∧ b < base + 1 + xs.length
    · rw [if_pos h1, if_pos (by omega)]
      obtain ⟨k, rfl⟩ : ∃ k, b = base + 1 + k := ⟨b - (base + 1), by omega⟩
      rw [show base + 1 + k - (base + 1) = k by omega, show base + 1 + k - base = k + 1 by omega]
      simp
    · rw [if_neg h1, Memory.read_write]
      by_cases hb : b = base
      · subst hb; simp
      · rw [if_neg hb, if_neg (by omega)]

/-! The canonical form. -/

theorem Memory.wfFrom_weaken {lo lo' : Nat} (m : Memory) (h : lo' ≤ lo) (hm : Memory.wfFrom lo m = true) :
    Memory.wfFrom lo' m = true := by
  cases m with
  | nil => rfl
  | cons c cs => simp only [Memory.wfFrom, Bool.and_eq_true, decide_eq_true_eq] at hm ⊢; exact ⟨⟨⟨by omega, hm.1.1.2⟩, hm.1.2⟩, hm.2⟩

theorem Memory.wfFrom_erase (lo : Nat) (m : Memory) (a : Nat) (hm : Memory.wfFrom lo m = true) :
    Memory.wfFrom lo (Memory.erase m a) = true := by
  induction m generalizing lo with
  | nil => rfl
  | cons c cs ih =>
    simp only [Memory.wfFrom, Bool.and_eq_true, decide_eq_true_eq] at hm
    have ih' := ih (c.1 + 1) hm.2
    unfold Memory.erase at ih' ⊢
    by_cases hc : c.1 = a
    · simp only [List.filter_cons, hc, bne_self_eq_false]
      exact Memory.wfFrom_weaken _ (by omega) (hc ▸ ih')
    · simp only [List.filter_cons, bne_iff_ne, ne_eq, hc, not_false_eq_true, if_true, Memory.wfFrom, Bool.and_eq_true,
        decide_eq_true_eq]
      exact ⟨⟨hm.1.1, by simpa using hm.1.2⟩, ih'⟩

theorem Memory.wfFrom_insert (lo : Nat) (m : Memory) (c : Host.Cell) (hm : Memory.wfFrom lo m = true) (hlo : lo ≤ c.1)
    (hlt : c.1 < bufLen) (hv : c.2 ≠ 0#8) (hne : ∀ x ∈ m, x.1 ≠ c.1) :
    Memory.wfFrom lo (Memory.insert m c) = true := by
  induction m generalizing lo with
  | nil => simp [Memory.insert, Memory.wfFrom, hlo, hlt, hv]
  | cons x xs ih =>
    simp only [Memory.wfFrom, Bool.and_eq_true, decide_eq_true_eq] at hm
    have hx : x.1 ≠ c.1 := hne x (List.mem_cons_self ..)
    unfold Memory.insert
    split
    · next h =>
      simp only [Memory.wfFrom, Bool.and_eq_true, decide_eq_true_eq, bne_iff_ne]
      exact ⟨⟨⟨hlo, hlt⟩, hv⟩, ⟨⟨by omega, hm.1.1.2⟩, by simpa using hm.1.2⟩, hm.2⟩
    · next h =>
      simp only [Memory.wfFrom, Bool.and_eq_true, decide_eq_true_eq]
      exact ⟨hm.1, ih (x.1 + 1) hm.2 (by omega) (fun y hy => hne y (List.mem_cons_of_mem _ hy))⟩

/-- A write below 27 keeps the canonical form. -/
theorem Memory.wf_write (m : Memory) (a : Nat) (v : Byte) (hm : Memory.wf m = true) (ha : a < bufLen) :
    Memory.wf (Memory.write m a v) = true := by
  unfold Memory.write Memory.wf
  split
  · exact Memory.wfFrom_erase _ _ _ hm
  · next hv =>
    refine Memory.wfFrom_insert 0 _ (a, v) (Memory.wfFrom_erase _ _ _ hm) (Nat.zero_le _) ha hv ?_
    intro x hx
    simpa [Memory.erase] using (List.mem_filter.mp hx).2

/-- Bytes written below 27 keep the canonical form. -/
theorem Memory.wf_writeBytes (m : Memory) (base : Nat) (bs : List Byte) (hm : Memory.wf m = true)
    (h : base + bs.length ≤ bufLen) : Memory.wf (Memory.writeBytes m base bs) = true := by
  induction bs generalizing m base with
  | nil => exact hm
  | cons x xs ih =>
    simp only [List.length_cons] at h
    exact ih _ _ (Memory.wf_write m base x hm (by omega)) (by omega)

/-- The reset buffer has the canonical form. -/
theorem Memory.wf_reset (p : Params) : Memory.wf (State.resetWith p).buf = true := rfl

theorem Memory.read_below (lo a : Nat) (m : Memory) (hm : Memory.wfFrom lo m = true) (h : a < lo) :
    Memory.read m a = 0#8 := by
  induction m generalizing lo with
  | nil => rfl
  | cons c cs ih =>
    simp only [Memory.wfFrom, Bool.and_eq_true, decide_eq_true_eq] at hm
    rw [Memory.read, if_neg (by omega)]
    exact ih (c.1 + 1) hm.2 (by omega)

/-- Nothing stands at or past index 27. -/
theorem Memory.read_above (lo a : Nat) (m : Memory) (hm : Memory.wfFrom lo m = true) (h : bufLen ≤ a) :
    Memory.read m a = 0#8 := by
  induction m generalizing lo with
  | nil => rfl
  | cons c cs ih =>
    simp only [Memory.wfFrom, Bool.and_eq_true, decide_eq_true_eq] at hm
    rw [Memory.read, if_neg (by omega)]
    exact ih (c.1 + 1) hm.2

end Sys2Proof.Machine
end

