-- ==== Sys2Proof/Laws/State.lean ====
section
/-! SUPPORT. One lemma per field per update, so that no later proof unfolds a record update. -/

namespace Sys2Proof.Machine

open Sys2Proof.Config

variable (s : State)

/-! `reject` (R97). -/

@[simp] theorem reject_opReg : (reject s).opReg = s.opReg := rfl
@[simp] theorem reject_busy : (reject s).busy = s.busy := rfl
@[simp] theorem reject_done : (reject s).done = s.done := rfl
@[simp] theorem reject_ok : (reject s).ok = s.ok := rfl
@[simp] theorem reject_recd : (reject s).recd = s.recd := rfl
@[simp] theorem reject_rxOvf : (reject s).rxOvf = s.rxOvf := rfl
@[simp] theorem reject_rej : (reject s).rej = true := rfl
@[simp] theorem reject_st : (reject s).st = s.st := rfl
@[simp] theorem reject_cmd : (reject s).cmd = s.cmd := rfl
@[simp] theorem reject_devid : (reject s).devid = s.devid := rfl
@[simp] theorem reject_value : (reject s).value = s.value := rfl
@[simp] theorem reject_len : (reject s).len = s.len := rfl
@[simp] theorem reject_expect : (reject s).expect = s.expect := rfl
@[simp] theorem reject_pattern : (reject s).pattern = s.pattern := rfl
@[simp] theorem reject_tmoBlock : (reject s).tmoBlock = s.tmoBlock := rfl
@[simp] theorem reject_tmoWait : (reject s).tmoWait = s.tmoWait := rfl
@[simp] theorem reject_csum : (reject s).csum = s.csum := rfl
@[simp] theorem reject_flen : (reject s).flen = s.flen := rfl
@[simp] theorem reject_now : (reject s).now = s.now := rfl
@[simp] theorem reject_rDevid : (reject s).rDevid = s.rDevid := rfl
@[simp] theorem reject_rPower : (reject s).rPower = s.rPower := rfl
@[simp] theorem reject_rDcv : (reject s).rDcv = s.rDcv := rfl
@[simp] theorem reject_rDci : (reject s).rDci = s.rDci := rfl
@[simp] theorem reject_rAcv : (reject s).rAcv = s.rAcv := rfl
@[simp] theorem reject_rAci : (reject s).rAci = s.rAci := rfl
@[simp] theorem reject_rState : (reject s).rState = s.rState := rfl
@[simp] theorem reject_rTemp : (reject s).rTemp = s.rTemp := rfl
@[simp] theorem reject_rValid : (reject s).rValid = s.rValid := rfl
@[simp] theorem reject_buf : (reject s).buf = s.buf := rfl
@[simp] theorem reject_rxq : (reject s).rxq = s.rxq := rfl
@[simp] theorem reject_txd : (reject s).txd = s.txd := rfl
@[simp] theorem reject_txv : (reject s).txv = s.txv := rfl
@[simp] theorem reject_t0 : (reject s).t0 = s.t0 := rfl
@[simp] theorem reject_tmoCur : (reject s).tmoCur = s.tmoCur := rfl
@[simp] theorem reject_armed : (reject s).armed = s.armed := rfl
@[simp] theorem reject_exp : (reject s).exp = s.exp := rfl
@[simp] theorem reject_opc : (reject s).opc = s.opc := rfl
@[simp] theorem reject_idx : (reject s).idx = s.idx := rfl
@[simp] theorem reject_n : (reject s).n = s.n := rfl
@[simp] theorem reject_budget : (reject s).budget = s.budget := rfl
@[simp] theorem reject_lCmd : (reject s).lCmd = s.lCmd := rfl
@[simp] theorem reject_lDevid : (reject s).lDevid = s.lDevid := rfl
@[simp] theorem reject_lValue : (reject s).lValue = s.lValue := rfl
@[simp] theorem reject_lLen : (reject s).lLen = s.lLen := rfl
@[simp] theorem reject_lExpect : (reject s).lExpect = s.lExpect := rfl
@[simp] theorem reject_lP0 : (reject s).lP0 = s.lP0 := rfl
@[simp] theorem reject_lP1 : (reject s).lP1 = s.lP1 := rfl
@[simp] theorem reject_lTb : (reject s).lTb = s.lTb := rfl
@[simp] theorem reject_lTw : (reject s).lTw = s.lTw := rfl
@[simp] theorem reject_cause : (reject s).cause = s.cause := rfl
@[simp] theorem reject_params : (reject s).params = s.params := rfl
@[simp] theorem reject_script : (reject s).script = s.script := rfl
@[simp] theorem reject_turn : (reject s).turn = s.turn := rfl
@[simp] theorem reject_wire : (reject s).wire = s.wire := rfl
@[simp] theorem reject_bus : (reject s).bus = s.bus := rfl

/-! `complete` (R73). -/

@[simp] theorem complete_opReg (r : Bool) : (complete r s).opReg = s.opReg := rfl
@[simp] theorem complete_busy (r : Bool) : (complete r s).busy = false := rfl
@[simp] theorem complete_done (r : Bool) : (complete r s).done = true := rfl
@[simp] theorem complete_ok (r : Bool) : (complete r s).ok = r := rfl
@[simp] theorem complete_recd (r : Bool) : (complete r s).recd = s.recd := rfl
@[simp] theorem complete_rxOvf (r : Bool) : (complete r s).rxOvf = s.rxOvf := rfl
@[simp] theorem complete_rej (r : Bool) : (complete r s).rej = s.rej := rfl
@[simp] theorem complete_st (r : Bool) : (complete r s).st = .idle := rfl
@[simp] theorem complete_cmd (r : Bool) : (complete r s).cmd = s.cmd := rfl
@[simp] theorem complete_devid (r : Bool) : (complete r s).devid = s.devid := rfl
@[simp] theorem complete_value (r : Bool) : (complete r s).value = s.value := rfl
@[simp] theorem complete_len (r : Bool) : (complete r s).len = s.len := rfl
@[simp] theorem complete_expect (r : Bool) : (complete r s).expect = s.expect := rfl
@[simp] theorem complete_pattern (r : Bool) : (complete r s).pattern = s.pattern := rfl
@[simp] theorem complete_tmoBlock (r : Bool) : (complete r s).tmoBlock = s.tmoBlock := rfl
@[simp] theorem complete_tmoWait (r : Bool) : (complete r s).tmoWait = s.tmoWait := rfl
@[simp] theorem complete_csum (r : Bool) : (complete r s).csum = s.csum := rfl
@[simp] theorem complete_flen (r : Bool) : (complete r s).flen = s.flen := rfl
@[simp] theorem complete_now (r : Bool) : (complete r s).now = s.now := rfl
@[simp] theorem complete_rDevid (r : Bool) : (complete r s).rDevid = s.rDevid := rfl
@[simp] theorem complete_rPower (r : Bool) : (complete r s).rPower = s.rPower := rfl
@[simp] theorem complete_rDcv (r : Bool) : (complete r s).rDcv = s.rDcv := rfl
@[simp] theorem complete_rDci (r : Bool) : (complete r s).rDci = s.rDci := rfl
@[simp] theorem complete_rAcv (r : Bool) : (complete r s).rAcv = s.rAcv := rfl
@[simp] theorem complete_rAci (r : Bool) : (complete r s).rAci = s.rAci := rfl
@[simp] theorem complete_rState (r : Bool) : (complete r s).rState = s.rState := rfl
@[simp] theorem complete_rTemp (r : Bool) : (complete r s).rTemp = s.rTemp := rfl
@[simp] theorem complete_rValid (r : Bool) : (complete r s).rValid = s.rValid := rfl
@[simp] theorem complete_buf (r : Bool) : (complete r s).buf = s.buf := rfl
@[simp] theorem complete_rxq (r : Bool) : (complete r s).rxq = s.rxq := rfl
@[simp] theorem complete_txd (r : Bool) : (complete r s).txd = s.txd := rfl
@[simp] theorem complete_txv (r : Bool) : (complete r s).txv = s.txv := rfl
@[simp] theorem complete_t0 (r : Bool) : (complete r s).t0 = s.t0 := rfl
@[simp] theorem complete_tmoCur (r : Bool) : (complete r s).tmoCur = s.tmoCur := rfl
@[simp] theorem complete_armed (r : Bool) : (complete r s).armed = false := rfl
@[simp] theorem complete_exp (r : Bool) : (complete r s).exp = false := rfl
@[simp] theorem complete_opc (r : Bool) : (complete r s).opc = s.opc := rfl
@[simp] theorem complete_idx (r : Bool) : (complete r s).idx = 0 := rfl
@[simp] theorem complete_n (r : Bool) : (complete r s).n = 0 := rfl
@[simp] theorem complete_budget (r : Bool) : (complete r s).budget = 0 := rfl
@[simp] theorem complete_lCmd (r : Bool) : (complete r s).lCmd = s.lCmd := rfl
@[simp] theorem complete_lDevid (r : Bool) : (complete r s).lDevid = s.lDevid := rfl
@[simp] theorem complete_lValue (r : Bool) : (complete r s).lValue = s.lValue := rfl
@[simp] theorem complete_lLen (r : Bool) : (complete r s).lLen = s.lLen := rfl
@[simp] theorem complete_lExpect (r : Bool) : (complete r s).lExpect = s.lExpect := rfl
@[simp] theorem complete_lP0 (r : Bool) : (complete r s).lP0 = s.lP0 := rfl
@[simp] theorem complete_lP1 (r : Bool) : (complete r s).lP1 = s.lP1 := rfl
@[simp] theorem complete_lTb (r : Bool) : (complete r s).lTb = s.lTb := rfl
@[simp] theorem complete_lTw (r : Bool) : (complete r s).lTw = s.lTw := rfl
@[simp] theorem complete_cause (r : Bool) : (complete r s).cause = s.cause := rfl
@[simp] theorem complete_params (r : Bool) : (complete r s).params = s.params := rfl
@[simp] theorem complete_script (r : Bool) : (complete r s).script = s.script := rfl
@[simp] theorem complete_turn (r : Bool) : (complete r s).turn = s.turn := rfl
@[simp] theorem complete_wire (r : Bool) : (complete r s).wire = s.wire := rfl
@[simp] theorem complete_bus (r : Bool) : (complete r s).bus = s.bus := rfl

/-! `labelFailure` (R73). -/

@[simp] theorem labelFailure_opReg (c : Cause) : (labelFailure c s).opReg = s.opReg := rfl
@[simp] theorem labelFailure_busy (c : Cause) : (labelFailure c s).busy = s.busy := rfl
@[simp] theorem labelFailure_done (c : Cause) : (labelFailure c s).done = s.done := rfl
@[simp] theorem labelFailure_ok (c : Cause) : (labelFailure c s).ok = s.ok := rfl
@[simp] theorem labelFailure_recd (c : Cause) : (labelFailure c s).recd = s.recd := rfl
@[simp] theorem labelFailure_rxOvf (c : Cause) : (labelFailure c s).rxOvf = s.rxOvf := rfl
@[simp] theorem labelFailure_rej (c : Cause) : (labelFailure c s).rej = s.rej := rfl
@[simp] theorem labelFailure_st (c : Cause) : (labelFailure c s).st = s.st := rfl
@[simp] theorem labelFailure_cmd (c : Cause) : (labelFailure c s).cmd = s.cmd := rfl
@[simp] theorem labelFailure_devid (c : Cause) : (labelFailure c s).devid = s.devid := rfl
@[simp] theorem labelFailure_value (c : Cause) : (labelFailure c s).value = s.value := rfl
@[simp] theorem labelFailure_len (c : Cause) : (labelFailure c s).len = s.len := rfl
@[simp] theorem labelFailure_expect (c : Cause) : (labelFailure c s).expect = s.expect := rfl
@[simp] theorem labelFailure_pattern (c : Cause) : (labelFailure c s).pattern = s.pattern := rfl
@[simp] theorem labelFailure_tmoBlock (c : Cause) : (labelFailure c s).tmoBlock = s.tmoBlock := rfl
@[simp] theorem labelFailure_tmoWait (c : Cause) : (labelFailure c s).tmoWait = s.tmoWait := rfl
@[simp] theorem labelFailure_csum (c : Cause) : (labelFailure c s).csum = s.csum := rfl
@[simp] theorem labelFailure_flen (c : Cause) : (labelFailure c s).flen = s.flen := rfl
@[simp] theorem labelFailure_now (c : Cause) : (labelFailure c s).now = s.now := rfl
@[simp] theorem labelFailure_rDevid (c : Cause) : (labelFailure c s).rDevid = s.rDevid := rfl
@[simp] theorem labelFailure_rPower (c : Cause) : (labelFailure c s).rPower = s.rPower := rfl
@[simp] theorem labelFailure_rDcv (c : Cause) : (labelFailure c s).rDcv = s.rDcv := rfl
@[simp] theorem labelFailure_rDci (c : Cause) : (labelFailure c s).rDci = s.rDci := rfl
@[simp] theorem labelFailure_rAcv (c : Cause) : (labelFailure c s).rAcv = s.rAcv := rfl
@[simp] theorem labelFailure_rAci (c : Cause) : (labelFailure c s).rAci = s.rAci := rfl
@[simp] theorem labelFailure_rState (c : Cause) : (labelFailure c s).rState = s.rState := rfl
@[simp] theorem labelFailure_rTemp (c : Cause) : (labelFailure c s).rTemp = s.rTemp := rfl
@[simp] theorem labelFailure_rValid (c : Cause) : (labelFailure c s).rValid = (if s.opc = opcGetStatus then false else s.rValid) := rfl
@[simp] theorem labelFailure_buf (c : Cause) : (labelFailure c s).buf = s.buf := rfl
@[simp] theorem labelFailure_rxq (c : Cause) : (labelFailure c s).rxq = s.rxq := rfl
@[simp] theorem labelFailure_txd (c : Cause) : (labelFailure c s).txd = s.txd := rfl
@[simp] theorem labelFailure_txv (c : Cause) : (labelFailure c s).txv = s.txv := rfl
@[simp] theorem labelFailure_t0 (c : Cause) : (labelFailure c s).t0 = s.t0 := rfl
@[simp] theorem labelFailure_tmoCur (c : Cause) : (labelFailure c s).tmoCur = s.tmoCur := rfl
@[simp] theorem labelFailure_armed (c : Cause) : (labelFailure c s).armed = s.armed := rfl
@[simp] theorem labelFailure_exp (c : Cause) : (labelFailure c s).exp = s.exp := rfl
@[simp] theorem labelFailure_opc (c : Cause) : (labelFailure c s).opc = s.opc := rfl
@[simp] theorem labelFailure_idx (c : Cause) : (labelFailure c s).idx = s.idx := rfl
@[simp] theorem labelFailure_n (c : Cause) : (labelFailure c s).n = s.n := rfl
@[simp] theorem labelFailure_budget (c : Cause) : (labelFailure c s).budget = s.budget := rfl
@[simp] theorem labelFailure_lCmd (c : Cause) : (labelFailure c s).lCmd = s.lCmd := rfl
@[simp] theorem labelFailure_lDevid (c : Cause) : (labelFailure c s).lDevid = s.lDevid := rfl
@[simp] theorem labelFailure_lValue (c : Cause) : (labelFailure c s).lValue = s.lValue := rfl
@[simp] theorem labelFailure_lLen (c : Cause) : (labelFailure c s).lLen = s.lLen := rfl
@[simp] theorem labelFailure_lExpect (c : Cause) : (labelFailure c s).lExpect = s.lExpect := rfl
@[simp] theorem labelFailure_lP0 (c : Cause) : (labelFailure c s).lP0 = s.lP0 := rfl
@[simp] theorem labelFailure_lP1 (c : Cause) : (labelFailure c s).lP1 = s.lP1 := rfl
@[simp] theorem labelFailure_lTb (c : Cause) : (labelFailure c s).lTb = s.lTb := rfl
@[simp] theorem labelFailure_lTw (c : Cause) : (labelFailure c s).lTw = s.lTw := rfl
@[simp] theorem labelFailure_cause (c : Cause) : (labelFailure c s).cause = c := rfl
@[simp] theorem labelFailure_params (c : Cause) : (labelFailure c s).params = s.params := rfl
@[simp] theorem labelFailure_script (c : Cause) : (labelFailure c s).script = s.script := rfl
@[simp] theorem labelFailure_turn (c : Cause) : (labelFailure c s).turn = s.turn := rfl
@[simp] theorem labelFailure_wire (c : Cause) : (labelFailure c s).wire = s.wire := rfl
@[simp] theorem labelFailure_bus (c : Cause) : (labelFailure c s).bus = s.bus := rfl

/-! `fail` (R73, R96). -/

@[simp] theorem fail_opReg (c : Cause) : (fail c s).opReg = s.opReg := by
  simp only [fail, complete_opReg, labelFailure_opReg]
@[simp] theorem fail_busy (c : Cause) : (fail c s).busy = false := by
  simp only [fail, complete_busy]
@[simp] theorem fail_done (c : Cause) : (fail c s).done = true := by
  simp only [fail, complete_done]
@[simp] theorem fail_ok (c : Cause) : (fail c s).ok = false := by
  simp only [fail, complete_ok]
@[simp] theorem fail_recd (c : Cause) : (fail c s).recd = s.recd := by
  simp only [fail, complete_recd, labelFailure_recd]
@[simp] theorem fail_rxOvf (c : Cause) : (fail c s).rxOvf = s.rxOvf := by
  simp only [fail, complete_rxOvf, labelFailure_rxOvf]
@[simp] theorem fail_rej (c : Cause) : (fail c s).rej = s.rej := by
  simp only [fail, complete_rej, labelFailure_rej]
@[simp] theorem fail_st (c : Cause) : (fail c s).st = .idle := by
  simp only [fail, complete_st]
@[simp] theorem fail_cmd (c : Cause) : (fail c s).cmd = s.cmd := by
  simp only [fail, complete_cmd, labelFailure_cmd]
@[simp] theorem fail_devid (c : Cause) : (fail c s).devid = s.devid := by
  simp only [fail, complete_devid, labelFailure_devid]
@[simp] theorem fail_value (c : Cause) : (fail c s).value = s.value := by
  simp only [fail, complete_value, labelFailure_value]
@[simp] theorem fail_len (c : Cause) : (fail c s).len = s.len := by
  simp only [fail, complete_len, labelFailure_len]
@[simp] theorem fail_expect (c : Cause) : (fail c s).expect = s.expect := by
  simp only [fail, complete_expect, labelFailure_expect]
@[simp] theorem fail_pattern (c : Cause) : (fail c s).pattern = s.pattern := by
  simp only [fail, complete_pattern, labelFailure_pattern]
@[simp] theorem fail_tmoBlock (c : Cause) : (fail c s).tmoBlock = s.tmoBlock := by
  simp only [fail, complete_tmoBlock, labelFailure_tmoBlock]
@[simp] theorem fail_tmoWait (c : Cause) : (fail c s).tmoWait = s.tmoWait := by
  simp only [fail, complete_tmoWait, labelFailure_tmoWait]
@[simp] theorem fail_csum (c : Cause) : (fail c s).csum = s.csum := by
  simp only [fail, complete_csum, labelFailure_csum]
@[simp] theorem fail_flen (c : Cause) : (fail c s).flen = s.flen := by
  simp only [fail, complete_flen, labelFailure_flen]
@[simp] theorem fail_now (c : Cause) : (fail c s).now = s.now := by
  simp only [fail, complete_now, labelFailure_now]
@[simp] theorem fail_rDevid (c : Cause) : (fail c s).rDevid = s.rDevid := by
  simp only [fail, complete_rDevid, labelFailure_rDevid]
@[simp] theorem fail_rPower (c : Cause) : (fail c s).rPower = s.rPower := by
  simp only [fail, complete_rPower, labelFailure_rPower]
@[simp] theorem fail_rDcv (c : Cause) : (fail c s).rDcv = s.rDcv := by
  simp only [fail, complete_rDcv, labelFailure_rDcv]
@[simp] theorem fail_rDci (c : Cause) : (fail c s).rDci = s.rDci := by
  simp only [fail, complete_rDci, labelFailure_rDci]
@[simp] theorem fail_rAcv (c : Cause) : (fail c s).rAcv = s.rAcv := by
  simp only [fail, complete_rAcv, labelFailure_rAcv]
@[simp] theorem fail_rAci (c : Cause) : (fail c s).rAci = s.rAci := by
  simp only [fail, complete_rAci, labelFailure_rAci]
@[simp] theorem fail_rState (c : Cause) : (fail c s).rState = s.rState := by
  simp only [fail, complete_rState, labelFailure_rState]
@[simp] theorem fail_rTemp (c : Cause) : (fail c s).rTemp = s.rTemp := by
  simp only [fail, complete_rTemp, labelFailure_rTemp]
@[simp] theorem fail_rValid (c : Cause) : (fail c s).rValid = (if s.opc = opcGetStatus then false else s.rValid) := by
  simp only [fail, complete_rValid, labelFailure_rValid]
@[simp] theorem fail_buf (c : Cause) : (fail c s).buf = s.buf := by
  simp only [fail, complete_buf, labelFailure_buf]
@[simp] theorem fail_rxq (c : Cause) : (fail c s).rxq = s.rxq := by
  simp only [fail, complete_rxq, labelFailure_rxq]
@[simp] theorem fail_txd (c : Cause) : (fail c s).txd = s.txd := by
  simp only [fail, complete_txd, labelFailure_txd]
@[simp] theorem fail_txv (c : Cause) : (fail c s).txv = s.txv := by
  simp only [fail, complete_txv, labelFailure_txv]
@[simp] theorem fail_t0 (c : Cause) : (fail c s).t0 = s.t0 := by
  simp only [fail, complete_t0, labelFailure_t0]
@[simp] theorem fail_tmoCur (c : Cause) : (fail c s).tmoCur = s.tmoCur := by
  simp only [fail, complete_tmoCur, labelFailure_tmoCur]
@[simp] theorem fail_armed (c : Cause) : (fail c s).armed = false := by
  simp only [fail, complete_armed]
@[simp] theorem fail_exp (c : Cause) : (fail c s).exp = false := by
  simp only [fail, complete_exp]
@[simp] theorem fail_opc (c : Cause) : (fail c s).opc = s.opc := by
  simp only [fail, complete_opc, labelFailure_opc]
@[simp] theorem fail_idx (c : Cause) : (fail c s).idx = 0 := by
  simp only [fail, complete_idx]
@[simp] theorem fail_n (c : Cause) : (fail c s).n = 0 := by
  simp only [fail, complete_n]
@[simp] theorem fail_budget (c : Cause) : (fail c s).budget = 0 := by
  simp only [fail, complete_budget]
@[simp] theorem fail_lCmd (c : Cause) : (fail c s).lCmd = s.lCmd := by
  simp only [fail, complete_lCmd, labelFailure_lCmd]
@[simp] theorem fail_lDevid (c : Cause) : (fail c s).lDevid = s.lDevid := by
  simp only [fail, complete_lDevid, labelFailure_lDevid]
@[simp] theorem fail_lValue (c : Cause) : (fail c s).lValue = s.lValue := by
  simp only [fail, complete_lValue, labelFailure_lValue]
@[simp] theorem fail_lLen (c : Cause) : (fail c s).lLen = s.lLen := by
  simp only [fail, complete_lLen, labelFailure_lLen]
@[simp] theorem fail_lExpect (c : Cause) : (fail c s).lExpect = s.lExpect := by
  simp only [fail, complete_lExpect, labelFailure_lExpect]
@[simp] theorem fail_lP0 (c : Cause) : (fail c s).lP0 = s.lP0 := by
  simp only [fail, complete_lP0, labelFailure_lP0]
@[simp] theorem fail_lP1 (c : Cause) : (fail c s).lP1 = s.lP1 := by
  simp only [fail, complete_lP1, labelFailure_lP1]
@[simp] theorem fail_lTb (c : Cause) : (fail c s).lTb = s.lTb := by
  simp only [fail, complete_lTb, labelFailure_lTb]
@[simp] theorem fail_lTw (c : Cause) : (fail c s).lTw = s.lTw := by
  simp only [fail, complete_lTw, labelFailure_lTw]
@[simp] theorem fail_cause (c : Cause) : (fail c s).cause = c := by
  simp only [fail, complete_cause, labelFailure_cause]
@[simp] theorem fail_params (c : Cause) : (fail c s).params = s.params := by
  simp only [fail, complete_params, labelFailure_params]
@[simp] theorem fail_script (c : Cause) : (fail c s).script = s.script := by
  simp only [fail, complete_script, labelFailure_script]
@[simp] theorem fail_turn (c : Cause) : (fail c s).turn = s.turn := by
  simp only [fail, complete_turn, labelFailure_turn]
@[simp] theorem fail_wire (c : Cause) : (fail c s).wire = s.wire := by
  simp only [fail, complete_wire, labelFailure_wire]
@[simp] theorem fail_bus (c : Cause) : (fail c s).bus = s.bus := by
  simp only [fail, complete_bus, labelFailure_bus]

/-! `setPhase` (R25). -/

@[simp] theorem setPhase_opReg (p : Phase) : (setPhase p s).opReg = s.opReg := rfl
@[simp] theorem setPhase_busy (p : Phase) : (setPhase p s).busy = s.busy := rfl
@[simp] theorem setPhase_done (p : Phase) : (setPhase p s).done = s.done := rfl
@[simp] theorem setPhase_ok (p : Phase) : (setPhase p s).ok = s.ok := rfl
@[simp] theorem setPhase_recd (p : Phase) : (setPhase p s).recd = s.recd := rfl
@[simp] theorem setPhase_rxOvf (p : Phase) : (setPhase p s).rxOvf = s.rxOvf := rfl
@[simp] theorem setPhase_rej (p : Phase) : (setPhase p s).rej = s.rej := rfl
@[simp] theorem setPhase_st (p : Phase) : (setPhase p s).st = p := rfl
@[simp] theorem setPhase_cmd (p : Phase) : (setPhase p s).cmd = s.cmd := rfl
@[simp] theorem setPhase_devid (p : Phase) : (setPhase p s).devid = s.devid := rfl
@[simp] theorem setPhase_value (p : Phase) : (setPhase p s).value = s.value := rfl
@[simp] theorem setPhase_len (p : Phase) : (setPhase p s).len = s.len := rfl
@[simp] theorem setPhase_expect (p : Phase) : (setPhase p s).expect = s.expect := rfl
@[simp] theorem setPhase_pattern (p : Phase) : (setPhase p s).pattern = s.pattern := rfl
@[simp] theorem setPhase_tmoBlock (p : Phase) : (setPhase p s).tmoBlock = s.tmoBlock := rfl
@[simp] theorem setPhase_tmoWait (p : Phase) : (setPhase p s).tmoWait = s.tmoWait := rfl
@[simp] theorem setPhase_csum (p : Phase) : (setPhase p s).csum = s.csum := rfl
@[simp] theorem setPhase_flen (p : Phase) : (setPhase p s).flen = s.flen := rfl
@[simp] theorem setPhase_now (p : Phase) : (setPhase p s).now = s.now := rfl
@[simp] theorem setPhase_rDevid (p : Phase) : (setPhase p s).rDevid = s.rDevid := rfl
@[simp] theorem setPhase_rPower (p : Phase) : (setPhase p s).rPower = s.rPower := rfl
@[simp] theorem setPhase_rDcv (p : Phase) : (setPhase p s).rDcv = s.rDcv := rfl
@[simp] theorem setPhase_rDci (p : Phase) : (setPhase p s).rDci = s.rDci := rfl
@[simp] theorem setPhase_rAcv (p : Phase) : (setPhase p s).rAcv = s.rAcv := rfl
@[simp] theorem setPhase_rAci (p : Phase) : (setPhase p s).rAci = s.rAci := rfl
@[simp] theorem setPhase_rState (p : Phase) : (setPhase p s).rState = s.rState := rfl
@[simp] theorem setPhase_rTemp (p : Phase) : (setPhase p s).rTemp = s.rTemp := rfl
@[simp] theorem setPhase_rValid (p : Phase) : (setPhase p s).rValid = s.rValid := rfl
@[simp] theorem setPhase_buf (p : Phase) : (setPhase p s).buf = s.buf := rfl
@[simp] theorem setPhase_rxq (p : Phase) : (setPhase p s).rxq = s.rxq := rfl
@[simp] theorem setPhase_txd (p : Phase) : (setPhase p s).txd = s.txd := rfl
@[simp] theorem setPhase_txv (p : Phase) : (setPhase p s).txv = s.txv := rfl
@[simp] theorem setPhase_t0 (p : Phase) : (setPhase p s).t0 = s.t0 := rfl
@[simp] theorem setPhase_tmoCur (p : Phase) : (setPhase p s).tmoCur = s.tmoCur := rfl
@[simp] theorem setPhase_armed (p : Phase) : (setPhase p s).armed = s.armed := rfl
@[simp] theorem setPhase_exp (p : Phase) : (setPhase p s).exp = s.exp := rfl
@[simp] theorem setPhase_opc (p : Phase) : (setPhase p s).opc = s.opc := rfl
@[simp] theorem setPhase_idx (p : Phase) : (setPhase p s).idx = s.idx := rfl
@[simp] theorem setPhase_n (p : Phase) : (setPhase p s).n = s.n := rfl
@[simp] theorem setPhase_budget (p : Phase) : (setPhase p s).budget = s.budget := rfl
@[simp] theorem setPhase_lCmd (p : Phase) : (setPhase p s).lCmd = s.lCmd := rfl
@[simp] theorem setPhase_lDevid (p : Phase) : (setPhase p s).lDevid = s.lDevid := rfl
@[simp] theorem setPhase_lValue (p : Phase) : (setPhase p s).lValue = s.lValue := rfl
@[simp] theorem setPhase_lLen (p : Phase) : (setPhase p s).lLen = s.lLen := rfl
@[simp] theorem setPhase_lExpect (p : Phase) : (setPhase p s).lExpect = s.lExpect := rfl
@[simp] theorem setPhase_lP0 (p : Phase) : (setPhase p s).lP0 = s.lP0 := rfl
@[simp] theorem setPhase_lP1 (p : Phase) : (setPhase p s).lP1 = s.lP1 := rfl
@[simp] theorem setPhase_lTb (p : Phase) : (setPhase p s).lTb = s.lTb := rfl
@[simp] theorem setPhase_lTw (p : Phase) : (setPhase p s).lTw = s.lTw := rfl
@[simp] theorem setPhase_cause (p : Phase) : (setPhase p s).cause = s.cause := rfl
@[simp] theorem setPhase_params (p : Phase) : (setPhase p s).params = s.params := rfl
@[simp] theorem setPhase_script (p : Phase) : (setPhase p s).script = s.script := rfl
@[simp] theorem setPhase_turn (p : Phase) : (setPhase p s).turn = s.turn := rfl
@[simp] theorem setPhase_wire (p : Phase) : (setPhase p s).wire = s.wire := rfl
@[simp] theorem setPhase_bus (p : Phase) : (setPhase p s).bus = s.bus := rfl

/-! `setIdx` (R25). -/

@[simp] theorem setIdx_opReg (k : Nat) : (setIdx k s).opReg = s.opReg := rfl
@[simp] theorem setIdx_busy (k : Nat) : (setIdx k s).busy = s.busy := rfl
@[simp] theorem setIdx_done (k : Nat) : (setIdx k s).done = s.done := rfl
@[simp] theorem setIdx_ok (k : Nat) : (setIdx k s).ok = s.ok := rfl
@[simp] theorem setIdx_recd (k : Nat) : (setIdx k s).recd = s.recd := rfl
@[simp] theorem setIdx_rxOvf (k : Nat) : (setIdx k s).rxOvf = s.rxOvf := rfl
@[simp] theorem setIdx_rej (k : Nat) : (setIdx k s).rej = s.rej := rfl
@[simp] theorem setIdx_st (k : Nat) : (setIdx k s).st = s.st := rfl
@[simp] theorem setIdx_cmd (k : Nat) : (setIdx k s).cmd = s.cmd := rfl
@[simp] theorem setIdx_devid (k : Nat) : (setIdx k s).devid = s.devid := rfl
@[simp] theorem setIdx_value (k : Nat) : (setIdx k s).value = s.value := rfl
@[simp] theorem setIdx_len (k : Nat) : (setIdx k s).len = s.len := rfl
@[simp] theorem setIdx_expect (k : Nat) : (setIdx k s).expect = s.expect := rfl
@[simp] theorem setIdx_pattern (k : Nat) : (setIdx k s).pattern = s.pattern := rfl
@[simp] theorem setIdx_tmoBlock (k : Nat) : (setIdx k s).tmoBlock = s.tmoBlock := rfl
@[simp] theorem setIdx_tmoWait (k : Nat) : (setIdx k s).tmoWait = s.tmoWait := rfl
@[simp] theorem setIdx_csum (k : Nat) : (setIdx k s).csum = s.csum := rfl
@[simp] theorem setIdx_flen (k : Nat) : (setIdx k s).flen = s.flen := rfl
@[simp] theorem setIdx_now (k : Nat) : (setIdx k s).now = s.now := rfl
@[simp] theorem setIdx_rDevid (k : Nat) : (setIdx k s).rDevid = s.rDevid := rfl
@[simp] theorem setIdx_rPower (k : Nat) : (setIdx k s).rPower = s.rPower := rfl
@[simp] theorem setIdx_rDcv (k : Nat) : (setIdx k s).rDcv = s.rDcv := rfl
@[simp] theorem setIdx_rDci (k : Nat) : (setIdx k s).rDci = s.rDci := rfl
@[simp] theorem setIdx_rAcv (k : Nat) : (setIdx k s).rAcv = s.rAcv := rfl
@[simp] theorem setIdx_rAci (k : Nat) : (setIdx k s).rAci = s.rAci := rfl
@[simp] theorem setIdx_rState (k : Nat) : (setIdx k s).rState = s.rState := rfl
@[simp] theorem setIdx_rTemp (k : Nat) : (setIdx k s).rTemp = s.rTemp := rfl
@[simp] theorem setIdx_rValid (k : Nat) : (setIdx k s).rValid = s.rValid := rfl
@[simp] theorem setIdx_buf (k : Nat) : (setIdx k s).buf = s.buf := rfl
@[simp] theorem setIdx_rxq (k : Nat) : (setIdx k s).rxq = s.rxq := rfl
@[simp] theorem setIdx_txd (k : Nat) : (setIdx k s).txd = s.txd := rfl
@[simp] theorem setIdx_txv (k : Nat) : (setIdx k s).txv = s.txv := rfl
@[simp] theorem setIdx_t0 (k : Nat) : (setIdx k s).t0 = s.t0 := rfl
@[simp] theorem setIdx_tmoCur (k : Nat) : (setIdx k s).tmoCur = s.tmoCur := rfl
@[simp] theorem setIdx_armed (k : Nat) : (setIdx k s).armed = s.armed := rfl
@[simp] theorem setIdx_exp (k : Nat) : (setIdx k s).exp = s.exp := rfl
@[simp] theorem setIdx_opc (k : Nat) : (setIdx k s).opc = s.opc := rfl
@[simp] theorem setIdx_idx (k : Nat) : (setIdx k s).idx = k := rfl
@[simp] theorem setIdx_n (k : Nat) : (setIdx k s).n = s.n := rfl
@[simp] theorem setIdx_budget (k : Nat) : (setIdx k s).budget = s.budget := rfl
@[simp] theorem setIdx_lCmd (k : Nat) : (setIdx k s).lCmd = s.lCmd := rfl
@[simp] theorem setIdx_lDevid (k : Nat) : (setIdx k s).lDevid = s.lDevid := rfl
@[simp] theorem setIdx_lValue (k : Nat) : (setIdx k s).lValue = s.lValue := rfl
@[simp] theorem setIdx_lLen (k : Nat) : (setIdx k s).lLen = s.lLen := rfl
@[simp] theorem setIdx_lExpect (k : Nat) : (setIdx k s).lExpect = s.lExpect := rfl
@[simp] theorem setIdx_lP0 (k : Nat) : (setIdx k s).lP0 = s.lP0 := rfl
@[simp] theorem setIdx_lP1 (k : Nat) : (setIdx k s).lP1 = s.lP1 := rfl
@[simp] theorem setIdx_lTb (k : Nat) : (setIdx k s).lTb = s.lTb := rfl
@[simp] theorem setIdx_lTw (k : Nat) : (setIdx k s).lTw = s.lTw := rfl
@[simp] theorem setIdx_cause (k : Nat) : (setIdx k s).cause = s.cause := rfl
@[simp] theorem setIdx_params (k : Nat) : (setIdx k s).params = s.params := rfl
@[simp] theorem setIdx_script (k : Nat) : (setIdx k s).script = s.script := rfl
@[simp] theorem setIdx_turn (k : Nat) : (setIdx k s).turn = s.turn := rfl
@[simp] theorem setIdx_wire (k : Nat) : (setIdx k s).wire = s.wire := rfl
@[simp] theorem setIdx_bus (k : Nat) : (setIdx k s).bus = s.bus := rfl

/-! `setCount` (R25). -/

@[simp] theorem setCount_opReg (k : Nat) : (setCount k s).opReg = s.opReg := rfl
@[simp] theorem setCount_busy (k : Nat) : (setCount k s).busy = s.busy := rfl
@[simp] theorem setCount_done (k : Nat) : (setCount k s).done = s.done := rfl
@[simp] theorem setCount_ok (k : Nat) : (setCount k s).ok = s.ok := rfl
@[simp] theorem setCount_recd (k : Nat) : (setCount k s).recd = s.recd := rfl
@[simp] theorem setCount_rxOvf (k : Nat) : (setCount k s).rxOvf = s.rxOvf := rfl
@[simp] theorem setCount_rej (k : Nat) : (setCount k s).rej = s.rej := rfl
@[simp] theorem setCount_st (k : Nat) : (setCount k s).st = s.st := rfl
@[simp] theorem setCount_cmd (k : Nat) : (setCount k s).cmd = s.cmd := rfl
@[simp] theorem setCount_devid (k : Nat) : (setCount k s).devid = s.devid := rfl
@[simp] theorem setCount_value (k : Nat) : (setCount k s).value = s.value := rfl
@[simp] theorem setCount_len (k : Nat) : (setCount k s).len = s.len := rfl
@[simp] theorem setCount_expect (k : Nat) : (setCount k s).expect = s.expect := rfl
@[simp] theorem setCount_pattern (k : Nat) : (setCount k s).pattern = s.pattern := rfl
@[simp] theorem setCount_tmoBlock (k : Nat) : (setCount k s).tmoBlock = s.tmoBlock := rfl
@[simp] theorem setCount_tmoWait (k : Nat) : (setCount k s).tmoWait = s.tmoWait := rfl
@[simp] theorem setCount_csum (k : Nat) : (setCount k s).csum = s.csum := rfl
@[simp] theorem setCount_flen (k : Nat) : (setCount k s).flen = s.flen := rfl
@[simp] theorem setCount_now (k : Nat) : (setCount k s).now = s.now := rfl
@[simp] theorem setCount_rDevid (k : Nat) : (setCount k s).rDevid = s.rDevid := rfl
@[simp] theorem setCount_rPower (k : Nat) : (setCount k s).rPower = s.rPower := rfl
@[simp] theorem setCount_rDcv (k : Nat) : (setCount k s).rDcv = s.rDcv := rfl
@[simp] theorem setCount_rDci (k : Nat) : (setCount k s).rDci = s.rDci := rfl
@[simp] theorem setCount_rAcv (k : Nat) : (setCount k s).rAcv = s.rAcv := rfl
@[simp] theorem setCount_rAci (k : Nat) : (setCount k s).rAci = s.rAci := rfl
@[simp] theorem setCount_rState (k : Nat) : (setCount k s).rState = s.rState := rfl
@[simp] theorem setCount_rTemp (k : Nat) : (setCount k s).rTemp = s.rTemp := rfl
@[simp] theorem setCount_rValid (k : Nat) : (setCount k s).rValid = s.rValid := rfl
@[simp] theorem setCount_buf (k : Nat) : (setCount k s).buf = s.buf := rfl
@[simp] theorem setCount_rxq (k : Nat) : (setCount k s).rxq = s.rxq := rfl
@[simp] theorem setCount_txd (k : Nat) : (setCount k s).txd = s.txd := rfl
@[simp] theorem setCount_txv (k : Nat) : (setCount k s).txv = s.txv := rfl
@[simp] theorem setCount_t0 (k : Nat) : (setCount k s).t0 = s.t0 := rfl
@[simp] theorem setCount_tmoCur (k : Nat) : (setCount k s).tmoCur = s.tmoCur := rfl
@[simp] theorem setCount_armed (k : Nat) : (setCount k s).armed = s.armed := rfl
@[simp] theorem setCount_exp (k : Nat) : (setCount k s).exp = s.exp := rfl
@[simp] theorem setCount_opc (k : Nat) : (setCount k s).opc = s.opc := rfl
@[simp] theorem setCount_idx (k : Nat) : (setCount k s).idx = s.idx := rfl
@[simp] theorem setCount_n (k : Nat) : (setCount k s).n = k := rfl
@[simp] theorem setCount_budget (k : Nat) : (setCount k s).budget = s.budget := rfl
@[simp] theorem setCount_lCmd (k : Nat) : (setCount k s).lCmd = s.lCmd := rfl
@[simp] theorem setCount_lDevid (k : Nat) : (setCount k s).lDevid = s.lDevid := rfl
@[simp] theorem setCount_lValue (k : Nat) : (setCount k s).lValue = s.lValue := rfl
@[simp] theorem setCount_lLen (k : Nat) : (setCount k s).lLen = s.lLen := rfl
@[simp] theorem setCount_lExpect (k : Nat) : (setCount k s).lExpect = s.lExpect := rfl
@[simp] theorem setCount_lP0 (k : Nat) : (setCount k s).lP0 = s.lP0 := rfl
@[simp] theorem setCount_lP1 (k : Nat) : (setCount k s).lP1 = s.lP1 := rfl
@[simp] theorem setCount_lTb (k : Nat) : (setCount k s).lTb = s.lTb := rfl
@[simp] theorem setCount_lTw (k : Nat) : (setCount k s).lTw = s.lTw := rfl
@[simp] theorem setCount_cause (k : Nat) : (setCount k s).cause = s.cause := rfl
@[simp] theorem setCount_params (k : Nat) : (setCount k s).params = s.params := rfl
@[simp] theorem setCount_script (k : Nat) : (setCount k s).script = s.script := rfl
@[simp] theorem setCount_turn (k : Nat) : (setCount k s).turn = s.turn := rfl
@[simp] theorem setCount_wire (k : Nat) : (setCount k s).wire = s.wire := rfl
@[simp] theorem setCount_bus (k : Nat) : (setCount k s).bus = s.bus := rfl

/-! `setBudget` (R25). -/

@[simp] theorem setBudget_opReg (k : Nat) : (setBudget k s).opReg = s.opReg := rfl
@[simp] theorem setBudget_busy (k : Nat) : (setBudget k s).busy = s.busy := rfl
@[simp] theorem setBudget_done (k : Nat) : (setBudget k s).done = s.done := rfl
@[simp] theorem setBudget_ok (k : Nat) : (setBudget k s).ok = s.ok := rfl
@[simp] theorem setBudget_recd (k : Nat) : (setBudget k s).recd = s.recd := rfl
@[simp] theorem setBudget_rxOvf (k : Nat) : (setBudget k s).rxOvf = s.rxOvf := rfl
@[simp] theorem setBudget_rej (k : Nat) : (setBudget k s).rej = s.rej := rfl
@[simp] theorem setBudget_st (k : Nat) : (setBudget k s).st = s.st := rfl
@[simp] theorem setBudget_cmd (k : Nat) : (setBudget k s).cmd = s.cmd := rfl
@[simp] theorem setBudget_devid (k : Nat) : (setBudget k s).devid = s.devid := rfl
@[simp] theorem setBudget_value (k : Nat) : (setBudget k s).value = s.value := rfl
@[simp] theorem setBudget_len (k : Nat) : (setBudget k s).len = s.len := rfl
@[simp] theorem setBudget_expect (k : Nat) : (setBudget k s).expect = s.expect := rfl
@[simp] theorem setBudget_pattern (k : Nat) : (setBudget k s).pattern = s.pattern := rfl
@[simp] theorem setBudget_tmoBlock (k : Nat) : (setBudget k s).tmoBlock = s.tmoBlock := rfl
@[simp] theorem setBudget_tmoWait (k : Nat) : (setBudget k s).tmoWait = s.tmoWait := rfl
@[simp] theorem setBudget_csum (k : Nat) : (setBudget k s).csum = s.csum := rfl
@[simp] theorem setBudget_flen (k : Nat) : (setBudget k s).flen = s.flen := rfl
@[simp] theorem setBudget_now (k : Nat) : (setBudget k s).now = s.now := rfl
@[simp] theorem setBudget_rDevid (k : Nat) : (setBudget k s).rDevid = s.rDevid := rfl
@[simp] theorem setBudget_rPower (k : Nat) : (setBudget k s).rPower = s.rPower := rfl
@[simp] theorem setBudget_rDcv (k : Nat) : (setBudget k s).rDcv = s.rDcv := rfl
@[simp] theorem setBudget_rDci (k : Nat) : (setBudget k s).rDci = s.rDci := rfl
@[simp] theorem setBudget_rAcv (k : Nat) : (setBudget k s).rAcv = s.rAcv := rfl
@[simp] theorem setBudget_rAci (k : Nat) : (setBudget k s).rAci = s.rAci := rfl
@[simp] theorem setBudget_rState (k : Nat) : (setBudget k s).rState = s.rState := rfl
@[simp] theorem setBudget_rTemp (k : Nat) : (setBudget k s).rTemp = s.rTemp := rfl
@[simp] theorem setBudget_rValid (k : Nat) : (setBudget k s).rValid = s.rValid := rfl
@[simp] theorem setBudget_buf (k : Nat) : (setBudget k s).buf = s.buf := rfl
@[simp] theorem setBudget_rxq (k : Nat) : (setBudget k s).rxq = s.rxq := rfl
@[simp] theorem setBudget_txd (k : Nat) : (setBudget k s).txd = s.txd := rfl
@[simp] theorem setBudget_txv (k : Nat) : (setBudget k s).txv = s.txv := rfl
@[simp] theorem setBudget_t0 (k : Nat) : (setBudget k s).t0 = s.t0 := rfl
@[simp] theorem setBudget_tmoCur (k : Nat) : (setBudget k s).tmoCur = s.tmoCur := rfl
@[simp] theorem setBudget_armed (k : Nat) : (setBudget k s).armed = s.armed := rfl
@[simp] theorem setBudget_exp (k : Nat) : (setBudget k s).exp = s.exp := rfl
@[simp] theorem setBudget_opc (k : Nat) : (setBudget k s).opc = s.opc := rfl
@[simp] theorem setBudget_idx (k : Nat) : (setBudget k s).idx = s.idx := rfl
@[simp] theorem setBudget_n (k : Nat) : (setBudget k s).n = s.n := rfl
@[simp] theorem setBudget_budget (k : Nat) : (setBudget k s).budget = k := rfl
@[simp] theorem setBudget_lCmd (k : Nat) : (setBudget k s).lCmd = s.lCmd := rfl
@[simp] theorem setBudget_lDevid (k : Nat) : (setBudget k s).lDevid = s.lDevid := rfl
@[simp] theorem setBudget_lValue (k : Nat) : (setBudget k s).lValue = s.lValue := rfl
@[simp] theorem setBudget_lLen (k : Nat) : (setBudget k s).lLen = s.lLen := rfl
@[simp] theorem setBudget_lExpect (k : Nat) : (setBudget k s).lExpect = s.lExpect := rfl
@[simp] theorem setBudget_lP0 (k : Nat) : (setBudget k s).lP0 = s.lP0 := rfl
@[simp] theorem setBudget_lP1 (k : Nat) : (setBudget k s).lP1 = s.lP1 := rfl
@[simp] theorem setBudget_lTb (k : Nat) : (setBudget k s).lTb = s.lTb := rfl
@[simp] theorem setBudget_lTw (k : Nat) : (setBudget k s).lTw = s.lTw := rfl
@[simp] theorem setBudget_cause (k : Nat) : (setBudget k s).cause = s.cause := rfl
@[simp] theorem setBudget_params (k : Nat) : (setBudget k s).params = s.params := rfl
@[simp] theorem setBudget_script (k : Nat) : (setBudget k s).script = s.script := rfl
@[simp] theorem setBudget_turn (k : Nat) : (setBudget k s).turn = s.turn := rfl
@[simp] theorem setBudget_wire (k : Nat) : (setBudget k s).wire = s.wire := rfl
@[simp] theorem setBudget_bus (k : Nat) : (setBudget k s).bus = s.bus := rfl

/-! `setFlen` (R19). -/

@[simp] theorem setFlen_opReg (k : Nat) : (setFlen k s).opReg = s.opReg := rfl
@[simp] theorem setFlen_busy (k : Nat) : (setFlen k s).busy = s.busy := rfl
@[simp] theorem setFlen_done (k : Nat) : (setFlen k s).done = s.done := rfl
@[simp] theorem setFlen_ok (k : Nat) : (setFlen k s).ok = s.ok := rfl
@[simp] theorem setFlen_recd (k : Nat) : (setFlen k s).recd = s.recd := rfl
@[simp] theorem setFlen_rxOvf (k : Nat) : (setFlen k s).rxOvf = s.rxOvf := rfl
@[simp] theorem setFlen_rej (k : Nat) : (setFlen k s).rej = s.rej := rfl
@[simp] theorem setFlen_st (k : Nat) : (setFlen k s).st = s.st := rfl
@[simp] theorem setFlen_cmd (k : Nat) : (setFlen k s).cmd = s.cmd := rfl
@[simp] theorem setFlen_devid (k : Nat) : (setFlen k s).devid = s.devid := rfl
@[simp] theorem setFlen_value (k : Nat) : (setFlen k s).value = s.value := rfl
@[simp] theorem setFlen_len (k : Nat) : (setFlen k s).len = s.len := rfl
@[simp] theorem setFlen_expect (k : Nat) : (setFlen k s).expect = s.expect := rfl
@[simp] theorem setFlen_pattern (k : Nat) : (setFlen k s).pattern = s.pattern := rfl
@[simp] theorem setFlen_tmoBlock (k : Nat) : (setFlen k s).tmoBlock = s.tmoBlock := rfl
@[simp] theorem setFlen_tmoWait (k : Nat) : (setFlen k s).tmoWait = s.tmoWait := rfl
@[simp] theorem setFlen_csum (k : Nat) : (setFlen k s).csum = s.csum := rfl
@[simp] theorem setFlen_flen (k : Nat) : (setFlen k s).flen = k := rfl
@[simp] theorem setFlen_now (k : Nat) : (setFlen k s).now = s.now := rfl
@[simp] theorem setFlen_rDevid (k : Nat) : (setFlen k s).rDevid = s.rDevid := rfl
@[simp] theorem setFlen_rPower (k : Nat) : (setFlen k s).rPower = s.rPower := rfl
@[simp] theorem setFlen_rDcv (k : Nat) : (setFlen k s).rDcv = s.rDcv := rfl
@[simp] theorem setFlen_rDci (k : Nat) : (setFlen k s).rDci = s.rDci := rfl
@[simp] theorem setFlen_rAcv (k : Nat) : (setFlen k s).rAcv = s.rAcv := rfl
@[simp] theorem setFlen_rAci (k : Nat) : (setFlen k s).rAci = s.rAci := rfl
@[simp] theorem setFlen_rState (k : Nat) : (setFlen k s).rState = s.rState := rfl
@[simp] theorem setFlen_rTemp (k : Nat) : (setFlen k s).rTemp = s.rTemp := rfl
@[simp] theorem setFlen_rValid (k : Nat) : (setFlen k s).rValid = s.rValid := rfl
@[simp] theorem setFlen_buf (k : Nat) : (setFlen k s).buf = s.buf := rfl
@[simp] theorem setFlen_rxq (k : Nat) : (setFlen k s).rxq = s.rxq := rfl
@[simp] theorem setFlen_txd (k : Nat) : (setFlen k s).txd = s.txd := rfl
@[simp] theorem setFlen_txv (k : Nat) : (setFlen k s).txv = s.txv := rfl
@[simp] theorem setFlen_t0 (k : Nat) : (setFlen k s).t0 = s.t0 := rfl
@[simp] theorem setFlen_tmoCur (k : Nat) : (setFlen k s).tmoCur = s.tmoCur := rfl
@[simp] theorem setFlen_armed (k : Nat) : (setFlen k s).armed = s.armed := rfl
@[simp] theorem setFlen_exp (k : Nat) : (setFlen k s).exp = s.exp := rfl
@[simp] theorem setFlen_opc (k : Nat) : (setFlen k s).opc = s.opc := rfl
@[simp] theorem setFlen_idx (k : Nat) : (setFlen k s).idx = s.idx := rfl
@[simp] theorem setFlen_n (k : Nat) : (setFlen k s).n = s.n := rfl
@[simp] theorem setFlen_budget (k : Nat) : (setFlen k s).budget = s.budget := rfl
@[simp] theorem setFlen_lCmd (k : Nat) : (setFlen k s).lCmd = s.lCmd := rfl
@[simp] theorem setFlen_lDevid (k : Nat) : (setFlen k s).lDevid = s.lDevid := rfl
@[simp] theorem setFlen_lValue (k : Nat) : (setFlen k s).lValue = s.lValue := rfl
@[simp] theorem setFlen_lLen (k : Nat) : (setFlen k s).lLen = s.lLen := rfl
@[simp] theorem setFlen_lExpect (k : Nat) : (setFlen k s).lExpect = s.lExpect := rfl
@[simp] theorem setFlen_lP0 (k : Nat) : (setFlen k s).lP0 = s.lP0 := rfl
@[simp] theorem setFlen_lP1 (k : Nat) : (setFlen k s).lP1 = s.lP1 := rfl
@[simp] theorem setFlen_lTb (k : Nat) : (setFlen k s).lTb = s.lTb := rfl
@[simp] theorem setFlen_lTw (k : Nat) : (setFlen k s).lTw = s.lTw := rfl
@[simp] theorem setFlen_cause (k : Nat) : (setFlen k s).cause = s.cause := rfl
@[simp] theorem setFlen_params (k : Nat) : (setFlen k s).params = s.params := rfl
@[simp] theorem setFlen_script (k : Nat) : (setFlen k s).script = s.script := rfl
@[simp] theorem setFlen_turn (k : Nat) : (setFlen k s).turn = s.turn := rfl
@[simp] theorem setFlen_wire (k : Nat) : (setFlen k s).wire = s.wire := rfl
@[simp] theorem setFlen_bus (k : Nat) : (setFlen k s).bus = s.bus := rfl

/-! `setCsum` (R19). -/

@[simp] theorem setCsum_opReg (v : Byte) : (setCsum v s).opReg = s.opReg := rfl
@[simp] theorem setCsum_busy (v : Byte) : (setCsum v s).busy = s.busy := rfl
@[simp] theorem setCsum_done (v : Byte) : (setCsum v s).done = s.done := rfl
@[simp] theorem setCsum_ok (v : Byte) : (setCsum v s).ok = s.ok := rfl
@[simp] theorem setCsum_recd (v : Byte) : (setCsum v s).recd = s.recd := rfl
@[simp] theorem setCsum_rxOvf (v : Byte) : (setCsum v s).rxOvf = s.rxOvf := rfl
@[simp] theorem setCsum_rej (v : Byte) : (setCsum v s).rej = s.rej := rfl
@[simp] theorem setCsum_st (v : Byte) : (setCsum v s).st = s.st := rfl
@[simp] theorem setCsum_cmd (v : Byte) : (setCsum v s).cmd = s.cmd := rfl
@[simp] theorem setCsum_devid (v : Byte) : (setCsum v s).devid = s.devid := rfl
@[simp] theorem setCsum_value (v : Byte) : (setCsum v s).value = s.value := rfl
@[simp] theorem setCsum_len (v : Byte) : (setCsum v s).len = s.len := rfl
@[simp] theorem setCsum_expect (v : Byte) : (setCsum v s).expect = s.expect := rfl
@[simp] theorem setCsum_pattern (v : Byte) : (setCsum v s).pattern = s.pattern := rfl
@[simp] theorem setCsum_tmoBlock (v : Byte) : (setCsum v s).tmoBlock = s.tmoBlock := rfl
@[simp] theorem setCsum_tmoWait (v : Byte) : (setCsum v s).tmoWait = s.tmoWait := rfl
@[simp] theorem setCsum_csum (v : Byte) : (setCsum v s).csum = v := rfl
@[simp] theorem setCsum_flen (v : Byte) : (setCsum v s).flen = s.flen := rfl
@[simp] theorem setCsum_now (v : Byte) : (setCsum v s).now = s.now := rfl
@[simp] theorem setCsum_rDevid (v : Byte) : (setCsum v s).rDevid = s.rDevid := rfl
@[simp] theorem setCsum_rPower (v : Byte) : (setCsum v s).rPower = s.rPower := rfl
@[simp] theorem setCsum_rDcv (v : Byte) : (setCsum v s).rDcv = s.rDcv := rfl
@[simp] theorem setCsum_rDci (v : Byte) : (setCsum v s).rDci = s.rDci := rfl
@[simp] theorem setCsum_rAcv (v : Byte) : (setCsum v s).rAcv = s.rAcv := rfl
@[simp] theorem setCsum_rAci (v : Byte) : (setCsum v s).rAci = s.rAci := rfl
@[simp] theorem setCsum_rState (v : Byte) : (setCsum v s).rState = s.rState := rfl
@[simp] theorem setCsum_rTemp (v : Byte) : (setCsum v s).rTemp = s.rTemp := rfl
@[simp] theorem setCsum_rValid (v : Byte) : (setCsum v s).rValid = s.rValid := rfl
@[simp] theorem setCsum_buf (v : Byte) : (setCsum v s).buf = s.buf := rfl
@[simp] theorem setCsum_rxq (v : Byte) : (setCsum v s).rxq = s.rxq := rfl
@[simp] theorem setCsum_txd (v : Byte) : (setCsum v s).txd = s.txd := rfl
@[simp] theorem setCsum_txv (v : Byte) : (setCsum v s).txv = s.txv := rfl
@[simp] theorem setCsum_t0 (v : Byte) : (setCsum v s).t0 = s.t0 := rfl
@[simp] theorem setCsum_tmoCur (v : Byte) : (setCsum v s).tmoCur = s.tmoCur := rfl
@[simp] theorem setCsum_armed (v : Byte) : (setCsum v s).armed = s.armed := rfl
@[simp] theorem setCsum_exp (v : Byte) : (setCsum v s).exp = s.exp := rfl
@[simp] theorem setCsum_opc (v : Byte) : (setCsum v s).opc = s.opc := rfl
@[simp] theorem setCsum_idx (v : Byte) : (setCsum v s).idx = s.idx := rfl
@[simp] theorem setCsum_n (v : Byte) : (setCsum v s).n = s.n := rfl
@[simp] theorem setCsum_budget (v : Byte) : (setCsum v s).budget = s.budget := rfl
@[simp] theorem setCsum_lCmd (v : Byte) : (setCsum v s).lCmd = s.lCmd := rfl
@[simp] theorem setCsum_lDevid (v : Byte) : (setCsum v s).lDevid = s.lDevid := rfl
@[simp] theorem setCsum_lValue (v : Byte) : (setCsum v s).lValue = s.lValue := rfl
@[simp] theorem setCsum_lLen (v : Byte) : (setCsum v s).lLen = s.lLen := rfl
@[simp] theorem setCsum_lExpect (v : Byte) : (setCsum v s).lExpect = s.lExpect := rfl
@[simp] theorem setCsum_lP0 (v : Byte) : (setCsum v s).lP0 = s.lP0 := rfl
@[simp] theorem setCsum_lP1 (v : Byte) : (setCsum v s).lP1 = s.lP1 := rfl
@[simp] theorem setCsum_lTb (v : Byte) : (setCsum v s).lTb = s.lTb := rfl
@[simp] theorem setCsum_lTw (v : Byte) : (setCsum v s).lTw = s.lTw := rfl
@[simp] theorem setCsum_cause (v : Byte) : (setCsum v s).cause = s.cause := rfl
@[simp] theorem setCsum_params (v : Byte) : (setCsum v s).params = s.params := rfl
@[simp] theorem setCsum_script (v : Byte) : (setCsum v s).script = s.script := rfl
@[simp] theorem setCsum_turn (v : Byte) : (setCsum v s).turn = s.turn := rfl
@[simp] theorem setCsum_wire (v : Byte) : (setCsum v s).wire = s.wire := rfl
@[simp] theorem setCsum_bus (v : Byte) : (setCsum v s).bus = s.bus := rfl

/-! `setRecord` (R17). -/

@[simp] theorem setRecord_opReg : (setRecord s).opReg = s.opReg := rfl
@[simp] theorem setRecord_busy : (setRecord s).busy = s.busy := rfl
@[simp] theorem setRecord_done : (setRecord s).done = s.done := rfl
@[simp] theorem setRecord_ok : (setRecord s).ok = s.ok := rfl
@[simp] theorem setRecord_recd : (setRecord s).recd = true := rfl
@[simp] theorem setRecord_rxOvf : (setRecord s).rxOvf = s.rxOvf := rfl
@[simp] theorem setRecord_rej : (setRecord s).rej = s.rej := rfl
@[simp] theorem setRecord_st : (setRecord s).st = s.st := rfl
@[simp] theorem setRecord_cmd : (setRecord s).cmd = s.cmd := rfl
@[simp] theorem setRecord_devid : (setRecord s).devid = s.devid := rfl
@[simp] theorem setRecord_value : (setRecord s).value = s.value := rfl
@[simp] theorem setRecord_len : (setRecord s).len = s.len := rfl
@[simp] theorem setRecord_expect : (setRecord s).expect = s.expect := rfl
@[simp] theorem setRecord_pattern : (setRecord s).pattern = s.pattern := rfl
@[simp] theorem setRecord_tmoBlock : (setRecord s).tmoBlock = s.tmoBlock := rfl
@[simp] theorem setRecord_tmoWait : (setRecord s).tmoWait = s.tmoWait := rfl
@[simp] theorem setRecord_csum : (setRecord s).csum = s.csum := rfl
@[simp] theorem setRecord_flen : (setRecord s).flen = s.flen := rfl
@[simp] theorem setRecord_now : (setRecord s).now = s.now := rfl
@[simp] theorem setRecord_rDevid : (setRecord s).rDevid = s.rDevid := rfl
@[simp] theorem setRecord_rPower : (setRecord s).rPower = s.rPower := rfl
@[simp] theorem setRecord_rDcv : (setRecord s).rDcv = s.rDcv := rfl
@[simp] theorem setRecord_rDci : (setRecord s).rDci = s.rDci := rfl
@[simp] theorem setRecord_rAcv : (setRecord s).rAcv = s.rAcv := rfl
@[simp] theorem setRecord_rAci : (setRecord s).rAci = s.rAci := rfl
@[simp] theorem setRecord_rState : (setRecord s).rState = s.rState := rfl
@[simp] theorem setRecord_rTemp : (setRecord s).rTemp = s.rTemp := rfl
@[simp] theorem setRecord_rValid : (setRecord s).rValid = s.rValid := rfl
@[simp] theorem setRecord_buf : (setRecord s).buf = s.buf := rfl
@[simp] theorem setRecord_rxq : (setRecord s).rxq = s.rxq := rfl
@[simp] theorem setRecord_txd : (setRecord s).txd = s.txd := rfl
@[simp] theorem setRecord_txv : (setRecord s).txv = s.txv := rfl
@[simp] theorem setRecord_t0 : (setRecord s).t0 = s.t0 := rfl
@[simp] theorem setRecord_tmoCur : (setRecord s).tmoCur = s.tmoCur := rfl
@[simp] theorem setRecord_armed : (setRecord s).armed = s.armed := rfl
@[simp] theorem setRecord_exp : (setRecord s).exp = s.exp := rfl
@[simp] theorem setRecord_opc : (setRecord s).opc = s.opc := rfl
@[simp] theorem setRecord_idx : (setRecord s).idx = s.idx := rfl
@[simp] theorem setRecord_n : (setRecord s).n = s.n := rfl
@[simp] theorem setRecord_budget : (setRecord s).budget = s.budget := rfl
@[simp] theorem setRecord_lCmd : (setRecord s).lCmd = s.lCmd := rfl
@[simp] theorem setRecord_lDevid : (setRecord s).lDevid = s.lDevid := rfl
@[simp] theorem setRecord_lValue : (setRecord s).lValue = s.lValue := rfl
@[simp] theorem setRecord_lLen : (setRecord s).lLen = s.lLen := rfl
@[simp] theorem setRecord_lExpect : (setRecord s).lExpect = s.lExpect := rfl
@[simp] theorem setRecord_lP0 : (setRecord s).lP0 = s.lP0 := rfl
@[simp] theorem setRecord_lP1 : (setRecord s).lP1 = s.lP1 := rfl
@[simp] theorem setRecord_lTb : (setRecord s).lTb = s.lTb := rfl
@[simp] theorem setRecord_lTw : (setRecord s).lTw = s.lTw := rfl
@[simp] theorem setRecord_cause : (setRecord s).cause = s.cause := rfl
@[simp] theorem setRecord_params : (setRecord s).params = s.params := rfl
@[simp] theorem setRecord_script : (setRecord s).script = s.script := rfl
@[simp] theorem setRecord_turn : (setRecord s).turn = s.turn := rfl
@[simp] theorem setRecord_wire : (setRecord s).wire = s.wire := rfl
@[simp] theorem setRecord_bus : (setRecord s).bus = s.bus := rfl

/-! `setCause` (R27). -/

@[simp] theorem setCause_opReg (c : Cause) : (setCause c s).opReg = s.opReg := rfl
@[simp] theorem setCause_busy (c : Cause) : (setCause c s).busy = s.busy := rfl
@[simp] theorem setCause_done (c : Cause) : (setCause c s).done = s.done := rfl
@[simp] theorem setCause_ok (c : Cause) : (setCause c s).ok = s.ok := rfl
@[simp] theorem setCause_recd (c : Cause) : (setCause c s).recd = s.recd := rfl
@[simp] theorem setCause_rxOvf (c : Cause) : (setCause c s).rxOvf = s.rxOvf := rfl
@[simp] theorem setCause_rej (c : Cause) : (setCause c s).rej = s.rej := rfl
@[simp] theorem setCause_st (c : Cause) : (setCause c s).st = s.st := rfl
@[simp] theorem setCause_cmd (c : Cause) : (setCause c s).cmd = s.cmd := rfl
@[simp] theorem setCause_devid (c : Cause) : (setCause c s).devid = s.devid := rfl
@[simp] theorem setCause_value (c : Cause) : (setCause c s).value = s.value := rfl
@[simp] theorem setCause_len (c : Cause) : (setCause c s).len = s.len := rfl
@[simp] theorem setCause_expect (c : Cause) : (setCause c s).expect = s.expect := rfl
@[simp] theorem setCause_pattern (c : Cause) : (setCause c s).pattern = s.pattern := rfl
@[simp] theorem setCause_tmoBlock (c : Cause) : (setCause c s).tmoBlock = s.tmoBlock := rfl
@[simp] theorem setCause_tmoWait (c : Cause) : (setCause c s).tmoWait = s.tmoWait := rfl
@[simp] theorem setCause_csum (c : Cause) : (setCause c s).csum = s.csum := rfl
@[simp] theorem setCause_flen (c : Cause) : (setCause c s).flen = s.flen := rfl
@[simp] theorem setCause_now (c : Cause) : (setCause c s).now = s.now := rfl
@[simp] theorem setCause_rDevid (c : Cause) : (setCause c s).rDevid = s.rDevid := rfl
@[simp] theorem setCause_rPower (c : Cause) : (setCause c s).rPower = s.rPower := rfl
@[simp] theorem setCause_rDcv (c : Cause) : (setCause c s).rDcv = s.rDcv := rfl
@[simp] theorem setCause_rDci (c : Cause) : (setCause c s).rDci = s.rDci := rfl
@[simp] theorem setCause_rAcv (c : Cause) : (setCause c s).rAcv = s.rAcv := rfl
@[simp] theorem setCause_rAci (c : Cause) : (setCause c s).rAci = s.rAci := rfl
@[simp] theorem setCause_rState (c : Cause) : (setCause c s).rState = s.rState := rfl
@[simp] theorem setCause_rTemp (c : Cause) : (setCause c s).rTemp = s.rTemp := rfl
@[simp] theorem setCause_rValid (c : Cause) : (setCause c s).rValid = s.rValid := rfl
@[simp] theorem setCause_buf (c : Cause) : (setCause c s).buf = s.buf := rfl
@[simp] theorem setCause_rxq (c : Cause) : (setCause c s).rxq = s.rxq := rfl
@[simp] theorem setCause_txd (c : Cause) : (setCause c s).txd = s.txd := rfl
@[simp] theorem setCause_txv (c : Cause) : (setCause c s).txv = s.txv := rfl
@[simp] theorem setCause_t0 (c : Cause) : (setCause c s).t0 = s.t0 := rfl
@[simp] theorem setCause_tmoCur (c : Cause) : (setCause c s).tmoCur = s.tmoCur := rfl
@[simp] theorem setCause_armed (c : Cause) : (setCause c s).armed = s.armed := rfl
@[simp] theorem setCause_exp (c : Cause) : (setCause c s).exp = s.exp := rfl
@[simp] theorem setCause_opc (c : Cause) : (setCause c s).opc = s.opc := rfl
@[simp] theorem setCause_idx (c : Cause) : (setCause c s).idx = s.idx := rfl
@[simp] theorem setCause_n (c : Cause) : (setCause c s).n = s.n := rfl
@[simp] theorem setCause_budget (c : Cause) : (setCause c s).budget = s.budget := rfl
@[simp] theorem setCause_lCmd (c : Cause) : (setCause c s).lCmd = s.lCmd := rfl
@[simp] theorem setCause_lDevid (c : Cause) : (setCause c s).lDevid = s.lDevid := rfl
@[simp] theorem setCause_lValue (c : Cause) : (setCause c s).lValue = s.lValue := rfl
@[simp] theorem setCause_lLen (c : Cause) : (setCause c s).lLen = s.lLen := rfl
@[simp] theorem setCause_lExpect (c : Cause) : (setCause c s).lExpect = s.lExpect := rfl
@[simp] theorem setCause_lP0 (c : Cause) : (setCause c s).lP0 = s.lP0 := rfl
@[simp] theorem setCause_lP1 (c : Cause) : (setCause c s).lP1 = s.lP1 := rfl
@[simp] theorem setCause_lTb (c : Cause) : (setCause c s).lTb = s.lTb := rfl
@[simp] theorem setCause_lTw (c : Cause) : (setCause c s).lTw = s.lTw := rfl
@[simp] theorem setCause_cause (c : Cause) : (setCause c s).cause = c := rfl
@[simp] theorem setCause_params (c : Cause) : (setCause c s).params = s.params := rfl
@[simp] theorem setCause_script (c : Cause) : (setCause c s).script = s.script := rfl
@[simp] theorem setCause_turn (c : Cause) : (setCause c s).turn = s.turn := rfl
@[simp] theorem setCause_wire (c : Cause) : (setCause c s).wire = s.wire := rfl
@[simp] theorem setCause_bus (c : Cause) : (setCause c s).bus = s.bus := rfl

/-! `setBuf` (R21). -/

@[simp] theorem setBuf_opReg (m : Memory) : (setBuf m s).opReg = s.opReg := rfl
@[simp] theorem setBuf_busy (m : Memory) : (setBuf m s).busy = s.busy := rfl
@[simp] theorem setBuf_done (m : Memory) : (setBuf m s).done = s.done := rfl
@[simp] theorem setBuf_ok (m : Memory) : (setBuf m s).ok = s.ok := rfl
@[simp] theorem setBuf_recd (m : Memory) : (setBuf m s).recd = s.recd := rfl
@[simp] theorem setBuf_rxOvf (m : Memory) : (setBuf m s).rxOvf = s.rxOvf := rfl
@[simp] theorem setBuf_rej (m : Memory) : (setBuf m s).rej = s.rej := rfl
@[simp] theorem setBuf_st (m : Memory) : (setBuf m s).st = s.st := rfl
@[simp] theorem setBuf_cmd (m : Memory) : (setBuf m s).cmd = s.cmd := rfl
@[simp] theorem setBuf_devid (m : Memory) : (setBuf m s).devid = s.devid := rfl
@[simp] theorem setBuf_value (m : Memory) : (setBuf m s).value = s.value := rfl
@[simp] theorem setBuf_len (m : Memory) : (setBuf m s).len = s.len := rfl
@[simp] theorem setBuf_expect (m : Memory) : (setBuf m s).expect = s.expect := rfl
@[simp] theorem setBuf_pattern (m : Memory) : (setBuf m s).pattern = s.pattern := rfl
@[simp] theorem setBuf_tmoBlock (m : Memory) : (setBuf m s).tmoBlock = s.tmoBlock := rfl
@[simp] theorem setBuf_tmoWait (m : Memory) : (setBuf m s).tmoWait = s.tmoWait := rfl
@[simp] theorem setBuf_csum (m : Memory) : (setBuf m s).csum = s.csum := rfl
@[simp] theorem setBuf_flen (m : Memory) : (setBuf m s).flen = s.flen := rfl
@[simp] theorem setBuf_now (m : Memory) : (setBuf m s).now = s.now := rfl
@[simp] theorem setBuf_rDevid (m : Memory) : (setBuf m s).rDevid = s.rDevid := rfl
@[simp] theorem setBuf_rPower (m : Memory) : (setBuf m s).rPower = s.rPower := rfl
@[simp] theorem setBuf_rDcv (m : Memory) : (setBuf m s).rDcv = s.rDcv := rfl
@[simp] theorem setBuf_rDci (m : Memory) : (setBuf m s).rDci = s.rDci := rfl
@[simp] theorem setBuf_rAcv (m : Memory) : (setBuf m s).rAcv = s.rAcv := rfl
@[simp] theorem setBuf_rAci (m : Memory) : (setBuf m s).rAci = s.rAci := rfl
@[simp] theorem setBuf_rState (m : Memory) : (setBuf m s).rState = s.rState := rfl
@[simp] theorem setBuf_rTemp (m : Memory) : (setBuf m s).rTemp = s.rTemp := rfl
@[simp] theorem setBuf_rValid (m : Memory) : (setBuf m s).rValid = s.rValid := rfl
@[simp] theorem setBuf_buf (m : Memory) : (setBuf m s).buf = m := rfl
@[simp] theorem setBuf_rxq (m : Memory) : (setBuf m s).rxq = s.rxq := rfl
@[simp] theorem setBuf_txd (m : Memory) : (setBuf m s).txd = s.txd := rfl
@[simp] theorem setBuf_txv (m : Memory) : (setBuf m s).txv = s.txv := rfl
@[simp] theorem setBuf_t0 (m : Memory) : (setBuf m s).t0 = s.t0 := rfl
@[simp] theorem setBuf_tmoCur (m : Memory) : (setBuf m s).tmoCur = s.tmoCur := rfl
@[simp] theorem setBuf_armed (m : Memory) : (setBuf m s).armed = s.armed := rfl
@[simp] theorem setBuf_exp (m : Memory) : (setBuf m s).exp = s.exp := rfl
@[simp] theorem setBuf_opc (m : Memory) : (setBuf m s).opc = s.opc := rfl
@[simp] theorem setBuf_idx (m : Memory) : (setBuf m s).idx = s.idx := rfl
@[simp] theorem setBuf_n (m : Memory) : (setBuf m s).n = s.n := rfl
@[simp] theorem setBuf_budget (m : Memory) : (setBuf m s).budget = s.budget := rfl
@[simp] theorem setBuf_lCmd (m : Memory) : (setBuf m s).lCmd = s.lCmd := rfl
@[simp] theorem setBuf_lDevid (m : Memory) : (setBuf m s).lDevid = s.lDevid := rfl
@[simp] theorem setBuf_lValue (m : Memory) : (setBuf m s).lValue = s.lValue := rfl
@[simp] theorem setBuf_lLen (m : Memory) : (setBuf m s).lLen = s.lLen := rfl
@[simp] theorem setBuf_lExpect (m : Memory) : (setBuf m s).lExpect = s.lExpect := rfl
@[simp] theorem setBuf_lP0 (m : Memory) : (setBuf m s).lP0 = s.lP0 := rfl
@[simp] theorem setBuf_lP1 (m : Memory) : (setBuf m s).lP1 = s.lP1 := rfl
@[simp] theorem setBuf_lTb (m : Memory) : (setBuf m s).lTb = s.lTb := rfl
@[simp] theorem setBuf_lTw (m : Memory) : (setBuf m s).lTw = s.lTw := rfl
@[simp] theorem setBuf_cause (m : Memory) : (setBuf m s).cause = s.cause := rfl
@[simp] theorem setBuf_params (m : Memory) : (setBuf m s).params = s.params := rfl
@[simp] theorem setBuf_script (m : Memory) : (setBuf m s).script = s.script := rfl
@[simp] theorem setBuf_turn (m : Memory) : (setBuf m s).turn = s.turn := rfl
@[simp] theorem setBuf_wire (m : Memory) : (setBuf m s).wire = s.wire := rfl
@[simp] theorem setBuf_bus (m : Memory) : (setBuf m s).bus = s.bus := rfl

/-! `setOpcode` (R48). -/

@[simp] theorem setOpcode_opReg (o : BitVec 4) : (setOpcode o s).opReg = o := rfl
@[simp] theorem setOpcode_busy (o : BitVec 4) : (setOpcode o s).busy = s.busy := rfl
@[simp] theorem setOpcode_done (o : BitVec 4) : (setOpcode o s).done = s.done := rfl
@[simp] theorem setOpcode_ok (o : BitVec 4) : (setOpcode o s).ok = s.ok := rfl
@[simp] theorem setOpcode_recd (o : BitVec 4) : (setOpcode o s).recd = s.recd := rfl
@[simp] theorem setOpcode_rxOvf (o : BitVec 4) : (setOpcode o s).rxOvf = s.rxOvf := rfl
@[simp] theorem setOpcode_rej (o : BitVec 4) : (setOpcode o s).rej = s.rej := rfl
@[simp] theorem setOpcode_st (o : BitVec 4) : (setOpcode o s).st = s.st := rfl
@[simp] theorem setOpcode_cmd (o : BitVec 4) : (setOpcode o s).cmd = s.cmd := rfl
@[simp] theorem setOpcode_devid (o : BitVec 4) : (setOpcode o s).devid = s.devid := rfl
@[simp] theorem setOpcode_value (o : BitVec 4) : (setOpcode o s).value = s.value := rfl
@[simp] theorem setOpcode_len (o : BitVec 4) : (setOpcode o s).len = s.len := rfl
@[simp] theorem setOpcode_expect (o : BitVec 4) : (setOpcode o s).expect = s.expect := rfl
@[simp] theorem setOpcode_pattern (o : BitVec 4) : (setOpcode o s).pattern = s.pattern := rfl
@[simp] theorem setOpcode_tmoBlock (o : BitVec 4) : (setOpcode o s).tmoBlock = s.tmoBlock := rfl
@[simp] theorem setOpcode_tmoWait (o : BitVec 4) : (setOpcode o s).tmoWait = s.tmoWait := rfl
@[simp] theorem setOpcode_csum (o : BitVec 4) : (setOpcode o s).csum = s.csum := rfl
@[simp] theorem setOpcode_flen (o : BitVec 4) : (setOpcode o s).flen = s.flen := rfl
@[simp] theorem setOpcode_now (o : BitVec 4) : (setOpcode o s).now = s.now := rfl
@[simp] theorem setOpcode_rDevid (o : BitVec 4) : (setOpcode o s).rDevid = s.rDevid := rfl
@[simp] theorem setOpcode_rPower (o : BitVec 4) : (setOpcode o s).rPower = s.rPower := rfl
@[simp] theorem setOpcode_rDcv (o : BitVec 4) : (setOpcode o s).rDcv = s.rDcv := rfl
@[simp] theorem setOpcode_rDci (o : BitVec 4) : (setOpcode o s).rDci = s.rDci := rfl
@[simp] theorem setOpcode_rAcv (o : BitVec 4) : (setOpcode o s).rAcv = s.rAcv := rfl
@[simp] theorem setOpcode_rAci (o : BitVec 4) : (setOpcode o s).rAci = s.rAci := rfl
@[simp] theorem setOpcode_rState (o : BitVec 4) : (setOpcode o s).rState = s.rState := rfl
@[simp] theorem setOpcode_rTemp (o : BitVec 4) : (setOpcode o s).rTemp = s.rTemp := rfl
@[simp] theorem setOpcode_rValid (o : BitVec 4) : (setOpcode o s).rValid = s.rValid := rfl
@[simp] theorem setOpcode_buf (o : BitVec 4) : (setOpcode o s).buf = s.buf := rfl
@[simp] theorem setOpcode_rxq (o : BitVec 4) : (setOpcode o s).rxq = s.rxq := rfl
@[simp] theorem setOpcode_txd (o : BitVec 4) : (setOpcode o s).txd = s.txd := rfl
@[simp] theorem setOpcode_txv (o : BitVec 4) : (setOpcode o s).txv = s.txv := rfl
@[simp] theorem setOpcode_t0 (o : BitVec 4) : (setOpcode o s).t0 = s.t0 := rfl
@[simp] theorem setOpcode_tmoCur (o : BitVec 4) : (setOpcode o s).tmoCur = s.tmoCur := rfl
@[simp] theorem setOpcode_armed (o : BitVec 4) : (setOpcode o s).armed = s.armed := rfl
@[simp] theorem setOpcode_exp (o : BitVec 4) : (setOpcode o s).exp = s.exp := rfl
@[simp] theorem setOpcode_opc (o : BitVec 4) : (setOpcode o s).opc = o := rfl
@[simp] theorem setOpcode_idx (o : BitVec 4) : (setOpcode o s).idx = s.idx := rfl
@[simp] theorem setOpcode_n (o : BitVec 4) : (setOpcode o s).n = s.n := rfl
@[simp] theorem setOpcode_budget (o : BitVec 4) : (setOpcode o s).budget = s.budget := rfl
@[simp] theorem setOpcode_lCmd (o : BitVec 4) : (setOpcode o s).lCmd = s.lCmd := rfl
@[simp] theorem setOpcode_lDevid (o : BitVec 4) : (setOpcode o s).lDevid = s.lDevid := rfl
@[simp] theorem setOpcode_lValue (o : BitVec 4) : (setOpcode o s).lValue = s.lValue := rfl
@[simp] theorem setOpcode_lLen (o : BitVec 4) : (setOpcode o s).lLen = s.lLen := rfl
@[simp] theorem setOpcode_lExpect (o : BitVec 4) : (setOpcode o s).lExpect = s.lExpect := rfl
@[simp] theorem setOpcode_lP0 (o : BitVec 4) : (setOpcode o s).lP0 = s.lP0 := rfl
@[simp] theorem setOpcode_lP1 (o : BitVec 4) : (setOpcode o s).lP1 = s.lP1 := rfl
@[simp] theorem setOpcode_lTb (o : BitVec 4) : (setOpcode o s).lTb = s.lTb := rfl
@[simp] theorem setOpcode_lTw (o : BitVec 4) : (setOpcode o s).lTw = s.lTw := rfl
@[simp] theorem setOpcode_cause (o : BitVec 4) : (setOpcode o s).cause = s.cause := rfl
@[simp] theorem setOpcode_params (o : BitVec 4) : (setOpcode o s).params = s.params := rfl
@[simp] theorem setOpcode_script (o : BitVec 4) : (setOpcode o s).script = s.script := rfl
@[simp] theorem setOpcode_turn (o : BitVec 4) : (setOpcode o s).turn = s.turn := rfl
@[simp] theorem setOpcode_wire (o : BitVec 4) : (setOpcode o s).wire = s.wire := rfl
@[simp] theorem setOpcode_bus (o : BitVec 4) : (setOpcode o s).bus = s.bus := rfl

/-! `arm` (R74). -/

@[simp] theorem arm_opReg (t : Word) : (arm t s).opReg = s.opReg := rfl
@[simp] theorem arm_busy (t : Word) : (arm t s).busy = s.busy := rfl
@[simp] theorem arm_done (t : Word) : (arm t s).done = s.done := rfl
@[simp] theorem arm_ok (t : Word) : (arm t s).ok = s.ok := rfl
@[simp] theorem arm_recd (t : Word) : (arm t s).recd = s.recd := rfl
@[simp] theorem arm_rxOvf (t : Word) : (arm t s).rxOvf = s.rxOvf := rfl
@[simp] theorem arm_rej (t : Word) : (arm t s).rej = s.rej := rfl
@[simp] theorem arm_st (t : Word) : (arm t s).st = s.st := rfl
@[simp] theorem arm_cmd (t : Word) : (arm t s).cmd = s.cmd := rfl
@[simp] theorem arm_devid (t : Word) : (arm t s).devid = s.devid := rfl
@[simp] theorem arm_value (t : Word) : (arm t s).value = s.value := rfl
@[simp] theorem arm_len (t : Word) : (arm t s).len = s.len := rfl
@[simp] theorem arm_expect (t : Word) : (arm t s).expect = s.expect := rfl
@[simp] theorem arm_pattern (t : Word) : (arm t s).pattern = s.pattern := rfl
@[simp] theorem arm_tmoBlock (t : Word) : (arm t s).tmoBlock = s.tmoBlock := rfl
@[simp] theorem arm_tmoWait (t : Word) : (arm t s).tmoWait = s.tmoWait := rfl
@[simp] theorem arm_csum (t : Word) : (arm t s).csum = s.csum := rfl
@[simp] theorem arm_flen (t : Word) : (arm t s).flen = s.flen := rfl
@[simp] theorem arm_now (t : Word) : (arm t s).now = s.now := rfl
@[simp] theorem arm_rDevid (t : Word) : (arm t s).rDevid = s.rDevid := rfl
@[simp] theorem arm_rPower (t : Word) : (arm t s).rPower = s.rPower := rfl
@[simp] theorem arm_rDcv (t : Word) : (arm t s).rDcv = s.rDcv := rfl
@[simp] theorem arm_rDci (t : Word) : (arm t s).rDci = s.rDci := rfl
@[simp] theorem arm_rAcv (t : Word) : (arm t s).rAcv = s.rAcv := rfl
@[simp] theorem arm_rAci (t : Word) : (arm t s).rAci = s.rAci := rfl
@[simp] theorem arm_rState (t : Word) : (arm t s).rState = s.rState := rfl
@[simp] theorem arm_rTemp (t : Word) : (arm t s).rTemp = s.rTemp := rfl
@[simp] theorem arm_rValid (t : Word) : (arm t s).rValid = s.rValid := rfl
@[simp] theorem arm_buf (t : Word) : (arm t s).buf = s.buf := rfl
@[simp] theorem arm_rxq (t : Word) : (arm t s).rxq = s.rxq := rfl
@[simp] theorem arm_txd (t : Word) : (arm t s).txd = s.txd := rfl
@[simp] theorem arm_txv (t : Word) : (arm t s).txv = s.txv := rfl
@[simp] theorem arm_t0 (t : Word) : (arm t s).t0 = s.now := rfl
@[simp] theorem arm_tmoCur (t : Word) : (arm t s).tmoCur = t := rfl
@[simp] theorem arm_armed (t : Word) : (arm t s).armed = true := rfl
@[simp] theorem arm_exp (t : Word) : (arm t s).exp = decide (t = 0#32) := rfl
@[simp] theorem arm_opc (t : Word) : (arm t s).opc = s.opc := rfl
@[simp] theorem arm_idx (t : Word) : (arm t s).idx = s.idx := rfl
@[simp] theorem arm_n (t : Word) : (arm t s).n = s.n := rfl
@[simp] theorem arm_budget (t : Word) : (arm t s).budget = s.budget := rfl
@[simp] theorem arm_lCmd (t : Word) : (arm t s).lCmd = s.lCmd := rfl
@[simp] theorem arm_lDevid (t : Word) : (arm t s).lDevid = s.lDevid := rfl
@[simp] theorem arm_lValue (t : Word) : (arm t s).lValue = s.lValue := rfl
@[simp] theorem arm_lLen (t : Word) : (arm t s).lLen = s.lLen := rfl
@[simp] theorem arm_lExpect (t : Word) : (arm t s).lExpect = s.lExpect := rfl
@[simp] theorem arm_lP0 (t : Word) : (arm t s).lP0 = s.lP0 := rfl
@[simp] theorem arm_lP1 (t : Word) : (arm t s).lP1 = s.lP1 := rfl
@[simp] theorem arm_lTb (t : Word) : (arm t s).lTb = s.lTb := rfl
@[simp] theorem arm_lTw (t : Word) : (arm t s).lTw = s.lTw := rfl
@[simp] theorem arm_cause (t : Word) : (arm t s).cause = s.cause := rfl
@[simp] theorem arm_params (t : Word) : (arm t s).params = s.params := rfl
@[simp] theorem arm_script (t : Word) : (arm t s).script = s.script := rfl
@[simp] theorem arm_turn (t : Word) : (arm t s).turn = s.turn := rfl
@[simp] theorem arm_wire (t : Word) : (arm t s).wire = s.wire := rfl
@[simp] theorem arm_bus (t : Word) : (arm t s).bus = s.bus := rfl

/-! `disarm` (R74). -/

@[simp] theorem disarm_opReg : (disarm s).opReg = s.opReg := rfl
@[simp] theorem disarm_busy : (disarm s).busy = s.busy := rfl
@[simp] theorem disarm_done : (disarm s).done = s.done := rfl
@[simp] theorem disarm_ok : (disarm s).ok = s.ok := rfl
@[simp] theorem disarm_recd : (disarm s).recd = s.recd := rfl
@[simp] theorem disarm_rxOvf : (disarm s).rxOvf = s.rxOvf := rfl
@[simp] theorem disarm_rej : (disarm s).rej = s.rej := rfl
@[simp] theorem disarm_st : (disarm s).st = s.st := rfl
@[simp] theorem disarm_cmd : (disarm s).cmd = s.cmd := rfl
@[simp] theorem disarm_devid : (disarm s).devid = s.devid := rfl
@[simp] theorem disarm_value : (disarm s).value = s.value := rfl
@[simp] theorem disarm_len : (disarm s).len = s.len := rfl
@[simp] theorem disarm_expect : (disarm s).expect = s.expect := rfl
@[simp] theorem disarm_pattern : (disarm s).pattern = s.pattern := rfl
@[simp] theorem disarm_tmoBlock : (disarm s).tmoBlock = s.tmoBlock := rfl
@[simp] theorem disarm_tmoWait : (disarm s).tmoWait = s.tmoWait := rfl
@[simp] theorem disarm_csum : (disarm s).csum = s.csum := rfl
@[simp] theorem disarm_flen : (disarm s).flen = s.flen := rfl
@[simp] theorem disarm_now : (disarm s).now = s.now := rfl
@[simp] theorem disarm_rDevid : (disarm s).rDevid = s.rDevid := rfl
@[simp] theorem disarm_rPower : (disarm s).rPower = s.rPower := rfl
@[simp] theorem disarm_rDcv : (disarm s).rDcv = s.rDcv := rfl
@[simp] theorem disarm_rDci : (disarm s).rDci = s.rDci := rfl
@[simp] theorem disarm_rAcv : (disarm s).rAcv = s.rAcv := rfl
@[simp] theorem disarm_rAci : (disarm s).rAci = s.rAci := rfl
@[simp] theorem disarm_rState : (disarm s).rState = s.rState := rfl
@[simp] theorem disarm_rTemp : (disarm s).rTemp = s.rTemp := rfl
@[simp] theorem disarm_rValid : (disarm s).rValid = s.rValid := rfl
@[simp] theorem disarm_buf : (disarm s).buf = s.buf := rfl
@[simp] theorem disarm_rxq : (disarm s).rxq = s.rxq := rfl
@[simp] theorem disarm_txd : (disarm s).txd = s.txd := rfl
@[simp] theorem disarm_txv : (disarm s).txv = s.txv := rfl
@[simp] theorem disarm_t0 : (disarm s).t0 = s.t0 := rfl
@[simp] theorem disarm_tmoCur : (disarm s).tmoCur = s.tmoCur := rfl
@[simp] theorem disarm_armed : (disarm s).armed = false := rfl
@[simp] theorem disarm_exp : (disarm s).exp = false := rfl
@[simp] theorem disarm_opc : (disarm s).opc = s.opc := rfl
@[simp] theorem disarm_idx : (disarm s).idx = s.idx := rfl
@[simp] theorem disarm_n : (disarm s).n = s.n := rfl
@[simp] theorem disarm_budget : (disarm s).budget = s.budget := rfl
@[simp] theorem disarm_lCmd : (disarm s).lCmd = s.lCmd := rfl
@[simp] theorem disarm_lDevid : (disarm s).lDevid = s.lDevid := rfl
@[simp] theorem disarm_lValue : (disarm s).lValue = s.lValue := rfl
@[simp] theorem disarm_lLen : (disarm s).lLen = s.lLen := rfl
@[simp] theorem disarm_lExpect : (disarm s).lExpect = s.lExpect := rfl
@[simp] theorem disarm_lP0 : (disarm s).lP0 = s.lP0 := rfl
@[simp] theorem disarm_lP1 : (disarm s).lP1 = s.lP1 := rfl
@[simp] theorem disarm_lTb : (disarm s).lTb = s.lTb := rfl
@[simp] theorem disarm_lTw : (disarm s).lTw = s.lTw := rfl
@[simp] theorem disarm_cause : (disarm s).cause = s.cause := rfl
@[simp] theorem disarm_params : (disarm s).params = s.params := rfl
@[simp] theorem disarm_script : (disarm s).script = s.script := rfl
@[simp] theorem disarm_turn : (disarm s).turn = s.turn := rfl
@[simp] theorem disarm_wire : (disarm s).wire = s.wire := rfl
@[simp] theorem disarm_bus : (disarm s).bus = s.bus := rfl

/-! `tick` (R24). -/

@[simp] theorem tick_opReg : (tick s).opReg = s.opReg := rfl
@[simp] theorem tick_busy : (tick s).busy = s.busy := rfl
@[simp] theorem tick_done : (tick s).done = s.done := rfl
@[simp] theorem tick_ok : (tick s).ok = s.ok := rfl
@[simp] theorem tick_recd : (tick s).recd = s.recd := rfl
@[simp] theorem tick_rxOvf : (tick s).rxOvf = s.rxOvf := rfl
@[simp] theorem tick_rej : (tick s).rej = s.rej := rfl
@[simp] theorem tick_st : (tick s).st = s.st := rfl
@[simp] theorem tick_cmd : (tick s).cmd = s.cmd := rfl
@[simp] theorem tick_devid : (tick s).devid = s.devid := rfl
@[simp] theorem tick_value : (tick s).value = s.value := rfl
@[simp] theorem tick_len : (tick s).len = s.len := rfl
@[simp] theorem tick_expect : (tick s).expect = s.expect := rfl
@[simp] theorem tick_pattern : (tick s).pattern = s.pattern := rfl
@[simp] theorem tick_tmoBlock : (tick s).tmoBlock = s.tmoBlock := rfl
@[simp] theorem tick_tmoWait : (tick s).tmoWait = s.tmoWait := rfl
@[simp] theorem tick_csum : (tick s).csum = s.csum := rfl
@[simp] theorem tick_flen : (tick s).flen = s.flen := rfl
@[simp] theorem tick_now : (tick s).now = s.now + 1#32 := rfl
@[simp] theorem tick_rDevid : (tick s).rDevid = s.rDevid := rfl
@[simp] theorem tick_rPower : (tick s).rPower = s.rPower := rfl
@[simp] theorem tick_rDcv : (tick s).rDcv = s.rDcv := rfl
@[simp] theorem tick_rDci : (tick s).rDci = s.rDci := rfl
@[simp] theorem tick_rAcv : (tick s).rAcv = s.rAcv := rfl
@[simp] theorem tick_rAci : (tick s).rAci = s.rAci := rfl
@[simp] theorem tick_rState : (tick s).rState = s.rState := rfl
@[simp] theorem tick_rTemp : (tick s).rTemp = s.rTemp := rfl
@[simp] theorem tick_rValid : (tick s).rValid = s.rValid := rfl
@[simp] theorem tick_buf : (tick s).buf = s.buf := rfl
@[simp] theorem tick_rxq : (tick s).rxq = s.rxq := rfl
@[simp] theorem tick_txd : (tick s).txd = s.txd := rfl
@[simp] theorem tick_txv : (tick s).txv = s.txv := rfl
@[simp] theorem tick_t0 : (tick s).t0 = s.t0 := rfl
@[simp] theorem tick_tmoCur : (tick s).tmoCur = s.tmoCur := rfl
@[simp] theorem tick_armed : (tick s).armed = s.armed := rfl
@[simp] theorem tick_exp : (tick s).exp = (s.exp || (s.armed && decide (s.tmoCur ≤ s.now + 1#32 - s.t0))) := rfl
@[simp] theorem tick_opc : (tick s).opc = s.opc := rfl
@[simp] theorem tick_idx : (tick s).idx = s.idx := rfl
@[simp] theorem tick_n : (tick s).n = s.n := rfl
@[simp] theorem tick_budget : (tick s).budget = s.budget := rfl
@[simp] theorem tick_lCmd : (tick s).lCmd = s.lCmd := rfl
@[simp] theorem tick_lDevid : (tick s).lDevid = s.lDevid := rfl
@[simp] theorem tick_lValue : (tick s).lValue = s.lValue := rfl
@[simp] theorem tick_lLen : (tick s).lLen = s.lLen := rfl
@[simp] theorem tick_lExpect : (tick s).lExpect = s.lExpect := rfl
@[simp] theorem tick_lP0 : (tick s).lP0 = s.lP0 := rfl
@[simp] theorem tick_lP1 : (tick s).lP1 = s.lP1 := rfl
@[simp] theorem tick_lTb : (tick s).lTb = s.lTb := rfl
@[simp] theorem tick_lTw : (tick s).lTw = s.lTw := rfl
@[simp] theorem tick_cause : (tick s).cause = s.cause := rfl
@[simp] theorem tick_params : (tick s).params = s.params := rfl
@[simp] theorem tick_script : (tick s).script = s.script := rfl
@[simp] theorem tick_turn : (tick s).turn = s.turn := rfl
@[simp] theorem tick_wire : (tick s).wire = s.wire := rfl
@[simp] theorem tick_bus : (tick s).bus = s.bus := rfl

/-! `discard` (R22). -/

@[simp] theorem discard_opReg (k : Nat) : (discard k s).opReg = s.opReg := rfl
@[simp] theorem discard_busy (k : Nat) : (discard k s).busy = s.busy := rfl
@[simp] theorem discard_done (k : Nat) : (discard k s).done = s.done := rfl
@[simp] theorem discard_ok (k : Nat) : (discard k s).ok = s.ok := rfl
@[simp] theorem discard_recd (k : Nat) : (discard k s).recd = s.recd := rfl
@[simp] theorem discard_rxOvf (k : Nat) : (discard k s).rxOvf = s.rxOvf := rfl
@[simp] theorem discard_rej (k : Nat) : (discard k s).rej = s.rej := rfl
@[simp] theorem discard_st (k : Nat) : (discard k s).st = s.st := rfl
@[simp] theorem discard_cmd (k : Nat) : (discard k s).cmd = s.cmd := rfl
@[simp] theorem discard_devid (k : Nat) : (discard k s).devid = s.devid := rfl
@[simp] theorem discard_value (k : Nat) : (discard k s).value = s.value := rfl
@[simp] theorem discard_len (k : Nat) : (discard k s).len = s.len := rfl
@[simp] theorem discard_expect (k : Nat) : (discard k s).expect = s.expect := rfl
@[simp] theorem discard_pattern (k : Nat) : (discard k s).pattern = s.pattern := rfl
@[simp] theorem discard_tmoBlock (k : Nat) : (discard k s).tmoBlock = s.tmoBlock := rfl
@[simp] theorem discard_tmoWait (k : Nat) : (discard k s).tmoWait = s.tmoWait := rfl
@[simp] theorem discard_csum (k : Nat) : (discard k s).csum = s.csum := rfl
@[simp] theorem discard_flen (k : Nat) : (discard k s).flen = s.flen := rfl
@[simp] theorem discard_now (k : Nat) : (discard k s).now = s.now := rfl
@[simp] theorem discard_rDevid (k : Nat) : (discard k s).rDevid = s.rDevid := rfl
@[simp] theorem discard_rPower (k : Nat) : (discard k s).rPower = s.rPower := rfl
@[simp] theorem discard_rDcv (k : Nat) : (discard k s).rDcv = s.rDcv := rfl
@[simp] theorem discard_rDci (k : Nat) : (discard k s).rDci = s.rDci := rfl
@[simp] theorem discard_rAcv (k : Nat) : (discard k s).rAcv = s.rAcv := rfl
@[simp] theorem discard_rAci (k : Nat) : (discard k s).rAci = s.rAci := rfl
@[simp] theorem discard_rState (k : Nat) : (discard k s).rState = s.rState := rfl
@[simp] theorem discard_rTemp (k : Nat) : (discard k s).rTemp = s.rTemp := rfl
@[simp] theorem discard_rValid (k : Nat) : (discard k s).rValid = s.rValid := rfl
@[simp] theorem discard_buf (k : Nat) : (discard k s).buf = s.buf := rfl
@[simp] theorem discard_rxq (k : Nat) : (discard k s).rxq = s.rxq.drop k := rfl
@[simp] theorem discard_txd (k : Nat) : (discard k s).txd = s.txd := rfl
@[simp] theorem discard_txv (k : Nat) : (discard k s).txv = s.txv := rfl
@[simp] theorem discard_t0 (k : Nat) : (discard k s).t0 = s.t0 := rfl
@[simp] theorem discard_tmoCur (k : Nat) : (discard k s).tmoCur = s.tmoCur := rfl
@[simp] theorem discard_armed (k : Nat) : (discard k s).armed = s.armed := rfl
@[simp] theorem discard_exp (k : Nat) : (discard k s).exp = s.exp := rfl
@[simp] theorem discard_opc (k : Nat) : (discard k s).opc = s.opc := rfl
@[simp] theorem discard_idx (k : Nat) : (discard k s).idx = s.idx := rfl
@[simp] theorem discard_n (k : Nat) : (discard k s).n = s.n := rfl
@[simp] theorem discard_budget (k : Nat) : (discard k s).budget = s.budget := rfl
@[simp] theorem discard_lCmd (k : Nat) : (discard k s).lCmd = s.lCmd := rfl
@[simp] theorem discard_lDevid (k : Nat) : (discard k s).lDevid = s.lDevid := rfl
@[simp] theorem discard_lValue (k : Nat) : (discard k s).lValue = s.lValue := rfl
@[simp] theorem discard_lLen (k : Nat) : (discard k s).lLen = s.lLen := rfl
@[simp] theorem discard_lExpect (k : Nat) : (discard k s).lExpect = s.lExpect := rfl
@[simp] theorem discard_lP0 (k : Nat) : (discard k s).lP0 = s.lP0 := rfl
@[simp] theorem discard_lP1 (k : Nat) : (discard k s).lP1 = s.lP1 := rfl
@[simp] theorem discard_lTb (k : Nat) : (discard k s).lTb = s.lTb := rfl
@[simp] theorem discard_lTw (k : Nat) : (discard k s).lTw = s.lTw := rfl
@[simp] theorem discard_cause (k : Nat) : (discard k s).cause = s.cause := rfl
@[simp] theorem discard_params (k : Nat) : (discard k s).params = s.params := rfl
@[simp] theorem discard_script (k : Nat) : (discard k s).script = s.script := rfl
@[simp] theorem discard_turn (k : Nat) : (discard k s).turn = s.turn := rfl
@[simp] theorem discard_wire (k : Nat) : (discard k s).wire = s.wire := rfl
@[simp] theorem discard_bus (k : Nat) : (discard k s).bus = s.bus := rfl

/-! `popInto` (R22). -/

@[simp] theorem popInto_opReg (i k : Nat) : (popInto i k s).opReg = s.opReg := rfl
@[simp] theorem popInto_busy (i k : Nat) : (popInto i k s).busy = s.busy := rfl
@[simp] theorem popInto_done (i k : Nat) : (popInto i k s).done = s.done := rfl
@[simp] theorem popInto_ok (i k : Nat) : (popInto i k s).ok = s.ok := rfl
@[simp] theorem popInto_recd (i k : Nat) : (popInto i k s).recd = s.recd := rfl
@[simp] theorem popInto_rxOvf (i k : Nat) : (popInto i k s).rxOvf = s.rxOvf := rfl
@[simp] theorem popInto_rej (i k : Nat) : (popInto i k s).rej = s.rej := rfl
@[simp] theorem popInto_st (i k : Nat) : (popInto i k s).st = s.st := rfl
@[simp] theorem popInto_cmd (i k : Nat) : (popInto i k s).cmd = s.cmd := rfl
@[simp] theorem popInto_devid (i k : Nat) : (popInto i k s).devid = s.devid := rfl
@[simp] theorem popInto_value (i k : Nat) : (popInto i k s).value = s.value := rfl
@[simp] theorem popInto_len (i k : Nat) : (popInto i k s).len = s.len := rfl
@[simp] theorem popInto_expect (i k : Nat) : (popInto i k s).expect = s.expect := rfl
@[simp] theorem popInto_pattern (i k : Nat) : (popInto i k s).pattern = s.pattern := rfl
@[simp] theorem popInto_tmoBlock (i k : Nat) : (popInto i k s).tmoBlock = s.tmoBlock := rfl
@[simp] theorem popInto_tmoWait (i k : Nat) : (popInto i k s).tmoWait = s.tmoWait := rfl
@[simp] theorem popInto_csum (i k : Nat) : (popInto i k s).csum = s.csum := rfl
@[simp] theorem popInto_flen (i k : Nat) : (popInto i k s).flen = s.flen := rfl
@[simp] theorem popInto_now (i k : Nat) : (popInto i k s).now = s.now := rfl
@[simp] theorem popInto_rDevid (i k : Nat) : (popInto i k s).rDevid = s.rDevid := rfl
@[simp] theorem popInto_rPower (i k : Nat) : (popInto i k s).rPower = s.rPower := rfl
@[simp] theorem popInto_rDcv (i k : Nat) : (popInto i k s).rDcv = s.rDcv := rfl
@[simp] theorem popInto_rDci (i k : Nat) : (popInto i k s).rDci = s.rDci := rfl
@[simp] theorem popInto_rAcv (i k : Nat) : (popInto i k s).rAcv = s.rAcv := rfl
@[simp] theorem popInto_rAci (i k : Nat) : (popInto i k s).rAci = s.rAci := rfl
@[simp] theorem popInto_rState (i k : Nat) : (popInto i k s).rState = s.rState := rfl
@[simp] theorem popInto_rTemp (i k : Nat) : (popInto i k s).rTemp = s.rTemp := rfl
@[simp] theorem popInto_rValid (i k : Nat) : (popInto i k s).rValid = s.rValid := rfl
@[simp] theorem popInto_buf (i k : Nat) : (popInto i k s).buf = Memory.writeBytes s.buf i (s.rxq.take k) := rfl
@[simp] theorem popInto_rxq (i k : Nat) : (popInto i k s).rxq = s.rxq.drop k := rfl
@[simp] theorem popInto_txd (i k : Nat) : (popInto i k s).txd = s.txd := rfl
@[simp] theorem popInto_txv (i k : Nat) : (popInto i k s).txv = s.txv := rfl
@[simp] theorem popInto_t0 (i k : Nat) : (popInto i k s).t0 = s.t0 := rfl
@[simp] theorem popInto_tmoCur (i k : Nat) : (popInto i k s).tmoCur = s.tmoCur := rfl
@[simp] theorem popInto_armed (i k : Nat) : (popInto i k s).armed = s.armed := rfl
@[simp] theorem popInto_exp (i k : Nat) : (popInto i k s).exp = s.exp := rfl
@[simp] theorem popInto_opc (i k : Nat) : (popInto i k s).opc = s.opc := rfl
@[simp] theorem popInto_idx (i k : Nat) : (popInto i k s).idx = s.idx := rfl
@[simp] theorem popInto_n (i k : Nat) : (popInto i k s).n = s.n := rfl
@[simp] theorem popInto_budget (i k : Nat) : (popInto i k s).budget = s.budget := rfl
@[simp] theorem popInto_lCmd (i k : Nat) : (popInto i k s).lCmd = s.lCmd := rfl
@[simp] theorem popInto_lDevid (i k : Nat) : (popInto i k s).lDevid = s.lDevid := rfl
@[simp] theorem popInto_lValue (i k : Nat) : (popInto i k s).lValue = s.lValue := rfl
@[simp] theorem popInto_lLen (i k : Nat) : (popInto i k s).lLen = s.lLen := rfl
@[simp] theorem popInto_lExpect (i k : Nat) : (popInto i k s).lExpect = s.lExpect := rfl
@[simp] theorem popInto_lP0 (i k : Nat) : (popInto i k s).lP0 = s.lP0 := rfl
@[simp] theorem popInto_lP1 (i k : Nat) : (popInto i k s).lP1 = s.lP1 := rfl
@[simp] theorem popInto_lTb (i k : Nat) : (popInto i k s).lTb = s.lTb := rfl
@[simp] theorem popInto_lTw (i k : Nat) : (popInto i k s).lTw = s.lTw := rfl
@[simp] theorem popInto_cause (i k : Nat) : (popInto i k s).cause = s.cause := rfl
@[simp] theorem popInto_params (i k : Nat) : (popInto i k s).params = s.params := rfl
@[simp] theorem popInto_script (i k : Nat) : (popInto i k s).script = s.script := rfl
@[simp] theorem popInto_turn (i k : Nat) : (popInto i k s).turn = s.turn := rfl
@[simp] theorem popInto_wire (i k : Nat) : (popInto i k s).wire = s.wire := rfl
@[simp] theorem popInto_bus (i k : Nat) : (popInto i k s).bus = s.bus := rfl

/-! `offerByte` (R78). -/

@[simp] theorem offerByte_opReg : (offerByte s).opReg = s.opReg := rfl
@[simp] theorem offerByte_busy : (offerByte s).busy = s.busy := rfl
@[simp] theorem offerByte_done : (offerByte s).done = s.done := rfl
@[simp] theorem offerByte_ok : (offerByte s).ok = s.ok := rfl
@[simp] theorem offerByte_recd : (offerByte s).recd = s.recd := rfl
@[simp] theorem offerByte_rxOvf : (offerByte s).rxOvf = s.rxOvf := rfl
@[simp] theorem offerByte_rej : (offerByte s).rej = s.rej := rfl
@[simp] theorem offerByte_st : (offerByte s).st = s.st := rfl
@[simp] theorem offerByte_cmd : (offerByte s).cmd = s.cmd := rfl
@[simp] theorem offerByte_devid : (offerByte s).devid = s.devid := rfl
@[simp] theorem offerByte_value : (offerByte s).value = s.value := rfl
@[simp] theorem offerByte_len : (offerByte s).len = s.len := rfl
@[simp] theorem offerByte_expect : (offerByte s).expect = s.expect := rfl
@[simp] theorem offerByte_pattern : (offerByte s).pattern = s.pattern := rfl
@[simp] theorem offerByte_tmoBlock : (offerByte s).tmoBlock = s.tmoBlock := rfl
@[simp] theorem offerByte_tmoWait : (offerByte s).tmoWait = s.tmoWait := rfl
@[simp] theorem offerByte_csum : (offerByte s).csum = s.csum := rfl
@[simp] theorem offerByte_flen : (offerByte s).flen = s.flen := rfl
@[simp] theorem offerByte_now : (offerByte s).now = s.now := rfl
@[simp] theorem offerByte_rDevid : (offerByte s).rDevid = s.rDevid := rfl
@[simp] theorem offerByte_rPower : (offerByte s).rPower = s.rPower := rfl
@[simp] theorem offerByte_rDcv : (offerByte s).rDcv = s.rDcv := rfl
@[simp] theorem offerByte_rDci : (offerByte s).rDci = s.rDci := rfl
@[simp] theorem offerByte_rAcv : (offerByte s).rAcv = s.rAcv := rfl
@[simp] theorem offerByte_rAci : (offerByte s).rAci = s.rAci := rfl
@[simp] theorem offerByte_rState : (offerByte s).rState = s.rState := rfl
@[simp] theorem offerByte_rTemp : (offerByte s).rTemp = s.rTemp := rfl
@[simp] theorem offerByte_rValid : (offerByte s).rValid = s.rValid := rfl
@[simp] theorem offerByte_buf : (offerByte s).buf = s.buf := rfl
@[simp] theorem offerByte_rxq : (offerByte s).rxq = s.rxq := rfl
@[simp] theorem offerByte_txd : (offerByte s).txd = Memory.read s.buf s.idx := rfl
@[simp] theorem offerByte_txv : (offerByte s).txv = true := rfl
@[simp] theorem offerByte_t0 : (offerByte s).t0 = s.t0 := rfl
@[simp] theorem offerByte_tmoCur : (offerByte s).tmoCur = s.tmoCur := rfl
@[simp] theorem offerByte_armed : (offerByte s).armed = s.armed := rfl
@[simp] theorem offerByte_exp : (offerByte s).exp = s.exp := rfl
@[simp] theorem offerByte_opc : (offerByte s).opc = s.opc := rfl
@[simp] theorem offerByte_idx : (offerByte s).idx = s.idx + 1 := rfl
@[simp] theorem offerByte_n : (offerByte s).n = s.n := rfl
@[simp] theorem offerByte_budget : (offerByte s).budget = s.budget := rfl
@[simp] theorem offerByte_lCmd : (offerByte s).lCmd = s.lCmd := rfl
@[simp] theorem offerByte_lDevid : (offerByte s).lDevid = s.lDevid := rfl
@[simp] theorem offerByte_lValue : (offerByte s).lValue = s.lValue := rfl
@[simp] theorem offerByte_lLen : (offerByte s).lLen = s.lLen := rfl
@[simp] theorem offerByte_lExpect : (offerByte s).lExpect = s.lExpect := rfl
@[simp] theorem offerByte_lP0 : (offerByte s).lP0 = s.lP0 := rfl
@[simp] theorem offerByte_lP1 : (offerByte s).lP1 = s.lP1 := rfl
@[simp] theorem offerByte_lTb : (offerByte s).lTb = s.lTb := rfl
@[simp] theorem offerByte_lTw : (offerByte s).lTw = s.lTw := rfl
@[simp] theorem offerByte_cause : (offerByte s).cause = s.cause := rfl
@[simp] theorem offerByte_params : (offerByte s).params = s.params := rfl
@[simp] theorem offerByte_script : (offerByte s).script = s.script := rfl
@[simp] theorem offerByte_turn : (offerByte s).turn = s.turn := rfl
@[simp] theorem offerByte_wire : (offerByte s).wire = s.wire := rfl
@[simp] theorem offerByte_bus : (offerByte s).bus = s.bus := rfl

/-! `clearSticky` (R17). -/

@[simp] theorem clearSticky_opReg (v : Word) : (clearSticky v s).opReg = s.opReg := rfl
@[simp] theorem clearSticky_busy (v : Word) : (clearSticky v s).busy = s.busy := rfl
@[simp] theorem clearSticky_done (v : Word) : (clearSticky v s).done = s.done := rfl
@[simp] theorem clearSticky_ok (v : Word) : (clearSticky v s).ok = s.ok := rfl
@[simp] theorem clearSticky_recd (v : Word) : (clearSticky v s).recd = s.recd := rfl
@[simp] theorem clearSticky_rxOvf (v : Word) : (clearSticky v s).rxOvf = (s.rxOvf && !v.getLsbD 4) := rfl
@[simp] theorem clearSticky_rej (v : Word) : (clearSticky v s).rej = (s.rej && !v.getLsbD 5) := rfl
@[simp] theorem clearSticky_st (v : Word) : (clearSticky v s).st = s.st := rfl
@[simp] theorem clearSticky_cmd (v : Word) : (clearSticky v s).cmd = s.cmd := rfl
@[simp] theorem clearSticky_devid (v : Word) : (clearSticky v s).devid = s.devid := rfl
@[simp] theorem clearSticky_value (v : Word) : (clearSticky v s).value = s.value := rfl
@[simp] theorem clearSticky_len (v : Word) : (clearSticky v s).len = s.len := rfl
@[simp] theorem clearSticky_expect (v : Word) : (clearSticky v s).expect = s.expect := rfl
@[simp] theorem clearSticky_pattern (v : Word) : (clearSticky v s).pattern = s.pattern := rfl
@[simp] theorem clearSticky_tmoBlock (v : Word) : (clearSticky v s).tmoBlock = s.tmoBlock := rfl
@[simp] theorem clearSticky_tmoWait (v : Word) : (clearSticky v s).tmoWait = s.tmoWait := rfl
@[simp] theorem clearSticky_csum (v : Word) : (clearSticky v s).csum = s.csum := rfl
@[simp] theorem clearSticky_flen (v : Word) : (clearSticky v s).flen = s.flen := rfl
@[simp] theorem clearSticky_now (v : Word) : (clearSticky v s).now = s.now := rfl
@[simp] theorem clearSticky_rDevid (v : Word) : (clearSticky v s).rDevid = s.rDevid := rfl
@[simp] theorem clearSticky_rPower (v : Word) : (clearSticky v s).rPower = s.rPower := rfl
@[simp] theorem clearSticky_rDcv (v : Word) : (clearSticky v s).rDcv = s.rDcv := rfl
@[simp] theorem clearSticky_rDci (v : Word) : (clearSticky v s).rDci = s.rDci := rfl
@[simp] theorem clearSticky_rAcv (v : Word) : (clearSticky v s).rAcv = s.rAcv := rfl
@[simp] theorem clearSticky_rAci (v : Word) : (clearSticky v s).rAci = s.rAci := rfl
@[simp] theorem clearSticky_rState (v : Word) : (clearSticky v s).rState = s.rState := rfl
@[simp] theorem clearSticky_rTemp (v : Word) : (clearSticky v s).rTemp = s.rTemp := rfl
@[simp] theorem clearSticky_rValid (v : Word) : (clearSticky v s).rValid = s.rValid := rfl
@[simp] theorem clearSticky_buf (v : Word) : (clearSticky v s).buf = s.buf := rfl
@[simp] theorem clearSticky_rxq (v : Word) : (clearSticky v s).rxq = s.rxq := rfl
@[simp] theorem clearSticky_txd (v : Word) : (clearSticky v s).txd = s.txd := rfl
@[simp] theorem clearSticky_txv (v : Word) : (clearSticky v s).txv = s.txv := rfl
@[simp] theorem clearSticky_t0 (v : Word) : (clearSticky v s).t0 = s.t0 := rfl
@[simp] theorem clearSticky_tmoCur (v : Word) : (clearSticky v s).tmoCur = s.tmoCur := rfl
@[simp] theorem clearSticky_armed (v : Word) : (clearSticky v s).armed = s.armed := rfl
@[simp] theorem clearSticky_exp (v : Word) : (clearSticky v s).exp = s.exp := rfl
@[simp] theorem clearSticky_opc (v : Word) : (clearSticky v s).opc = s.opc := rfl
@[simp] theorem clearSticky_idx (v : Word) : (clearSticky v s).idx = s.idx := rfl
@[simp] theorem clearSticky_n (v : Word) : (clearSticky v s).n = s.n := rfl
@[simp] theorem clearSticky_budget (v : Word) : (clearSticky v s).budget = s.budget := rfl
@[simp] theorem clearSticky_lCmd (v : Word) : (clearSticky v s).lCmd = s.lCmd := rfl
@[simp] theorem clearSticky_lDevid (v : Word) : (clearSticky v s).lDevid = s.lDevid := rfl
@[simp] theorem clearSticky_lValue (v : Word) : (clearSticky v s).lValue = s.lValue := rfl
@[simp] theorem clearSticky_lLen (v : Word) : (clearSticky v s).lLen = s.lLen := rfl
@[simp] theorem clearSticky_lExpect (v : Word) : (clearSticky v s).lExpect = s.lExpect := rfl
@[simp] theorem clearSticky_lP0 (v : Word) : (clearSticky v s).lP0 = s.lP0 := rfl
@[simp] theorem clearSticky_lP1 (v : Word) : (clearSticky v s).lP1 = s.lP1 := rfl
@[simp] theorem clearSticky_lTb (v : Word) : (clearSticky v s).lTb = s.lTb := rfl
@[simp] theorem clearSticky_lTw (v : Word) : (clearSticky v s).lTw = s.lTw := rfl
@[simp] theorem clearSticky_cause (v : Word) : (clearSticky v s).cause = s.cause := rfl
@[simp] theorem clearSticky_params (v : Word) : (clearSticky v s).params = s.params := rfl
@[simp] theorem clearSticky_script (v : Word) : (clearSticky v s).script = s.script := rfl
@[simp] theorem clearSticky_turn (v : Word) : (clearSticky v s).turn = s.turn := rfl
@[simp] theorem clearSticky_wire (v : Word) : (clearSticky v s).wire = s.wire := rfl
@[simp] theorem clearSticky_bus (v : Word) : (clearSticky v s).bus = s.bus := rfl

/-! `clearOnAccept` (R17, R48). -/

@[simp] theorem clearOnAccept_opReg : (clearOnAccept s).opReg = s.opReg := rfl
@[simp] theorem clearOnAccept_busy : (clearOnAccept s).busy = s.busy := rfl
@[simp] theorem clearOnAccept_done : (clearOnAccept s).done = false := rfl
@[simp] theorem clearOnAccept_ok : (clearOnAccept s).ok = false := rfl
@[simp] theorem clearOnAccept_recd : (clearOnAccept s).recd = false := rfl
@[simp] theorem clearOnAccept_rxOvf : (clearOnAccept s).rxOvf = s.rxOvf := rfl
@[simp] theorem clearOnAccept_rej : (clearOnAccept s).rej = s.rej := rfl
@[simp] theorem clearOnAccept_st : (clearOnAccept s).st = s.st := rfl
@[simp] theorem clearOnAccept_cmd : (clearOnAccept s).cmd = s.cmd := rfl
@[simp] theorem clearOnAccept_devid : (clearOnAccept s).devid = s.devid := rfl
@[simp] theorem clearOnAccept_value : (clearOnAccept s).value = s.value := rfl
@[simp] theorem clearOnAccept_len : (clearOnAccept s).len = s.len := rfl
@[simp] theorem clearOnAccept_expect : (clearOnAccept s).expect = s.expect := rfl
@[simp] theorem clearOnAccept_pattern : (clearOnAccept s).pattern = s.pattern := rfl
@[simp] theorem clearOnAccept_tmoBlock : (clearOnAccept s).tmoBlock = s.tmoBlock := rfl
@[simp] theorem clearOnAccept_tmoWait : (clearOnAccept s).tmoWait = s.tmoWait := rfl
@[simp] theorem clearOnAccept_csum : (clearOnAccept s).csum = s.csum := rfl
@[simp] theorem clearOnAccept_flen : (clearOnAccept s).flen = s.flen := rfl
@[simp] theorem clearOnAccept_now : (clearOnAccept s).now = s.now := rfl
@[simp] theorem clearOnAccept_rDevid : (clearOnAccept s).rDevid = s.rDevid := rfl
@[simp] theorem clearOnAccept_rPower : (clearOnAccept s).rPower = s.rPower := rfl
@[simp] theorem clearOnAccept_rDcv : (clearOnAccept s).rDcv = s.rDcv := rfl
@[simp] theorem clearOnAccept_rDci : (clearOnAccept s).rDci = s.rDci := rfl
@[simp] theorem clearOnAccept_rAcv : (clearOnAccept s).rAcv = s.rAcv := rfl
@[simp] theorem clearOnAccept_rAci : (clearOnAccept s).rAci = s.rAci := rfl
@[simp] theorem clearOnAccept_rState : (clearOnAccept s).rState = s.rState := rfl
@[simp] theorem clearOnAccept_rTemp : (clearOnAccept s).rTemp = s.rTemp := rfl
@[simp] theorem clearOnAccept_rValid : (clearOnAccept s).rValid = s.rValid := rfl
@[simp] theorem clearOnAccept_buf : (clearOnAccept s).buf = s.buf := rfl
@[simp] theorem clearOnAccept_rxq : (clearOnAccept s).rxq = s.rxq := rfl
@[simp] theorem clearOnAccept_txd : (clearOnAccept s).txd = s.txd := rfl
@[simp] theorem clearOnAccept_txv : (clearOnAccept s).txv = s.txv := rfl
@[simp] theorem clearOnAccept_t0 : (clearOnAccept s).t0 = s.t0 := rfl
@[simp] theorem clearOnAccept_tmoCur : (clearOnAccept s).tmoCur = s.tmoCur := rfl
@[simp] theorem clearOnAccept_armed : (clearOnAccept s).armed = s.armed := rfl
@[simp] theorem clearOnAccept_exp : (clearOnAccept s).exp = s.exp := rfl
@[simp] theorem clearOnAccept_opc : (clearOnAccept s).opc = s.opc := rfl
@[simp] theorem clearOnAccept_idx : (clearOnAccept s).idx = s.idx := rfl
@[simp] theorem clearOnAccept_n : (clearOnAccept s).n = s.n := rfl
@[simp] theorem clearOnAccept_budget : (clearOnAccept s).budget = s.budget := rfl
@[simp] theorem clearOnAccept_lCmd : (clearOnAccept s).lCmd = s.lCmd := rfl
@[simp] theorem clearOnAccept_lDevid : (clearOnAccept s).lDevid = s.lDevid := rfl
@[simp] theorem clearOnAccept_lValue : (clearOnAccept s).lValue = s.lValue := rfl
@[simp] theorem clearOnAccept_lLen : (clearOnAccept s).lLen = s.lLen := rfl
@[simp] theorem clearOnAccept_lExpect : (clearOnAccept s).lExpect = s.lExpect := rfl
@[simp] theorem clearOnAccept_lP0 : (clearOnAccept s).lP0 = s.lP0 := rfl
@[simp] theorem clearOnAccept_lP1 : (clearOnAccept s).lP1 = s.lP1 := rfl
@[simp] theorem clearOnAccept_lTb : (clearOnAccept s).lTb = s.lTb := rfl
@[simp] theorem clearOnAccept_lTw : (clearOnAccept s).lTw = s.lTw := rfl
@[simp] theorem clearOnAccept_cause : (clearOnAccept s).cause = .none := rfl
@[simp] theorem clearOnAccept_params : (clearOnAccept s).params = s.params := rfl
@[simp] theorem clearOnAccept_script : (clearOnAccept s).script = s.script := rfl
@[simp] theorem clearOnAccept_turn : (clearOnAccept s).turn = s.turn := rfl
@[simp] theorem clearOnAccept_wire : (clearOnAccept s).wire = s.wire := rfl
@[simp] theorem clearOnAccept_bus : (clearOnAccept s).bus = s.bus := rfl

/-! `codecDone` (R58). -/

@[simp] theorem codecDone_opReg (r : Bool) (c : Cause) : (codecDone r c s).opReg = s.opReg := rfl
@[simp] theorem codecDone_busy (r : Bool) (c : Cause) : (codecDone r c s).busy = s.busy := rfl
@[simp] theorem codecDone_done (r : Bool) (c : Cause) : (codecDone r c s).done = true := rfl
@[simp] theorem codecDone_ok (r : Bool) (c : Cause) : (codecDone r c s).ok = r := rfl
@[simp] theorem codecDone_recd (r : Bool) (c : Cause) : (codecDone r c s).recd = s.recd := rfl
@[simp] theorem codecDone_rxOvf (r : Bool) (c : Cause) : (codecDone r c s).rxOvf = s.rxOvf := rfl
@[simp] theorem codecDone_rej (r : Bool) (c : Cause) : (codecDone r c s).rej = s.rej := rfl
@[simp] theorem codecDone_st (r : Bool) (c : Cause) : (codecDone r c s).st = s.st := rfl
@[simp] theorem codecDone_cmd (r : Bool) (c : Cause) : (codecDone r c s).cmd = s.cmd := rfl
@[simp] theorem codecDone_devid (r : Bool) (c : Cause) : (codecDone r c s).devid = s.devid := rfl
@[simp] theorem codecDone_value (r : Bool) (c : Cause) : (codecDone r c s).value = s.value := rfl
@[simp] theorem codecDone_len (r : Bool) (c : Cause) : (codecDone r c s).len = s.len := rfl
@[simp] theorem codecDone_expect (r : Bool) (c : Cause) : (codecDone r c s).expect = s.expect := rfl
@[simp] theorem codecDone_pattern (r : Bool) (c : Cause) : (codecDone r c s).pattern = s.pattern := rfl
@[simp] theorem codecDone_tmoBlock (r : Bool) (c : Cause) : (codecDone r c s).tmoBlock = s.tmoBlock := rfl
@[simp] theorem codecDone_tmoWait (r : Bool) (c : Cause) : (codecDone r c s).tmoWait = s.tmoWait := rfl
@[simp] theorem codecDone_csum (r : Bool) (c : Cause) : (codecDone r c s).csum = s.csum := rfl
@[simp] theorem codecDone_flen (r : Bool) (c : Cause) : (codecDone r c s).flen = s.flen := rfl
@[simp] theorem codecDone_now (r : Bool) (c : Cause) : (codecDone r c s).now = s.now := rfl
@[simp] theorem codecDone_rDevid (r : Bool) (c : Cause) : (codecDone r c s).rDevid = s.rDevid := rfl
@[simp] theorem codecDone_rPower (r : Bool) (c : Cause) : (codecDone r c s).rPower = s.rPower := rfl
@[simp] theorem codecDone_rDcv (r : Bool) (c : Cause) : (codecDone r c s).rDcv = s.rDcv := rfl
@[simp] theorem codecDone_rDci (r : Bool) (c : Cause) : (codecDone r c s).rDci = s.rDci := rfl
@[simp] theorem codecDone_rAcv (r : Bool) (c : Cause) : (codecDone r c s).rAcv = s.rAcv := rfl
@[simp] theorem codecDone_rAci (r : Bool) (c : Cause) : (codecDone r c s).rAci = s.rAci := rfl
@[simp] theorem codecDone_rState (r : Bool) (c : Cause) : (codecDone r c s).rState = s.rState := rfl
@[simp] theorem codecDone_rTemp (r : Bool) (c : Cause) : (codecDone r c s).rTemp = s.rTemp := rfl
@[simp] theorem codecDone_rValid (r : Bool) (c : Cause) : (codecDone r c s).rValid = s.rValid := rfl
@[simp] theorem codecDone_buf (r : Bool) (c : Cause) : (codecDone r c s).buf = s.buf := rfl
@[simp] theorem codecDone_rxq (r : Bool) (c : Cause) : (codecDone r c s).rxq = s.rxq := rfl
@[simp] theorem codecDone_txd (r : Bool) (c : Cause) : (codecDone r c s).txd = s.txd := rfl
@[simp] theorem codecDone_txv (r : Bool) (c : Cause) : (codecDone r c s).txv = s.txv := rfl
@[simp] theorem codecDone_t0 (r : Bool) (c : Cause) : (codecDone r c s).t0 = s.t0 := rfl
@[simp] theorem codecDone_tmoCur (r : Bool) (c : Cause) : (codecDone r c s).tmoCur = s.tmoCur := rfl
@[simp] theorem codecDone_armed (r : Bool) (c : Cause) : (codecDone r c s).armed = s.armed := rfl
@[simp] theorem codecDone_exp (r : Bool) (c : Cause) : (codecDone r c s).exp = s.exp := rfl
@[simp] theorem codecDone_opc (r : Bool) (c : Cause) : (codecDone r c s).opc = s.opc := rfl
@[simp] theorem codecDone_idx (r : Bool) (c : Cause) : (codecDone r c s).idx = s.idx := rfl
@[simp] theorem codecDone_n (r : Bool) (c : Cause) : (codecDone r c s).n = s.n := rfl
@[simp] theorem codecDone_budget (r : Bool) (c : Cause) : (codecDone r c s).budget = s.budget := rfl
@[simp] theorem codecDone_lCmd (r : Bool) (c : Cause) : (codecDone r c s).lCmd = s.lCmd := rfl
@[simp] theorem codecDone_lDevid (r : Bool) (c : Cause) : (codecDone r c s).lDevid = s.lDevid := rfl
@[simp] theorem codecDone_lValue (r : Bool) (c : Cause) : (codecDone r c s).lValue = s.lValue := rfl
@[simp] theorem codecDone_lLen (r : Bool) (c : Cause) : (codecDone r c s).lLen = s.lLen := rfl
@[simp] theorem codecDone_lExpect (r : Bool) (c : Cause) : (codecDone r c s).lExpect = s.lExpect := rfl
@[simp] theorem codecDone_lP0 (r : Bool) (c : Cause) : (codecDone r c s).lP0 = s.lP0 := rfl
@[simp] theorem codecDone_lP1 (r : Bool) (c : Cause) : (codecDone r c s).lP1 = s.lP1 := rfl
@[simp] theorem codecDone_lTb (r : Bool) (c : Cause) : (codecDone r c s).lTb = s.lTb := rfl
@[simp] theorem codecDone_lTw (r : Bool) (c : Cause) : (codecDone r c s).lTw = s.lTw := rfl
@[simp] theorem codecDone_cause (r : Bool) (c : Cause) : (codecDone r c s).cause = c := rfl
@[simp] theorem codecDone_params (r : Bool) (c : Cause) : (codecDone r c s).params = s.params := rfl
@[simp] theorem codecDone_script (r : Bool) (c : Cause) : (codecDone r c s).script = s.script := rfl
@[simp] theorem codecDone_turn (r : Bool) (c : Cause) : (codecDone r c s).turn = s.turn := rfl
@[simp] theorem codecDone_wire (r : Bool) (c : Cause) : (codecDone r c s).wire = s.wire := rfl
@[simp] theorem codecDone_bus (r : Bool) (c : Cause) : (codecDone r c s).bus = s.bus := rfl

/-! `latchOperands` (R26). -/

@[simp] theorem latchOperands_opReg : (latchOperands s).opReg = s.opReg := rfl
@[simp] theorem latchOperands_busy : (latchOperands s).busy = s.busy := rfl
@[simp] theorem latchOperands_done : (latchOperands s).done = s.done := rfl
@[simp] theorem latchOperands_ok : (latchOperands s).ok = s.ok := rfl
@[simp] theorem latchOperands_recd : (latchOperands s).recd = s.recd := rfl
@[simp] theorem latchOperands_rxOvf : (latchOperands s).rxOvf = s.rxOvf := rfl
@[simp] theorem latchOperands_rej : (latchOperands s).rej = s.rej := rfl
@[simp] theorem latchOperands_st : (latchOperands s).st = s.st := rfl
@[simp] theorem latchOperands_cmd : (latchOperands s).cmd = s.cmd := rfl
@[simp] theorem latchOperands_devid : (latchOperands s).devid = s.devid := rfl
@[simp] theorem latchOperands_value : (latchOperands s).value = s.value := rfl
@[simp] theorem latchOperands_len : (latchOperands s).len = s.len := rfl
@[simp] theorem latchOperands_expect : (latchOperands s).expect = s.expect := rfl
@[simp] theorem latchOperands_pattern : (latchOperands s).pattern = s.pattern := rfl
@[simp] theorem latchOperands_tmoBlock : (latchOperands s).tmoBlock = s.tmoBlock := rfl
@[simp] theorem latchOperands_tmoWait : (latchOperands s).tmoWait = s.tmoWait := rfl
@[simp] theorem latchOperands_csum : (latchOperands s).csum = s.csum := rfl
@[simp] theorem latchOperands_flen : (latchOperands s).flen = s.flen := rfl
@[simp] theorem latchOperands_now : (latchOperands s).now = s.now := rfl
@[simp] theorem latchOperands_rDevid : (latchOperands s).rDevid = s.rDevid := rfl
@[simp] theorem latchOperands_rPower : (latchOperands s).rPower = s.rPower := rfl
@[simp] theorem latchOperands_rDcv : (latchOperands s).rDcv = s.rDcv := rfl
@[simp] theorem latchOperands_rDci : (latchOperands s).rDci = s.rDci := rfl
@[simp] theorem latchOperands_rAcv : (latchOperands s).rAcv = s.rAcv := rfl
@[simp] theorem latchOperands_rAci : (latchOperands s).rAci = s.rAci := rfl
@[simp] theorem latchOperands_rState : (latchOperands s).rState = s.rState := rfl
@[simp] theorem latchOperands_rTemp : (latchOperands s).rTemp = s.rTemp := rfl
@[simp] theorem latchOperands_rValid : (latchOperands s).rValid = s.rValid := rfl
@[simp] theorem latchOperands_buf : (latchOperands s).buf = s.buf := rfl
@[simp] theorem latchOperands_rxq : (latchOperands s).rxq = s.rxq := rfl
@[simp] theorem latchOperands_txd : (latchOperands s).txd = s.txd := rfl
@[simp] theorem latchOperands_txv : (latchOperands s).txv = s.txv := rfl
@[simp] theorem latchOperands_t0 : (latchOperands s).t0 = s.t0 := rfl
@[simp] theorem latchOperands_tmoCur : (latchOperands s).tmoCur = s.tmoCur := rfl
@[simp] theorem latchOperands_armed : (latchOperands s).armed = s.armed := rfl
@[simp] theorem latchOperands_exp : (latchOperands s).exp = s.exp := rfl
@[simp] theorem latchOperands_opc : (latchOperands s).opc = s.opc := rfl
@[simp] theorem latchOperands_idx : (latchOperands s).idx = s.idx := rfl
@[simp] theorem latchOperands_n : (latchOperands s).n = s.n := rfl
@[simp] theorem latchOperands_budget : (latchOperands s).budget = s.budget := rfl
@[simp] theorem latchOperands_lCmd : (latchOperands s).lCmd = s.cmd := rfl
@[simp] theorem latchOperands_lDevid : (latchOperands s).lDevid = s.devid := rfl
@[simp] theorem latchOperands_lValue : (latchOperands s).lValue = s.value := rfl
@[simp] theorem latchOperands_lLen : (latchOperands s).lLen = s.len := rfl
@[simp] theorem latchOperands_lExpect : (latchOperands s).lExpect = s.expect := rfl
@[simp] theorem latchOperands_lP0 : (latchOperands s).lP0 = patternP0 s := rfl
@[simp] theorem latchOperands_lP1 : (latchOperands s).lP1 = patternP1 s := rfl
@[simp] theorem latchOperands_lTb : (latchOperands s).lTb = s.tmoBlock := rfl
@[simp] theorem latchOperands_lTw : (latchOperands s).lTw = s.tmoWait := rfl
@[simp] theorem latchOperands_cause : (latchOperands s).cause = s.cause := rfl
@[simp] theorem latchOperands_params : (latchOperands s).params = s.params := rfl
@[simp] theorem latchOperands_script : (latchOperands s).script = s.script := rfl
@[simp] theorem latchOperands_turn : (latchOperands s).turn = s.turn := rfl
@[simp] theorem latchOperands_wire : (latchOperands s).wire = s.wire := rfl
@[simp] theorem latchOperands_bus : (latchOperands s).bus = s.bus := rfl

/-! `accept` (R48). -/

@[simp] theorem accept_opReg (o : BitVec 4) : (accept o s).opReg = o := by
  simp only [accept, latchOperands_opReg, clearOnAccept_opReg, setOpcode_opReg]
@[simp] theorem accept_busy (o : BitVec 4) : (accept o s).busy = s.busy := by
  simp only [accept, latchOperands_busy, clearOnAccept_busy, setOpcode_busy]
@[simp] theorem accept_done (o : BitVec 4) : (accept o s).done = false := by
  simp only [accept, latchOperands_done, clearOnAccept_done]
@[simp] theorem accept_ok (o : BitVec 4) : (accept o s).ok = false := by
  simp only [accept, latchOperands_ok, clearOnAccept_ok]
@[simp] theorem accept_recd (o : BitVec 4) : (accept o s).recd = false := by
  simp only [accept, latchOperands_recd, clearOnAccept_recd]
@[simp] theorem accept_rxOvf (o : BitVec 4) : (accept o s).rxOvf = s.rxOvf := by
  simp only [accept, latchOperands_rxOvf, clearOnAccept_rxOvf, setOpcode_rxOvf]
@[simp] theorem accept_rej (o : BitVec 4) : (accept o s).rej = s.rej := by
  simp only [accept, latchOperands_rej, clearOnAccept_rej, setOpcode_rej]
@[simp] theorem accept_st (o : BitVec 4) : (accept o s).st = s.st := by
  simp only [accept, latchOperands_st, clearOnAccept_st, setOpcode_st]
@[simp] theorem accept_cmd (o : BitVec 4) : (accept o s).cmd = s.cmd := by
  simp only [accept, latchOperands_cmd, clearOnAccept_cmd, setOpcode_cmd]
@[simp] theorem accept_devid (o : BitVec 4) : (accept o s).devid = s.devid := by
  simp only [accept, latchOperands_devid, clearOnAccept_devid, setOpcode_devid]
@[simp] theorem accept_value (o : BitVec 4) : (accept o s).value = s.value := by
  simp only [accept, latchOperands_value, clearOnAccept_value, setOpcode_value]
@[simp] theorem accept_len (o : BitVec 4) : (accept o s).len = s.len := by
  simp only [accept, latchOperands_len, clearOnAccept_len, setOpcode_len]
@[simp] theorem accept_expect (o : BitVec 4) : (accept o s).expect = s.expect := by
  simp only [accept, latchOperands_expect, clearOnAccept_expect, setOpcode_expect]
@[simp] theorem accept_pattern (o : BitVec 4) : (accept o s).pattern = s.pattern := by
  simp only [accept, latchOperands_pattern, clearOnAccept_pattern, setOpcode_pattern]
@[simp] theorem accept_tmoBlock (o : BitVec 4) : (accept o s).tmoBlock = s.tmoBlock := by
  simp only [accept, latchOperands_tmoBlock, clearOnAccept_tmoBlock, setOpcode_tmoBlock]
@[simp] theorem accept_tmoWait (o : BitVec 4) : (accept o s).tmoWait = s.tmoWait := by
  simp only [accept, latchOperands_tmoWait, clearOnAccept_tmoWait, setOpcode_tmoWait]
@[simp] theorem accept_csum (o : BitVec 4) : (accept o s).csum = s.csum := by
  simp only [accept, latchOperands_csum, clearOnAccept_csum, setOpcode_csum]
@[simp] theorem accept_flen (o : BitVec 4) : (accept o s).flen = s.flen := by
  simp only [accept, latchOperands_flen, clearOnAccept_flen, setOpcode_flen]
@[simp] theorem accept_now (o : BitVec 4) : (accept o s).now = s.now := by
  simp only [accept, latchOperands_now, clearOnAccept_now, setOpcode_now]
@[simp] theorem accept_rDevid (o : BitVec 4) : (accept o s).rDevid = s.rDevid := by
  simp only [accept, latchOperands_rDevid, clearOnAccept_rDevid, setOpcode_rDevid]
@[simp] theorem accept_rPower (o : BitVec 4) : (accept o s).rPower = s.rPower := by
  simp only [accept, latchOperands_rPower, clearOnAccept_rPower, setOpcode_rPower]
@[simp] theorem accept_rDcv (o : BitVec 4) : (accept o s).rDcv = s.rDcv := by
  simp only [accept, latchOperands_rDcv, clearOnAccept_rDcv, setOpcode_rDcv]
@[simp] theorem accept_rDci (o : BitVec 4) : (accept o s).rDci = s.rDci := by
  simp only [accept, latchOperands_rDci, clearOnAccept_rDci, setOpcode_rDci]
@[simp] theorem accept_rAcv (o : BitVec 4) : (accept o s).rAcv = s.rAcv := by
  simp only [accept, latchOperands_rAcv, clearOnAccept_rAcv, setOpcode_rAcv]
@[simp] theorem accept_rAci (o : BitVec 4) : (accept o s).rAci = s.rAci := by
  simp only [accept, latchOperands_rAci, clearOnAccept_rAci, setOpcode_rAci]
@[simp] theorem accept_rState (o : BitVec 4) : (accept o s).rState = s.rState := by
  simp only [accept, latchOperands_rState, clearOnAccept_rState, setOpcode_rState]
@[simp] theorem accept_rTemp (o : BitVec 4) : (accept o s).rTemp = s.rTemp := by
  simp only [accept, latchOperands_rTemp, clearOnAccept_rTemp, setOpcode_rTemp]
@[simp] theorem accept_rValid (o : BitVec 4) : (accept o s).rValid = s.rValid := by
  simp only [accept, latchOperands_rValid, clearOnAccept_rValid, setOpcode_rValid]
@[simp] theorem accept_buf (o : BitVec 4) : (accept o s).buf = s.buf := by
  simp only [accept, latchOperands_buf, clearOnAccept_buf, setOpcode_buf]
@[simp] theorem accept_rxq (o : BitVec 4) : (accept o s).rxq = s.rxq := by
  simp only [accept, latchOperands_rxq, clearOnAccept_rxq, setOpcode_rxq]
@[simp] theorem accept_txd (o : BitVec 4) : (accept o s).txd = s.txd := by
  simp only [accept, latchOperands_txd, clearOnAccept_txd, setOpcode_txd]
@[simp] theorem accept_txv (o : BitVec 4) : (accept o s).txv = s.txv := by
  simp only [accept, latchOperands_txv, clearOnAccept_txv, setOpcode_txv]
@[simp] theorem accept_t0 (o : BitVec 4) : (accept o s).t0 = s.t0 := by
  simp only [accept, latchOperands_t0, clearOnAccept_t0, setOpcode_t0]
@[simp] theorem accept_tmoCur (o : BitVec 4) : (accept o s).tmoCur = s.tmoCur := by
  simp only [accept, latchOperands_tmoCur, clearOnAccept_tmoCur, setOpcode_tmoCur]
@[simp] theorem accept_armed (o : BitVec 4) : (accept o s).armed = s.armed := by
  simp only [accept, latchOperands_armed, clearOnAccept_armed, setOpcode_armed]
@[simp] theorem accept_exp (o : BitVec 4) : (accept o s).exp = s.exp := by
  simp only [accept, latchOperands_exp, clearOnAccept_exp, setOpcode_exp]
@[simp] theorem accept_opc (o : BitVec 4) : (accept o s).opc = o := by
  simp only [accept, latchOperands_opc, clearOnAccept_opc, setOpcode_opc]
@[simp] theorem accept_idx (o : BitVec 4) : (accept o s).idx = s.idx := by
  simp only [accept, latchOperands_idx, clearOnAccept_idx, setOpcode_idx]
@[simp] theorem accept_n (o : BitVec 4) : (accept o s).n = s.n := by
  simp only [accept, latchOperands_n, clearOnAccept_n, setOpcode_n]
@[simp] theorem accept_budget (o : BitVec 4) : (accept o s).budget = s.budget := by
  simp only [accept, latchOperands_budget, clearOnAccept_budget, setOpcode_budget]
@[simp] theorem accept_lCmd (o : BitVec 4) : (accept o s).lCmd = s.cmd := rfl
@[simp] theorem accept_lDevid (o : BitVec 4) : (accept o s).lDevid = s.devid := rfl
@[simp] theorem accept_lValue (o : BitVec 4) : (accept o s).lValue = s.value := rfl
@[simp] theorem accept_lLen (o : BitVec 4) : (accept o s).lLen = s.len := rfl
@[simp] theorem accept_lExpect (o : BitVec 4) : (accept o s).lExpect = s.expect := rfl
@[simp] theorem accept_lP0 (o : BitVec 4) : (accept o s).lP0 = patternP0 s := rfl
@[simp] theorem accept_lP1 (o : BitVec 4) : (accept o s).lP1 = patternP1 s := rfl
@[simp] theorem accept_lTb (o : BitVec 4) : (accept o s).lTb = s.tmoBlock := rfl
@[simp] theorem accept_lTw (o : BitVec 4) : (accept o s).lTw = s.tmoWait := rfl
@[simp] theorem accept_cause (o : BitVec 4) : (accept o s).cause = .none := by
  simp only [accept, latchOperands_cause, clearOnAccept_cause]
@[simp] theorem accept_params (o : BitVec 4) : (accept o s).params = s.params := by
  simp only [accept, latchOperands_params, clearOnAccept_params, setOpcode_params]
@[simp] theorem accept_script (o : BitVec 4) : (accept o s).script = s.script := by
  simp only [accept, latchOperands_script, clearOnAccept_script, setOpcode_script]
@[simp] theorem accept_turn (o : BitVec 4) : (accept o s).turn = s.turn := by
  simp only [accept, latchOperands_turn, clearOnAccept_turn, setOpcode_turn]
@[simp] theorem accept_wire (o : BitVec 4) : (accept o s).wire = s.wire := by
  simp only [accept, latchOperands_wire, clearOnAccept_wire, setOpcode_wire]
@[simp] theorem accept_bus (o : BitVec 4) : (accept o s).bus = s.bus := by
  simp only [accept, latchOperands_bus, clearOnAccept_bus, setOpcode_bus]

/-! `enterPhase` (R71). -/

@[simp] theorem enterPhase_opReg (p : Phase) : (enterPhase p s).opReg = s.opReg := rfl
@[simp] theorem enterPhase_busy (p : Phase) : (enterPhase p s).busy = true := rfl
@[simp] theorem enterPhase_done (p : Phase) : (enterPhase p s).done = s.done := rfl
@[simp] theorem enterPhase_ok (p : Phase) : (enterPhase p s).ok = s.ok := rfl
@[simp] theorem enterPhase_recd (p : Phase) : (enterPhase p s).recd = s.recd := rfl
@[simp] theorem enterPhase_rxOvf (p : Phase) : (enterPhase p s).rxOvf = s.rxOvf := rfl
@[simp] theorem enterPhase_rej (p : Phase) : (enterPhase p s).rej = s.rej := rfl
@[simp] theorem enterPhase_st (p : Phase) : (enterPhase p s).st = p := rfl
@[simp] theorem enterPhase_cmd (p : Phase) : (enterPhase p s).cmd = s.cmd := rfl
@[simp] theorem enterPhase_devid (p : Phase) : (enterPhase p s).devid = s.devid := rfl
@[simp] theorem enterPhase_value (p : Phase) : (enterPhase p s).value = s.value := rfl
@[simp] theorem enterPhase_len (p : Phase) : (enterPhase p s).len = s.len := rfl
@[simp] theorem enterPhase_expect (p : Phase) : (enterPhase p s).expect = s.expect := rfl
@[simp] theorem enterPhase_pattern (p : Phase) : (enterPhase p s).pattern = s.pattern := rfl
@[simp] theorem enterPhase_tmoBlock (p : Phase) : (enterPhase p s).tmoBlock = s.tmoBlock := rfl
@[simp] theorem enterPhase_tmoWait (p : Phase) : (enterPhase p s).tmoWait = s.tmoWait := rfl
@[simp] theorem enterPhase_csum (p : Phase) : (enterPhase p s).csum = s.csum := rfl
@[simp] theorem enterPhase_flen (p : Phase) : (enterPhase p s).flen = s.flen := rfl
@[simp] theorem enterPhase_now (p : Phase) : (enterPhase p s).now = s.now := rfl
@[simp] theorem enterPhase_rDevid (p : Phase) : (enterPhase p s).rDevid = s.rDevid := rfl
@[simp] theorem enterPhase_rPower (p : Phase) : (enterPhase p s).rPower = s.rPower := rfl
@[simp] theorem enterPhase_rDcv (p : Phase) : (enterPhase p s).rDcv = s.rDcv := rfl
@[simp] theorem enterPhase_rDci (p : Phase) : (enterPhase p s).rDci = s.rDci := rfl
@[simp] theorem enterPhase_rAcv (p : Phase) : (enterPhase p s).rAcv = s.rAcv := rfl
@[simp] theorem enterPhase_rAci (p : Phase) : (enterPhase p s).rAci = s.rAci := rfl
@[simp] theorem enterPhase_rState (p : Phase) : (enterPhase p s).rState = s.rState := rfl
@[simp] theorem enterPhase_rTemp (p : Phase) : (enterPhase p s).rTemp = s.rTemp := rfl
@[simp] theorem enterPhase_rValid (p : Phase) : (enterPhase p s).rValid = s.rValid := rfl
@[simp] theorem enterPhase_buf (p : Phase) : (enterPhase p s).buf = s.buf := rfl
@[simp] theorem enterPhase_rxq (p : Phase) : (enterPhase p s).rxq = s.rxq := rfl
@[simp] theorem enterPhase_txd (p : Phase) : (enterPhase p s).txd = s.txd := rfl
@[simp] theorem enterPhase_txv (p : Phase) : (enterPhase p s).txv = s.txv := rfl
@[simp] theorem enterPhase_t0 (p : Phase) : (enterPhase p s).t0 = s.t0 := rfl
@[simp] theorem enterPhase_tmoCur (p : Phase) : (enterPhase p s).tmoCur = s.tmoCur := rfl
@[simp] theorem enterPhase_armed (p : Phase) : (enterPhase p s).armed = s.armed := rfl
@[simp] theorem enterPhase_exp (p : Phase) : (enterPhase p s).exp = s.exp := rfl
@[simp] theorem enterPhase_opc (p : Phase) : (enterPhase p s).opc = s.opc := rfl
@[simp] theorem enterPhase_idx (p : Phase) : (enterPhase p s).idx = s.idx := rfl
@[simp] theorem enterPhase_n (p : Phase) : (enterPhase p s).n = s.n := rfl
@[simp] theorem enterPhase_budget (p : Phase) : (enterPhase p s).budget = s.budget := rfl
@[simp] theorem enterPhase_lCmd (p : Phase) : (enterPhase p s).lCmd = s.lCmd := rfl
@[simp] theorem enterPhase_lDevid (p : Phase) : (enterPhase p s).lDevid = s.lDevid := rfl
@[simp] theorem enterPhase_lValue (p : Phase) : (enterPhase p s).lValue = s.lValue := rfl
@[simp] theorem enterPhase_lLen (p : Phase) : (enterPhase p s).lLen = s.lLen := rfl
@[simp] theorem enterPhase_lExpect (p : Phase) : (enterPhase p s).lExpect = s.lExpect := rfl
@[simp] theorem enterPhase_lP0 (p : Phase) : (enterPhase p s).lP0 = s.lP0 := rfl
@[simp] theorem enterPhase_lP1 (p : Phase) : (enterPhase p s).lP1 = s.lP1 := rfl
@[simp] theorem enterPhase_lTb (p : Phase) : (enterPhase p s).lTb = s.lTb := rfl
@[simp] theorem enterPhase_lTw (p : Phase) : (enterPhase p s).lTw = s.lTw := rfl
@[simp] theorem enterPhase_cause (p : Phase) : (enterPhase p s).cause = s.cause := rfl
@[simp] theorem enterPhase_params (p : Phase) : (enterPhase p s).params = s.params := rfl
@[simp] theorem enterPhase_script (p : Phase) : (enterPhase p s).script = s.script := rfl
@[simp] theorem enterPhase_turn (p : Phase) : (enterPhase p s).turn = s.turn := rfl
@[simp] theorem enterPhase_wire (p : Phase) : (enterPhase p s).wire = s.wire := rfl
@[simp] theorem enterPhase_bus (p : Phase) : (enterPhase p s).bus = s.bus := rfl

/-! `decodeFields` (R60). -/

@[simp] theorem decodeFields_opReg : (decodeFields s).opReg = s.opReg := rfl
@[simp] theorem decodeFields_busy : (decodeFields s).busy = s.busy := rfl
@[simp] theorem decodeFields_done : (decodeFields s).done = s.done := rfl
@[simp] theorem decodeFields_ok : (decodeFields s).ok = s.ok := rfl
@[simp] theorem decodeFields_recd : (decodeFields s).recd = s.recd := rfl
@[simp] theorem decodeFields_rxOvf : (decodeFields s).rxOvf = s.rxOvf := rfl
@[simp] theorem decodeFields_rej : (decodeFields s).rej = s.rej := rfl
@[simp] theorem decodeFields_st : (decodeFields s).st = s.st := rfl
@[simp] theorem decodeFields_cmd : (decodeFields s).cmd = s.cmd := rfl
@[simp] theorem decodeFields_devid : (decodeFields s).devid = s.devid := rfl
@[simp] theorem decodeFields_value : (decodeFields s).value = s.value := rfl
@[simp] theorem decodeFields_len : (decodeFields s).len = s.len := rfl
@[simp] theorem decodeFields_expect : (decodeFields s).expect = s.expect := rfl
@[simp] theorem decodeFields_pattern : (decodeFields s).pattern = s.pattern := rfl
@[simp] theorem decodeFields_tmoBlock : (decodeFields s).tmoBlock = s.tmoBlock := rfl
@[simp] theorem decodeFields_tmoWait : (decodeFields s).tmoWait = s.tmoWait := rfl
@[simp] theorem decodeFields_csum : (decodeFields s).csum = s.csum := rfl
@[simp] theorem decodeFields_flen : (decodeFields s).flen = s.flen := rfl
@[simp] theorem decodeFields_now : (decodeFields s).now = s.now := rfl
@[simp] theorem decodeFields_rDevid : (decodeFields s).rDevid = be32 (Memory.read s.buf 6) (Memory.read s.buf 7) (Memory.read s.buf 8) (Memory.read s.buf 9) := rfl
@[simp] theorem decodeFields_rPower : (decodeFields s).rPower = be32 (Memory.read s.buf 10) (Memory.read s.buf 11) (Memory.read s.buf 12) (Memory.read s.buf 13) := rfl
@[simp] theorem decodeFields_rDcv : (decodeFields s).rDcv = be16 (Memory.read s.buf 15) (Memory.read s.buf 16) := rfl
@[simp] theorem decodeFields_rDci : (decodeFields s).rDci = be16 (Memory.read s.buf 17) (Memory.read s.buf 18) := rfl
@[simp] theorem decodeFields_rAcv : (decodeFields s).rAcv = be16 (Memory.read s.buf 19) (Memory.read s.buf 20) := rfl
@[simp] theorem decodeFields_rAci : (decodeFields s).rAci = be16 (Memory.read s.buf 21) (Memory.read s.buf 22) := rfl
@[simp] theorem decodeFields_rState : (decodeFields s).rState = Memory.read s.buf s.params.stateOfs.toNat := rfl
@[simp] theorem decodeFields_rTemp : (decodeFields s).rTemp = Memory.read s.buf (s.params.stateOfs.toNat + 1) := rfl
@[simp] theorem decodeFields_rValid : (decodeFields s).rValid = frameSumGood s := rfl
@[simp] theorem decodeFields_buf : (decodeFields s).buf = s.buf := rfl
@[simp] theorem decodeFields_rxq : (decodeFields s).rxq = s.rxq := rfl
@[simp] theorem decodeFields_txd : (decodeFields s).txd = s.txd := rfl
@[simp] theorem decodeFields_txv : (decodeFields s).txv = s.txv := rfl
@[simp] theorem decodeFields_t0 : (decodeFields s).t0 = s.t0 := rfl
@[simp] theorem decodeFields_tmoCur : (decodeFields s).tmoCur = s.tmoCur := rfl
@[simp] theorem decodeFields_armed : (decodeFields s).armed = s.armed := rfl
@[simp] theorem decodeFields_exp : (decodeFields s).exp = s.exp := rfl
@[simp] theorem decodeFields_opc : (decodeFields s).opc = s.opc := rfl
@[simp] theorem decodeFields_idx : (decodeFields s).idx = s.idx := rfl
@[simp] theorem decodeFields_n : (decodeFields s).n = s.n := rfl
@[simp] theorem decodeFields_budget : (decodeFields s).budget = s.budget := rfl
@[simp] theorem decodeFields_lCmd : (decodeFields s).lCmd = s.lCmd := rfl
@[simp] theorem decodeFields_lDevid : (decodeFields s).lDevid = s.lDevid := rfl
@[simp] theorem decodeFields_lValue : (decodeFields s).lValue = s.lValue := rfl
@[simp] theorem decodeFields_lLen : (decodeFields s).lLen = s.lLen := rfl
@[simp] theorem decodeFields_lExpect : (decodeFields s).lExpect = s.lExpect := rfl
@[simp] theorem decodeFields_lP0 : (decodeFields s).lP0 = s.lP0 := rfl
@[simp] theorem decodeFields_lP1 : (decodeFields s).lP1 = s.lP1 := rfl
@[simp] theorem decodeFields_lTb : (decodeFields s).lTb = s.lTb := rfl
@[simp] theorem decodeFields_lTw : (decodeFields s).lTw = s.lTw := rfl
@[simp] theorem decodeFields_cause : (decodeFields s).cause = s.cause := rfl
@[simp] theorem decodeFields_params : (decodeFields s).params = s.params := rfl
@[simp] theorem decodeFields_script : (decodeFields s).script = s.script := rfl
@[simp] theorem decodeFields_turn : (decodeFields s).turn = s.turn := rfl
@[simp] theorem decodeFields_wire : (decodeFields s).wire = s.wire := rfl
@[simp] theorem decodeFields_bus : (decodeFields s).bus = s.bus := rfl

/-! `encodeFrame` (R62). -/

@[simp] theorem encodeFrame_opReg (c : Byte) (d : Word) (v : Byte) : (encodeFrame c d v s).opReg = s.opReg := by
  simp only [encodeFrame, setFlen_opReg, setBuf_opReg]
@[simp] theorem encodeFrame_busy (c : Byte) (d : Word) (v : Byte) : (encodeFrame c d v s).busy = s.busy := by
  simp only [encodeFrame, setFlen_busy, setBuf_busy]
@[simp] theorem encodeFrame_done (c : Byte) (d : Word) (v : Byte) : (encodeFrame c d v s).done = s.done := by
  simp only [encodeFrame, setFlen_done, setBuf_done]
@[simp] theorem encodeFrame_ok (c : Byte) (d : Word) (v : Byte) : (encodeFrame c d v s).ok = s.ok := by
  simp only [encodeFrame, setFlen_ok, setBuf_ok]
@[simp] theorem encodeFrame_recd (c : Byte) (d : Word) (v : Byte) : (encodeFrame c d v s).recd = s.recd := by
  simp only [encodeFrame, setFlen_recd, setBuf_recd]
@[simp] theorem encodeFrame_rxOvf (c : Byte) (d : Word) (v : Byte) : (encodeFrame c d v s).rxOvf = s.rxOvf := by
  simp only [encodeFrame, setFlen_rxOvf, setBuf_rxOvf]
@[simp] theorem encodeFrame_rej (c : Byte) (d : Word) (v : Byte) : (encodeFrame c d v s).rej = s.rej := by
  simp only [encodeFrame, setFlen_rej, setBuf_rej]
@[simp] theorem encodeFrame_st (c : Byte) (d : Word) (v : Byte) : (encodeFrame c d v s).st = s.st := by
  simp only [encodeFrame, setFlen_st, setBuf_st]
@[simp] theorem encodeFrame_cmd (c : Byte) (d : Word) (v : Byte) : (encodeFrame c d v s).cmd = s.cmd := by
  simp only [encodeFrame, setFlen_cmd, setBuf_cmd]
@[simp] theorem encodeFrame_devid (c : Byte) (d : Word) (v : Byte) : (encodeFrame c d v s).devid = s.devid := by
  simp only [encodeFrame, setFlen_devid, setBuf_devid]
@[simp] theorem encodeFrame_value (c : Byte) (d : Word) (v : Byte) : (encodeFrame c d v s).value = s.value := by
  simp only [encodeFrame, setFlen_value, setBuf_value]
@[simp] theorem encodeFrame_len (c : Byte) (d : Word) (v : Byte) : (encodeFrame c d v s).len = s.len := by
  simp only [encodeFrame, setFlen_len, setBuf_len]
@[simp] theorem encodeFrame_expect (c : Byte) (d : Word) (v : Byte) : (encodeFrame c d v s).expect = s.expect := by
  simp only [encodeFrame, setFlen_expect, setBuf_expect]
@[simp] theorem encodeFrame_pattern (c : Byte) (d : Word) (v : Byte) : (encodeFrame c d v s).pattern = s.pattern := by
  simp only [encodeFrame, setFlen_pattern, setBuf_pattern]
@[simp] theorem encodeFrame_tmoBlock (c : Byte) (d : Word) (v : Byte) : (encodeFrame c d v s).tmoBlock = s.tmoBlock := by
  simp only [encodeFrame, setFlen_tmoBlock, setBuf_tmoBlock]
@[simp] theorem encodeFrame_tmoWait (c : Byte) (d : Word) (v : Byte) : (encodeFrame c d v s).tmoWait = s.tmoWait := by
  simp only [encodeFrame, setFlen_tmoWait, setBuf_tmoWait]
@[simp] theorem encodeFrame_csum (c : Byte) (d : Word) (v : Byte) : (encodeFrame c d v s).csum = s.csum := by
  simp only [encodeFrame, setFlen_csum, setBuf_csum]
@[simp] theorem encodeFrame_flen (c : Byte) (d : Word) (v : Byte) : (encodeFrame c d v s).flen = cmdLen := by
  simp only [encodeFrame, setFlen_flen]
@[simp] theorem encodeFrame_now (c : Byte) (d : Word) (v : Byte) : (encodeFrame c d v s).now = s.now := by
  simp only [encodeFrame, setFlen_now, setBuf_now]
@[simp] theorem encodeFrame_rDevid (c : Byte) (d : Word) (v : Byte) : (encodeFrame c d v s).rDevid = s.rDevid := by
  simp only [encodeFrame, setFlen_rDevid, setBuf_rDevid]
@[simp] theorem encodeFrame_rPower (c : Byte) (d : Word) (v : Byte) : (encodeFrame c d v s).rPower = s.rPower := by
  simp only [encodeFrame, setFlen_rPower, setBuf_rPower]
@[simp] theorem encodeFrame_rDcv (c : Byte) (d : Word) (v : Byte) : (encodeFrame c d v s).rDcv = s.rDcv := by
  simp only [encodeFrame, setFlen_rDcv, setBuf_rDcv]
@[simp] theorem encodeFrame_rDci (c : Byte) (d : Word) (v : Byte) : (encodeFrame c d v s).rDci = s.rDci := by
  simp only [encodeFrame, setFlen_rDci, setBuf_rDci]
@[simp] theorem encodeFrame_rAcv (c : Byte) (d : Word) (v : Byte) : (encodeFrame c d v s).rAcv = s.rAcv := by
  simp only [encodeFrame, setFlen_rAcv, setBuf_rAcv]
@[simp] theorem encodeFrame_rAci (c : Byte) (d : Word) (v : Byte) : (encodeFrame c d v s).rAci = s.rAci := by
  simp only [encodeFrame, setFlen_rAci, setBuf_rAci]
@[simp] theorem encodeFrame_rState (c : Byte) (d : Word) (v : Byte) : (encodeFrame c d v s).rState = s.rState := by
  simp only [encodeFrame, setFlen_rState, setBuf_rState]
@[simp] theorem encodeFrame_rTemp (c : Byte) (d : Word) (v : Byte) : (encodeFrame c d v s).rTemp = s.rTemp := by
  simp only [encodeFrame, setFlen_rTemp, setBuf_rTemp]
@[simp] theorem encodeFrame_rValid (c : Byte) (d : Word) (v : Byte) : (encodeFrame c d v s).rValid = s.rValid := by
  simp only [encodeFrame, setFlen_rValid, setBuf_rValid]
@[simp] theorem encodeFrame_rxq (c : Byte) (d : Word) (v : Byte) : (encodeFrame c d v s).rxq = s.rxq := by
  simp only [encodeFrame, setFlen_rxq, setBuf_rxq]
@[simp] theorem encodeFrame_txd (c : Byte) (d : Word) (v : Byte) : (encodeFrame c d v s).txd = s.txd := by
  simp only [encodeFrame, setFlen_txd, setBuf_txd]
@[simp] theorem encodeFrame_txv (c : Byte) (d : Word) (v : Byte) : (encodeFrame c d v s).txv = s.txv := by
  simp only [encodeFrame, setFlen_txv, setBuf_txv]
@[simp] theorem encodeFrame_t0 (c : Byte) (d : Word) (v : Byte) : (encodeFrame c d v s).t0 = s.t0 := by
  simp only [encodeFrame, setFlen_t0, setBuf_t0]
@[simp] theorem encodeFrame_tmoCur (c : Byte) (d : Word) (v : Byte) : (encodeFrame c d v s).tmoCur = s.tmoCur := by
  simp only [encodeFrame, setFlen_tmoCur, setBuf_tmoCur]
@[simp] theorem encodeFrame_armed (c : Byte) (d : Word) (v : Byte) : (encodeFrame c d v s).armed = s.armed := by
  simp only [encodeFrame, setFlen_armed, setBuf_armed]
@[simp] theorem encodeFrame_exp (c : Byte) (d : Word) (v : Byte) : (encodeFrame c d v s).exp = s.exp := by
  simp only [encodeFrame, setFlen_exp, setBuf_exp]
@[simp] theorem encodeFrame_opc (c : Byte) (d : Word) (v : Byte) : (encodeFrame c d v s).opc = s.opc := by
  simp only [encodeFrame, setFlen_opc, setBuf_opc]
@[simp] theorem encodeFrame_idx (c : Byte) (d : Word) (v : Byte) : (encodeFrame c d v s).idx = s.idx := by
  simp only [encodeFrame, setFlen_idx, setBuf_idx]
@[simp] theorem encodeFrame_n (c : Byte) (d : Word) (v : Byte) : (encodeFrame c d v s).n = s.n := by
  simp only [encodeFrame, setFlen_n, setBuf_n]
@[simp] theorem encodeFrame_budget (c : Byte) (d : Word) (v : Byte) : (encodeFrame c d v s).budget = s.budget := by
  simp only [encodeFrame, setFlen_budget, setBuf_budget]
@[simp] theorem encodeFrame_lCmd (c : Byte) (d : Word) (v : Byte) : (encodeFrame c d v s).lCmd = s.lCmd := by
  simp only [encodeFrame, setFlen_lCmd, setBuf_lCmd]
@[simp] theorem encodeFrame_lDevid (c : Byte) (d : Word) (v : Byte) : (encodeFrame c d v s).lDevid = s.lDevid := by
  simp only [encodeFrame, setFlen_lDevid, setBuf_lDevid]
@[simp] theorem encodeFrame_lValue (c : Byte) (d : Word) (v : Byte) : (encodeFrame c d v s).lValue = s.lValue := by
  simp only [encodeFrame, setFlen_lValue, setBuf_lValue]
@[simp] theorem encodeFrame_lLen (c : Byte) (d : Word) (v : Byte) : (encodeFrame c d v s).lLen = s.lLen := by
  simp only [encodeFrame, setFlen_lLen, setBuf_lLen]
@[simp] theorem encodeFrame_lExpect (c : Byte) (d : Word) (v : Byte) : (encodeFrame c d v s).lExpect = s.lExpect := by
  simp only [encodeFrame, setFlen_lExpect, setBuf_lExpect]
@[simp] theorem encodeFrame_lP0 (c : Byte) (d : Word) (v : Byte) : (encodeFrame c d v s).lP0 = s.lP0 := by
  simp only [encodeFrame, setFlen_lP0, setBuf_lP0]
@[simp] theorem encodeFrame_lP1 (c : Byte) (d : Word) (v : Byte) : (encodeFrame c d v s).lP1 = s.lP1 := by
  simp only [encodeFrame, setFlen_lP1, setBuf_lP1]
@[simp] theorem encodeFrame_lTb (c : Byte) (d : Word) (v : Byte) : (encodeFrame c d v s).lTb = s.lTb := by
  simp only [encodeFrame, setFlen_lTb, setBuf_lTb]
@[simp] theorem encodeFrame_lTw (c : Byte) (d : Word) (v : Byte) : (encodeFrame c d v s).lTw = s.lTw := by
  simp only [encodeFrame, setFlen_lTw, setBuf_lTw]
@[simp] theorem encodeFrame_cause (c : Byte) (d : Word) (v : Byte) : (encodeFrame c d v s).cause = s.cause := by
  simp only [encodeFrame, setFlen_cause, setBuf_cause]
@[simp] theorem encodeFrame_params (c : Byte) (d : Word) (v : Byte) : (encodeFrame c d v s).params = s.params := by
  simp only [encodeFrame, setFlen_params, setBuf_params]
@[simp] theorem encodeFrame_script (c : Byte) (d : Word) (v : Byte) : (encodeFrame c d v s).script = s.script := by
  simp only [encodeFrame, setFlen_script, setBuf_script]
@[simp] theorem encodeFrame_turn (c : Byte) (d : Word) (v : Byte) : (encodeFrame c d v s).turn = s.turn := by
  simp only [encodeFrame, setFlen_turn, setBuf_turn]
@[simp] theorem encodeFrame_wire (c : Byte) (d : Word) (v : Byte) : (encodeFrame c d v s).wire = s.wire := by
  simp only [encodeFrame, setFlen_wire, setBuf_wire]
@[simp] theorem encodeFrame_bus (c : Byte) (d : Word) (v : Byte) : (encodeFrame c d v s).bus = s.bus := by
  simp only [encodeFrame, setFlen_bus, setBuf_bus]

/-! `takeByte` (R23). -/

@[simp] theorem takeByte_opReg : (takeByte s).opReg = s.opReg := by
  unfold takeByte; split <;> rfl
@[simp] theorem takeByte_busy : (takeByte s).busy = s.busy := by
  unfold takeByte; split <;> rfl
@[simp] theorem takeByte_done : (takeByte s).done = s.done := by
  unfold takeByte; split <;> rfl
@[simp] theorem takeByte_ok : (takeByte s).ok = s.ok := by
  unfold takeByte; split <;> rfl
@[simp] theorem takeByte_recd : (takeByte s).recd = s.recd := by
  unfold takeByte; split <;> rfl
@[simp] theorem takeByte_rxOvf : (takeByte s).rxOvf = s.rxOvf := by
  unfold takeByte; split <;> rfl
@[simp] theorem takeByte_rej : (takeByte s).rej = s.rej := by
  unfold takeByte; split <;> rfl
@[simp] theorem takeByte_st : (takeByte s).st = s.st := by
  unfold takeByte; split <;> rfl
@[simp] theorem takeByte_cmd : (takeByte s).cmd = s.cmd := by
  unfold takeByte; split <;> rfl
@[simp] theorem takeByte_devid : (takeByte s).devid = s.devid := by
  unfold takeByte; split <;> rfl
@[simp] theorem takeByte_value : (takeByte s).value = s.value := by
  unfold takeByte; split <;> rfl
@[simp] theorem takeByte_len : (takeByte s).len = s.len := by
  unfold takeByte; split <;> rfl
@[simp] theorem takeByte_expect : (takeByte s).expect = s.expect := by
  unfold takeByte; split <;> rfl
@[simp] theorem takeByte_pattern : (takeByte s).pattern = s.pattern := by
  unfold takeByte; split <;> rfl
@[simp] theorem takeByte_tmoBlock : (takeByte s).tmoBlock = s.tmoBlock := by
  unfold takeByte; split <;> rfl
@[simp] theorem takeByte_tmoWait : (takeByte s).tmoWait = s.tmoWait := by
  unfold takeByte; split <;> rfl
@[simp] theorem takeByte_csum : (takeByte s).csum = s.csum := by
  unfold takeByte; split <;> rfl
@[simp] theorem takeByte_flen : (takeByte s).flen = s.flen := by
  unfold takeByte; split <;> rfl
@[simp] theorem takeByte_now : (takeByte s).now = s.now := by
  unfold takeByte; split <;> rfl
@[simp] theorem takeByte_rDevid : (takeByte s).rDevid = s.rDevid := by
  unfold takeByte; split <;> rfl
@[simp] theorem takeByte_rPower : (takeByte s).rPower = s.rPower := by
  unfold takeByte; split <;> rfl
@[simp] theorem takeByte_rDcv : (takeByte s).rDcv = s.rDcv := by
  unfold takeByte; split <;> rfl
@[simp] theorem takeByte_rDci : (takeByte s).rDci = s.rDci := by
  unfold takeByte; split <;> rfl
@[simp] theorem takeByte_rAcv : (takeByte s).rAcv = s.rAcv := by
  unfold takeByte; split <;> rfl
@[simp] theorem takeByte_rAci : (takeByte s).rAci = s.rAci := by
  unfold takeByte; split <;> rfl
@[simp] theorem takeByte_rState : (takeByte s).rState = s.rState := by
  unfold takeByte; split <;> rfl
@[simp] theorem takeByte_rTemp : (takeByte s).rTemp = s.rTemp := by
  unfold takeByte; split <;> rfl
@[simp] theorem takeByte_rValid : (takeByte s).rValid = s.rValid := by
  unfold takeByte; split <;> rfl
@[simp] theorem takeByte_buf : (takeByte s).buf = s.buf := by
  unfold takeByte; split <;> rfl
@[simp] theorem takeByte_rxq : (takeByte s).rxq = s.rxq := by
  unfold takeByte; split <;> rfl
@[simp] theorem takeByte_txd : (takeByte s).txd = s.txd := by
  unfold takeByte; split <;> rfl
@[simp] theorem takeByte_txv : (takeByte s).txv = false := by
  unfold takeByte; split <;> simp_all
@[simp] theorem takeByte_t0 : (takeByte s).t0 = s.t0 := by
  unfold takeByte; split <;> rfl
@[simp] theorem takeByte_tmoCur : (takeByte s).tmoCur = s.tmoCur := by
  unfold takeByte; split <;> rfl
@[simp] theorem takeByte_armed : (takeByte s).armed = s.armed := by
  unfold takeByte; split <;> rfl
@[simp] theorem takeByte_exp : (takeByte s).exp = s.exp := by
  unfold takeByte; split <;> rfl
@[simp] theorem takeByte_opc : (takeByte s).opc = s.opc := by
  unfold takeByte; split <;> rfl
@[simp] theorem takeByte_idx : (takeByte s).idx = s.idx := by
  unfold takeByte; split <;> rfl
@[simp] theorem takeByte_n : (takeByte s).n = s.n := by
  unfold takeByte; split <;> rfl
@[simp] theorem takeByte_budget : (takeByte s).budget = s.budget := by
  unfold takeByte; split <;> rfl
@[simp] theorem takeByte_lCmd : (takeByte s).lCmd = s.lCmd := by
  unfold takeByte; split <;> rfl
@[simp] theorem takeByte_lDevid : (takeByte s).lDevid = s.lDevid := by
  unfold takeByte; split <;> rfl
@[simp] theorem takeByte_lValue : (takeByte s).lValue = s.lValue := by
  unfold takeByte; split <;> rfl
@[simp] theorem takeByte_lLen : (takeByte s).lLen = s.lLen := by
  unfold takeByte; split <;> rfl
@[simp] theorem takeByte_lExpect : (takeByte s).lExpect = s.lExpect := by
  unfold takeByte; split <;> rfl
@[simp] theorem takeByte_lP0 : (takeByte s).lP0 = s.lP0 := by
  unfold takeByte; split <;> rfl
@[simp] theorem takeByte_lP1 : (takeByte s).lP1 = s.lP1 := by
  unfold takeByte; split <;> rfl
@[simp] theorem takeByte_lTb : (takeByte s).lTb = s.lTb := by
  unfold takeByte; split <;> rfl
@[simp] theorem takeByte_lTw : (takeByte s).lTw = s.lTw := by
  unfold takeByte; split <;> rfl
@[simp] theorem takeByte_cause : (takeByte s).cause = s.cause := by
  unfold takeByte; split <;> rfl
@[simp] theorem takeByte_params : (takeByte s).params = s.params := by
  unfold takeByte; split <;> rfl
@[simp] theorem takeByte_script : (takeByte s).script = s.script := by
  unfold takeByte; split <;> rfl
@[simp] theorem takeByte_turn : (takeByte s).turn = s.turn := by
  unfold takeByte; split <;> rfl
@[simp] theorem takeByte_bus : (takeByte s).bus = s.bus := by
  unfold takeByte; split <;> rfl

/-! `push` (R22). -/

@[simp] theorem push_opReg (b : Byte) : (push b s).opReg = s.opReg := by
  unfold push; split <;> rfl
@[simp] theorem push_busy (b : Byte) : (push b s).busy = s.busy := by
  unfold push; split <;> rfl
@[simp] theorem push_done (b : Byte) : (push b s).done = s.done := by
  unfold push; split <;> rfl
@[simp] theorem push_ok (b : Byte) : (push b s).ok = s.ok := by
  unfold push; split <;> rfl
@[simp] theorem push_recd (b : Byte) : (push b s).recd = s.recd := by
  unfold push; split <;> rfl
@[simp] theorem push_rej (b : Byte) : (push b s).rej = s.rej := by
  unfold push; split <;> rfl
@[simp] theorem push_st (b : Byte) : (push b s).st = s.st := by
  unfold push; split <;> rfl
@[simp] theorem push_cmd (b : Byte) : (push b s).cmd = s.cmd := by
  unfold push; split <;> rfl
@[simp] theorem push_devid (b : Byte) : (push b s).devid = s.devid := by
  unfold push; split <;> rfl
@[simp] theorem push_value (b : Byte) : (push b s).value = s.value := by
  unfold push; split <;> rfl
@[simp] theorem push_len (b : Byte) : (push b s).len = s.len := by
  unfold push; split <;> rfl
@[simp] theorem push_expect (b : Byte) : (push b s).expect = s.expect := by
  unfold push; split <;> rfl
@[simp] theorem push_pattern (b : Byte) : (push b s).pattern = s.pattern := by
  unfold push; split <;> rfl
@[simp] theorem push_tmoBlock (b : Byte) : (push b s).tmoBlock = s.tmoBlock := by
  unfold push; split <;> rfl
@[simp] theorem push_tmoWait (b : Byte) : (push b s).tmoWait = s.tmoWait := by
  unfold push; split <;> rfl
@[simp] theorem push_csum (b : Byte) : (push b s).csum = s.csum := by
  unfold push; split <;> rfl
@[simp] theorem push_flen (b : Byte) : (push b s).flen = s.flen := by
  unfold push; split <;> rfl
@[simp] theorem push_now (b : Byte) : (push b s).now = s.now := by
  unfold push; split <;> rfl
@[simp] theorem push_rDevid (b : Byte) : (push b s).rDevid = s.rDevid := by
  unfold push; split <;> rfl
@[simp] theorem push_rPower (b : Byte) : (push b s).rPower = s.rPower := by
  unfold push; split <;> rfl
@[simp] theorem push_rDcv (b : Byte) : (push b s).rDcv = s.rDcv := by
  unfold push; split <;> rfl
@[simp] theorem push_rDci (b : Byte) : (push b s).rDci = s.rDci := by
  unfold push; split <;> rfl
@[simp] theorem push_rAcv (b : Byte) : (push b s).rAcv = s.rAcv := by
  unfold push; split <;> rfl
@[simp] theorem push_rAci (b : Byte) : (push b s).rAci = s.rAci := by
  unfold push; split <;> rfl
@[simp] theorem push_rState (b : Byte) : (push b s).rState = s.rState := by
  unfold push; split <;> rfl
@[simp] theorem push_rTemp (b : Byte) : (push b s).rTemp = s.rTemp := by
  unfold push; split <;> rfl
@[simp] theorem push_rValid (b : Byte) : (push b s).rValid = s.rValid := by
  unfold push; split <;> rfl
@[simp] theorem push_buf (b : Byte) : (push b s).buf = s.buf := by
  unfold push; split <;> rfl
@[simp] theorem push_txd (b : Byte) : (push b s).txd = s.txd := by
  unfold push; split <;> rfl
@[simp] theorem push_txv (b : Byte) : (push b s).txv = s.txv := by
  unfold push; split <;> rfl
@[simp] theorem push_t0 (b : Byte) : (push b s).t0 = s.t0 := by
  unfold push; split <;> rfl
@[simp] theorem push_tmoCur (b : Byte) : (push b s).tmoCur = s.tmoCur := by
  unfold push; split <;> rfl
@[simp] theorem push_armed (b : Byte) : (push b s).armed = s.armed := by
  unfold push; split <;> rfl
@[simp] theorem push_exp (b : Byte) : (push b s).exp = s.exp := by
  unfold push; split <;> rfl
@[simp] theorem push_opc (b : Byte) : (push b s).opc = s.opc := by
  unfold push; split <;> rfl
@[simp] theorem push_idx (b : Byte) : (push b s).idx = s.idx := by
  unfold push; split <;> rfl
@[simp] theorem push_n (b : Byte) : (push b s).n = s.n := by
  unfold push; split <;> rfl
@[simp] theorem push_budget (b : Byte) : (push b s).budget = s.budget := by
  unfold push; split <;> rfl
@[simp] theorem push_lCmd (b : Byte) : (push b s).lCmd = s.lCmd := by
  unfold push; split <;> rfl
@[simp] theorem push_lDevid (b : Byte) : (push b s).lDevid = s.lDevid := by
  unfold push; split <;> rfl
@[simp] theorem push_lValue (b : Byte) : (push b s).lValue = s.lValue := by
  unfold push; split <;> rfl
@[simp] theorem push_lLen (b : Byte) : (push b s).lLen = s.lLen := by
  unfold push; split <;> rfl
@[simp] theorem push_lExpect (b : Byte) : (push b s).lExpect = s.lExpect := by
  unfold push; split <;> rfl
@[simp] theorem push_lP0 (b : Byte) : (push b s).lP0 = s.lP0 := by
  unfold push; split <;> rfl
@[simp] theorem push_lP1 (b : Byte) : (push b s).lP1 = s.lP1 := by
  unfold push; split <;> rfl
@[simp] theorem push_lTb (b : Byte) : (push b s).lTb = s.lTb := by
  unfold push; split <;> rfl
@[simp] theorem push_lTw (b : Byte) : (push b s).lTw = s.lTw := by
  unfold push; split <;> rfl
@[simp] theorem push_cause (b : Byte) : (push b s).cause = s.cause := by
  unfold push; split <;> rfl
@[simp] theorem push_params (b : Byte) : (push b s).params = s.params := by
  unfold push; split <;> rfl
@[simp] theorem push_script (b : Byte) : (push b s).script = s.script := by
  unfold push; split <;> rfl
@[simp] theorem push_turn (b : Byte) : (push b s).turn = s.turn := by
  unfold push; split <;> rfl
@[simp] theorem push_wire (b : Byte) : (push b s).wire = s.wire := by
  unfold push; split <;> rfl
@[simp] theorem push_bus (b : Byte) : (push b s).bus = s.bus := by
  unfold push; split <;> rfl

/-! `respond` (R30). -/

@[simp] theorem respond_opReg (d : Word) (e : Bool) : (respond d e s).opReg = s.opReg := rfl
@[simp] theorem respond_busy (d : Word) (e : Bool) : (respond d e s).busy = s.busy := rfl
@[simp] theorem respond_done (d : Word) (e : Bool) : (respond d e s).done = s.done := rfl
@[simp] theorem respond_ok (d : Word) (e : Bool) : (respond d e s).ok = s.ok := rfl
@[simp] theorem respond_recd (d : Word) (e : Bool) : (respond d e s).recd = s.recd := rfl
@[simp] theorem respond_rxOvf (d : Word) (e : Bool) : (respond d e s).rxOvf = s.rxOvf := rfl
@[simp] theorem respond_rej (d : Word) (e : Bool) : (respond d e s).rej = s.rej := rfl
@[simp] theorem respond_st (d : Word) (e : Bool) : (respond d e s).st = s.st := rfl
@[simp] theorem respond_cmd (d : Word) (e : Bool) : (respond d e s).cmd = s.cmd := rfl
@[simp] theorem respond_devid (d : Word) (e : Bool) : (respond d e s).devid = s.devid := rfl
@[simp] theorem respond_value (d : Word) (e : Bool) : (respond d e s).value = s.value := rfl
@[simp] theorem respond_len (d : Word) (e : Bool) : (respond d e s).len = s.len := rfl
@[simp] theorem respond_expect (d : Word) (e : Bool) : (respond d e s).expect = s.expect := rfl
@[simp] theorem respond_pattern (d : Word) (e : Bool) : (respond d e s).pattern = s.pattern := rfl
@[simp] theorem respond_tmoBlock (d : Word) (e : Bool) : (respond d e s).tmoBlock = s.tmoBlock := rfl
@[simp] theorem respond_tmoWait (d : Word) (e : Bool) : (respond d e s).tmoWait = s.tmoWait := rfl
@[simp] theorem respond_csum (d : Word) (e : Bool) : (respond d e s).csum = s.csum := rfl
@[simp] theorem respond_flen (d : Word) (e : Bool) : (respond d e s).flen = s.flen := rfl
@[simp] theorem respond_now (d : Word) (e : Bool) : (respond d e s).now = s.now := rfl
@[simp] theorem respond_rDevid (d : Word) (e : Bool) : (respond d e s).rDevid = s.rDevid := rfl
@[simp] theorem respond_rPower (d : Word) (e : Bool) : (respond d e s).rPower = s.rPower := rfl
@[simp] theorem respond_rDcv (d : Word) (e : Bool) : (respond d e s).rDcv = s.rDcv := rfl
@[simp] theorem respond_rDci (d : Word) (e : Bool) : (respond d e s).rDci = s.rDci := rfl
@[simp] theorem respond_rAcv (d : Word) (e : Bool) : (respond d e s).rAcv = s.rAcv := rfl
@[simp] theorem respond_rAci (d : Word) (e : Bool) : (respond d e s).rAci = s.rAci := rfl
@[simp] theorem respond_rState (d : Word) (e : Bool) : (respond d e s).rState = s.rState := rfl
@[simp] theorem respond_rTemp (d : Word) (e : Bool) : (respond d e s).rTemp = s.rTemp := rfl
@[simp] theorem respond_rValid (d : Word) (e : Bool) : (respond d e s).rValid = s.rValid := rfl
@[simp] theorem respond_buf (d : Word) (e : Bool) : (respond d e s).buf = s.buf := rfl
@[simp] theorem respond_rxq (d : Word) (e : Bool) : (respond d e s).rxq = s.rxq := rfl
@[simp] theorem respond_txd (d : Word) (e : Bool) : (respond d e s).txd = s.txd := rfl
@[simp] theorem respond_txv (d : Word) (e : Bool) : (respond d e s).txv = s.txv := rfl
@[simp] theorem respond_t0 (d : Word) (e : Bool) : (respond d e s).t0 = s.t0 := rfl
@[simp] theorem respond_tmoCur (d : Word) (e : Bool) : (respond d e s).tmoCur = s.tmoCur := rfl
@[simp] theorem respond_armed (d : Word) (e : Bool) : (respond d e s).armed = s.armed := rfl
@[simp] theorem respond_exp (d : Word) (e : Bool) : (respond d e s).exp = s.exp := rfl
@[simp] theorem respond_opc (d : Word) (e : Bool) : (respond d e s).opc = s.opc := rfl
@[simp] theorem respond_idx (d : Word) (e : Bool) : (respond d e s).idx = s.idx := rfl
@[simp] theorem respond_n (d : Word) (e : Bool) : (respond d e s).n = s.n := rfl
@[simp] theorem respond_budget (d : Word) (e : Bool) : (respond d e s).budget = s.budget := rfl
@[simp] theorem respond_lCmd (d : Word) (e : Bool) : (respond d e s).lCmd = s.lCmd := rfl
@[simp] theorem respond_lDevid (d : Word) (e : Bool) : (respond d e s).lDevid = s.lDevid := rfl
@[simp] theorem respond_lValue (d : Word) (e : Bool) : (respond d e s).lValue = s.lValue := rfl
@[simp] theorem respond_lLen (d : Word) (e : Bool) : (respond d e s).lLen = s.lLen := rfl
@[simp] theorem respond_lExpect (d : Word) (e : Bool) : (respond d e s).lExpect = s.lExpect := rfl
@[simp] theorem respond_lP0 (d : Word) (e : Bool) : (respond d e s).lP0 = s.lP0 := rfl
@[simp] theorem respond_lP1 (d : Word) (e : Bool) : (respond d e s).lP1 = s.lP1 := rfl
@[simp] theorem respond_lTb (d : Word) (e : Bool) : (respond d e s).lTb = s.lTb := rfl
@[simp] theorem respond_lTw (d : Word) (e : Bool) : (respond d e s).lTw = s.lTw := rfl
@[simp] theorem respond_cause (d : Word) (e : Bool) : (respond d e s).cause = s.cause := rfl
@[simp] theorem respond_params (d : Word) (e : Bool) : (respond d e s).params = s.params := rfl
@[simp] theorem respond_script (d : Word) (e : Bool) : (respond d e s).script = s.script := rfl
@[simp] theorem respond_turn (d : Word) (e : Bool) : (respond d e s).turn = s.turn := rfl
@[simp] theorem respond_wire (d : Word) (e : Bool) : (respond d e s).wire = s.wire := rfl
@[simp] theorem respond_bus (d : Word) (e : Bool) : (respond d e s).bus = some ⟨d, e⟩ := rfl

/-! `resetBlock` (R110). -/

@[simp] theorem resetBlock_opReg : (resetBlock s).opReg = (State.resetWith s.params).opReg := rfl
@[simp] theorem resetBlock_busy : (resetBlock s).busy = (State.resetWith s.params).busy := rfl
@[simp] theorem resetBlock_done : (resetBlock s).done = (State.resetWith s.params).done := rfl
@[simp] theorem resetBlock_ok : (resetBlock s).ok = (State.resetWith s.params).ok := rfl
@[simp] theorem resetBlock_recd : (resetBlock s).recd = (State.resetWith s.params).recd := rfl
@[simp] theorem resetBlock_rxOvf : (resetBlock s).rxOvf = (State.resetWith s.params).rxOvf := rfl
@[simp] theorem resetBlock_rej : (resetBlock s).rej = (State.resetWith s.params).rej := rfl
@[simp] theorem resetBlock_st : (resetBlock s).st = (State.resetWith s.params).st := rfl
@[simp] theorem resetBlock_cmd : (resetBlock s).cmd = (State.resetWith s.params).cmd := rfl
@[simp] theorem resetBlock_devid : (resetBlock s).devid = (State.resetWith s.params).devid := rfl
@[simp] theorem resetBlock_value : (resetBlock s).value = (State.resetWith s.params).value := rfl
@[simp] theorem resetBlock_len : (resetBlock s).len = (State.resetWith s.params).len := rfl
@[simp] theorem resetBlock_expect : (resetBlock s).expect = (State.resetWith s.params).expect := rfl
@[simp] theorem resetBlock_pattern : (resetBlock s).pattern = (State.resetWith s.params).pattern := rfl
@[simp] theorem resetBlock_tmoBlock : (resetBlock s).tmoBlock = (State.resetWith s.params).tmoBlock := rfl
@[simp] theorem resetBlock_tmoWait : (resetBlock s).tmoWait = (State.resetWith s.params).tmoWait := rfl
@[simp] theorem resetBlock_csum : (resetBlock s).csum = (State.resetWith s.params).csum := rfl
@[simp] theorem resetBlock_flen : (resetBlock s).flen = (State.resetWith s.params).flen := rfl
@[simp] theorem resetBlock_now : (resetBlock s).now = (State.resetWith s.params).now := rfl
@[simp] theorem resetBlock_rDevid : (resetBlock s).rDevid = (State.resetWith s.params).rDevid := rfl
@[simp] theorem resetBlock_rPower : (resetBlock s).rPower = (State.resetWith s.params).rPower := rfl
@[simp] theorem resetBlock_rDcv : (resetBlock s).rDcv = (State.resetWith s.params).rDcv := rfl
@[simp] theorem resetBlock_rDci : (resetBlock s).rDci = (State.resetWith s.params).rDci := rfl
@[simp] theorem resetBlock_rAcv : (resetBlock s).rAcv = (State.resetWith s.params).rAcv := rfl
@[simp] theorem resetBlock_rAci : (resetBlock s).rAci = (State.resetWith s.params).rAci := rfl
@[simp] theorem resetBlock_rState : (resetBlock s).rState = (State.resetWith s.params).rState := rfl
@[simp] theorem resetBlock_rTemp : (resetBlock s).rTemp = (State.resetWith s.params).rTemp := rfl
@[simp] theorem resetBlock_rValid : (resetBlock s).rValid = (State.resetWith s.params).rValid := rfl
@[simp] theorem resetBlock_buf : (resetBlock s).buf = (State.resetWith s.params).buf := rfl
@[simp] theorem resetBlock_rxq : (resetBlock s).rxq = (State.resetWith s.params).rxq := rfl
@[simp] theorem resetBlock_txd : (resetBlock s).txd = (State.resetWith s.params).txd := rfl
@[simp] theorem resetBlock_txv : (resetBlock s).txv = (State.resetWith s.params).txv := rfl
@[simp] theorem resetBlock_t0 : (resetBlock s).t0 = (State.resetWith s.params).t0 := rfl
@[simp] theorem resetBlock_tmoCur : (resetBlock s).tmoCur = (State.resetWith s.params).tmoCur := rfl
@[simp] theorem resetBlock_armed : (resetBlock s).armed = (State.resetWith s.params).armed := rfl
@[simp] theorem resetBlock_exp : (resetBlock s).exp = (State.resetWith s.params).exp := rfl
@[simp] theorem resetBlock_opc : (resetBlock s).opc = (State.resetWith s.params).opc := rfl
@[simp] theorem resetBlock_idx : (resetBlock s).idx = (State.resetWith s.params).idx := rfl
@[simp] theorem resetBlock_n : (resetBlock s).n = (State.resetWith s.params).n := rfl
@[simp] theorem resetBlock_budget : (resetBlock s).budget = (State.resetWith s.params).budget := rfl
@[simp] theorem resetBlock_lCmd : (resetBlock s).lCmd = (State.resetWith s.params).lCmd := rfl
@[simp] theorem resetBlock_lDevid : (resetBlock s).lDevid = (State.resetWith s.params).lDevid := rfl
@[simp] theorem resetBlock_lValue : (resetBlock s).lValue = (State.resetWith s.params).lValue := rfl
@[simp] theorem resetBlock_lLen : (resetBlock s).lLen = (State.resetWith s.params).lLen := rfl
@[simp] theorem resetBlock_lExpect : (resetBlock s).lExpect = (State.resetWith s.params).lExpect := rfl
@[simp] theorem resetBlock_lP0 : (resetBlock s).lP0 = (State.resetWith s.params).lP0 := rfl
@[simp] theorem resetBlock_lP1 : (resetBlock s).lP1 = (State.resetWith s.params).lP1 := rfl
@[simp] theorem resetBlock_lTb : (resetBlock s).lTb = (State.resetWith s.params).lTb := rfl
@[simp] theorem resetBlock_lTw : (resetBlock s).lTw = (State.resetWith s.params).lTw := rfl
@[simp] theorem resetBlock_cause : (resetBlock s).cause = (State.resetWith s.params).cause := rfl
@[simp] theorem resetBlock_params : (resetBlock s).params = s.params := rfl
@[simp] theorem resetBlock_script : (resetBlock s).script = s.script := rfl
@[simp] theorem resetBlock_turn : (resetBlock s).turn = s.turn := rfl
@[simp] theorem resetBlock_wire : (resetBlock s).wire = s.wire := rfl
@[simp] theorem resetBlock_bus : (resetBlock s).bus = s.bus := rfl

end Sys2Proof.Machine
end

