-- ==== Sys2Proof/Laws/Ops.lean ====
section
/-! SUPPORT. For each shared operation, once, everything it can do: acceptance, the frame encoder, the FIFO, the port, and
what a step of each phase answers. -/

namespace Sys2Proof.Machine

open Sys2Proof.Config

/-! Acceptance (R48). -/

theorem issue_busy (o : BitVec 4) (run : State → State) (s : State) (h : s.busy = true) : issue o run s = reject s := by
  simp [issue, h]

theorem issue_idle (o : BitVec 4) (run : State → State) (s : State) (h : s.busy = false) :
    issue o run s = run (accept o s) := by
  simp [issue, h]

theorem issueReserved_eq (s : State) : issueReserved s = reject s := by
  simp [issueReserved]

/-- Every row of the opcode table has a next state. -/
theorem exec_next (i : Instr) (s : State) : ∃ t, exec i s = .next t := by
  cases i <;> exact ⟨_, rfl⟩

/-! The frame buffer. -/

theorem frameSumGood_iff (s : State) :
    frameSumGood s = true ↔ sum8 ((List.range 14).map (bufAt s)) = bufAt s 14 := by
  simp only [frameSumGood, beq_iff_eq]
  rfl

theorem bufSum_eq (s : State) (k : Nat) : bufSum s k = sum8 ((List.range k).map (bufAt s)) := rfl

/-- Where `encodeFrame` writes and what: the frame of R51 at BUF[0..14], every other byte as before. -/
theorem encodeFrame_written (c : Byte) (d : Word) (v : Byte) (s : State) :
    BufWritten s (encodeFrame c d v s).buf 0 (sentFrame c d v) := by
  intro i
  simp only [encodeFrame, setFlen_buf, setBuf_buf, Memory.read_write, Memory.read_writeBytes]
  by_cases h : i = 14
  · subst h
    simp [sentFrame, bufSum, bufBytes, csumSpan, List.range_succ, sum8, Memory.read_writeBytes, bytes32, byteOf, rsvByte,
      magic]
    bv_omega
  · by_cases h2 : i < 14
    · rw [if_neg h]
      have : i = 0 ∨ i = 1 ∨ i = 2 ∨ i = 3 ∨ i = 4 ∨ i = 5 ∨ i = 6 ∨ i = 7 ∨ i = 8 ∨ i = 9 ∨ i = 10 ∨ i = 11 ∨
          i = 12 ∨ i = 13 := by omega
      rcases this with h | h | h | h | h | h | h | h | h | h | h | h | h | h <;> subst h <;>
        simp [sentFrame, bytes32, byteOf, rsvByte, magic]
    · rw [if_neg h, if_neg (by simp [bytes32]; omega), if_neg (by simp [sentFrame]; omega)]

theorem encodeFrame_wf (c : Byte) (d : Word) (v : Byte) (s : State) (h : Memory.wf s.buf = true) :
    Memory.wf (encodeFrame c d v s).buf = true := by
  simp only [encodeFrame, setFlen_buf, setBuf_buf]
  exact Memory.wf_write _ _ _ (Memory.wf_writeBytes _ _ _ h (by simp [bytes32, bufLen])) (by decide)

/-- The bytes of a well-formed command frame, offset by offset. -/
theorem commandBytes_eq (command : Byte) (f : CommandFrame) (h : f.wellFormed command = true) :
    commandBytes command f = sentFrame command f.deviceId f.value := by
  simp only [CommandFrame.wellFormed, Bool.and_eq_true, beq_iff_eq] at h
  obtain ⟨⟨ha, hb⟩, hc⟩ := h
  simp [commandBytes, commandBody, sentFrame, bytes32, bytes24, byteOf, ha, hb, hc, sum8, magic]
  bv_omega

/-- `offering` is the predicate the statements use. -/
theorem offering_iff (bytes : List Byte) (s : State) : offering bytes s = true ↔ Offers bytes s := by
  have key : s.n = bytes.length →
      (bufBytes s s.n = bytes ↔ ∀ i, i < bytes.length → Memory.read s.buf i = bytes.getD i 0#8) := by
    intro hn
    rw [hn]
    constructor
    · intro h i hi
      have := congrArg (fun l => l.getD i 0#8) h
      simpa [bufBytes, hi] using this
    · intro h
      apply List.ext_getElem
      · simp [bufBytes]
      · intro i h1 h2
        simpa [bufBytes, h2] using h i h2
  constructor
  · intro h
    simp only [offering, Bool.and_eq_true, decide_eq_true_eq, Bool.not_eq_true', beq_iff_eq] at h
    obtain ⟨⟨⟨⟨⟨h1, h2⟩, h3⟩, h4⟩, h5⟩, h6⟩ := h
    exact ⟨h1, h2, h3, h4, h5, (key h4).mp h6⟩
  · rintro ⟨h1, h2, h3, h4, h5, h6⟩
    simp only [offering, Bool.and_eq_true, decide_eq_true_eq, Bool.not_eq_true', beq_iff_eq]
    exact ⟨⟨⟨⟨⟨h1, h2⟩, h3⟩, h4⟩, h5⟩, (key h4).mpr h6⟩

/-! The RX FIFO (R22). -/

theorem push_room (b : Byte) (s : State) (h : s.rxq.length < s.params.rxqDepth) :
    push b s = { s with rxq := s.rxq ++ [b] } := if_pos h

theorem push_full (b : Byte) (s : State) (h : ¬s.rxq.length < s.params.rxqDepth) :
    push b s = { s with rxOvf := true } := if_neg h

theorem pushAll_append (bs cs : List Byte) (s : State) : pushAll (bs ++ cs) s = pushAll cs (pushAll bs s) := by
  induction bs generalizing s with
  | nil => rfl
  | cons b bs ih => exact ih (push b s)

theorem popInto_written (base k : Nat) (s : State) : BufWritten s (popInto base k s).buf base (s.rxq.take k) := by
  intro i
  simp only [popInto_buf, Memory.read_writeBytes]

/-! The port (R14, R31). -/

/-- Every register stands at its offset, and at no other. -/
theorem portReg_offset (r : PortReg) : portReg (portOffset r) = some r := by
  cases r with
  | buf i => revert i; decide
  | _ => rfl

/-- A frame decodes to a wire-frame row, never to an operation. -/
theorem decode_frame_row (d : Direction) (bytes : List Byte) (i : Instr) (h : decode (.frame d bytes) = .ok i) :
    (∃ f, i = .frameCmdStatus f) ∨ (∃ f, i = .frameCmdControl f) ∨ (∃ f, i = .frameCmdPowerGrade f) ∨
      (∃ f, i = .frameStatusReply f) ∨ (∃ f, i = .frameAckControl f) ∨ (∃ f, i = .frameAckPowerGrade f) := by
  cases d with
  | tx =>
    simp only [decode, decodeTx, checkCommand] at h
    repeat' split at h
    all_goals first | (injection h with h; subst h; simp) | cases h
  | rx =>
    simp only [decode, decodeRx, decodeStatusReply, decodeAck] at h
    repeat' split at h
    all_goals first | (injection h with h; subst h; simp) | cases h

/-! The phases (R77 to R82): what a step that answers a next state answered. -/

theorem stepFlush_cases {s t : State} (h : stepFlush s = .next t) :
    (s.opc = opcFlush ∧ t = complete true (discard (avail s) s)) ∨
      (s.opc ≠ opcFlush ∧ t = setPhase .tx (discard (avail s) s)) := by
  unfold stepFlush at h
  split at h
  · next ho => injection h with h; exact .inl ⟨ho, h.symm⟩
  · next ho => injection h with h; exact .inr ⟨ho, h.symm⟩

theorem stepTx_cases {s t : State} (h : stepTx s = .next t) :
    (s.txv = true ∧ t = s) ∨
    (s.txv = false ∧ s.idx < s.n ∧ s.idx < bufLen ∧ t = offerByte s) ∨
    (s.txv = false ∧ s.n ≤ s.idx ∧ s.opc = opcSend ∧ t = complete true s) ∨
    (s.txv = false ∧ s.n ≤ s.idx ∧ s.opc = opcGetStatus ∧
      t = setPhase .collect (arm s.lTb (setFlen 0 (setCount statusLen (setIdx 0 s))))) ∨
    (s.txv = false ∧ s.n ≤ s.idx ∧ s.opc = opcSendValidate ∧
      t = setPhase .hunt (arm s.lTw (setFlen 0 (setCount ackLen (setIdx 0 s))))) := by
  unfold stepTx endTx at h
  split at h
  · next ho =>
    injection h with h
    exact .inl ⟨ho, h.symm⟩
  · next hv =>
    have hv : s.txv = false := by simpa using hv
    split at h
    · next hlt =>
      split at h
      · next ho =>
        injection h with h
        exact .inr (.inl ⟨hv, hlt, ho, h.symm⟩)
      · cases h
    · next hi =>
      have hi : s.n ≤ s.idx := Nat.le_of_not_lt hi
      split at h
      · next ho =>
        injection h with h
        exact .inr (.inr (.inl ⟨hv, hi, ho, h.symm⟩))
      · split at h
        · next ho =>
          injection h with h
          exact .inr (.inr (.inr (.inl ⟨hv, hi, ho, h.symm⟩)))
        · split at h
          · next ho =>
            injection h with h
            exact .inr (.inr (.inr (.inr ⟨hv, hi, ho, h.symm⟩)))
          · cases h

theorem stepHunt_cases {s t : State} (h : stepHunt s = .next t) :
    (s.exp = true ∧ t = fail .headerNotFound s) ∨
    (s.exp = false ∧ s.rxq.length < 2 ∧ t = s) ∨
    (s.exp = false ∧ ∃ b0 b1 r, s.rxq = b0 :: b1 :: r ∧ headerPattern s = some (b0, b1) ∧ t = huntMatch s) ∨
    (s.exp = false ∧ ∃ b0 b1 r p, s.rxq = b0 :: b1 :: r ∧ headerPattern s = some p ∧ p ≠ (b0, b1) ∧
      t = discard 1 s) := by
  unfold stepHunt at h
  split at h
  · next ho =>
    injection h with h
    exact .inl ⟨ho, h.symm⟩
  · next hx =>
    have hx : s.exp = false := by simpa using hx
    split at h
    · next b0 b1 r hq =>
      split at h
      · cases h
      · next p0 p1 hp =>
        split at h
        · next he =>
          injection h with h
          exact .inr (.inr (.inl ⟨hx, b0, b1, r, hq, by rw [hp, he.1, he.2], h.symm⟩))
        · next he =>
          injection h with h
          exact .inr (.inr (.inr ⟨hx, b0, b1, r, (p0, p1), hq, hp, fun e => he (by simp_all), h.symm⟩))
    · next hq =>
      injection h with h
      refine .inr (.inl ⟨hx, ?_, h.symm⟩)
      match hr : s.rxq with
      | [] => simp
      | [a] => simp
      | a :: b :: r => exact absurd hr (hq a b r)

theorem stepCollect_cases {s t : State} (h : stepCollect s = .next t) :
    (s.exp = true ∧ t = fail (if s.idx = 0 then .timeout else .shortRead) s) ∨
    (s.exp = false ∧ s.rxq = [] ∧ t = s) ∨
    (s.exp = false ∧ s.rxq ≠ [] ∧ s.idx < bufLen ∧ t = collectByte s) := by
  unfold stepCollect avail at h
  split at h
  · next ho =>
    injection h with h
    exact .inl ⟨ho, h.symm⟩
  · next hx =>
    have hx : s.exp = false := by simpa using hx
    split at h
    · next hq =>
      injection h with h
      exact .inr (.inl ⟨hx, List.length_eq_zero_iff.mp hq, h.symm⟩)
    · next hq =>
      split at h
      · next ho =>
        injection h with h
        exact .inr (.inr ⟨hx, fun e => hq (by simp [e]), ho, h.symm⟩)
      · cases h

theorem stepFinish_cases {s t : State} (h : stepFinish s = .next t) :
    ((s.opc = opcRecvFixed ∨ s.opc = opcScanRecv) ∧ t = complete true s) ∨
    (s.opc = opcGetStatus ∧ t = finishGetStatus s) ∨ (s.opc = opcSendValidate ∧ t = finishSendValidate s) := by
  unfold stepFinish at h
  split at h
  · next ho =>
    injection h with h
    exact .inl ⟨ho, h.symm⟩
  · split at h
    · next ho =>
      injection h with h
      exact .inr (.inl ⟨ho, h.symm⟩)
    · split at h
      · next ho =>
        injection h with h
        exact .inr (.inr ⟨ho, h.symm⟩)
      · cases h

theorem stepPscan_cases {s t : State} (h : stepPscan s = .next t) :
    (s.budget < 2 ∧ t = endNoFrame s) ∨
    (2 ≤ s.budget ∧ ∃ b0 b1 r, s.rxq = b0 :: b1 :: r ∧
      ((¬(b0 = magic ∧ b1 = cmdStatus) ∧ t = setBudget (s.budget - 1) (discard 1 s)) ∨
       (b0 = magic ∧ b1 = cmdStatus ∧ s.budget < statusLen ∧ t = endNoFrame s) ∨
       (b0 = magic ∧ b1 = cmdStatus ∧ statusLen ≤ s.budget ∧ statusLen ≤ avail s ∧ t = scanFrame s))) := by
  unfold stepPscan at h
  split at h
  · next ho =>
    injection h with h
    exact .inl ⟨ho, h.symm⟩
  · next hb =>
    have hb : 2 ≤ s.budget := Nat.le_of_not_lt hb
    split at h
    · next b0 b1 r hq =>
      refine .inr ⟨hb, b0, b1, r, hq, ?_⟩
      split at h
      · next ho =>
        injection h with h
        exact .inl ⟨ho, h.symm⟩
      · next hh =>
        have hh : b0 = magic ∧ b1 = cmdStatus := Classical.not_not.mp hh
        split at h
        · next ho =>
          injection h with h
          exact .inr (.inl ⟨hh.1, hh.2, ho, h.symm⟩)
        · split at h
          · cases h
          · injection h with h
            exact .inr (.inr ⟨hh.1, hh.2, by omega, by omega, h.symm⟩)
    · cases h

/-! Counting FSM steps (log 13). -/

/-- Only an event that finds the FSM enabled counts. -/
theorem fsmEnabled_of_fsmStepsOf_pos {e : Event} {s : State} (h : 0 < fsmStepsOf e s) : fsmEnabled s = true := by
  unfold fsmStepsOf at h
  split at h
  · split at h
    · assumption
    · omega
  · split at h
    · next ho =>
      unfold offering at ho
      simp only [Bool.and_eq_true, decide_eq_true_eq, Bool.not_eq_true'] at ho
      simp [fsmEnabled, ho.1.1.1.1.1, ho.1.1.1.1.2]
    · omega
  all_goals omega

/-- The literal premise gives the weaker one. -/
theorem StepsPerTick.whenEnabled {c : Schedule} {s : State} (h : StepsPerTick c s) : StepsPerTickWhenEnabled c s :=
  fun i j hij _ => h i j hij

end Sys2Proof.Machine
end

