-- ==== Sys2Proof/Laws/PerInstr.lean ====
section
/-! SUPPORT. Per-instruction lemmas: the fixed part of every encoding. -/

namespace Sys2Proof.Laws.EncodingShape

open Sys2Proof.Config Sys2Proof.Machine

/-- The OPC column of R47; 16 for a wire frame, which has none. -/
def opcodeOf : Instr → Nat
  | .nop _ => 0
  | .encode _ => 1
  | .checksum _ => 2
  | .validate _ => 3
  | .decodeStatus _ => 4
  | .validateAck _ => 5
  | .send _ => 6
  | .flush _ => 7
  | .recvFixed _ => 8
  | .scanRecv _ => 9
  | .getStatus _ => 10
  | .sendValidate _ => 11
  | .drainOne _ => 12
  | .reservedD _ => 13
  | .reservedE _ => 14
  | .reservedF _ => 15
  | .frameCmdStatus _ => 16
  | .frameCmdControl _ => 16
  | .frameCmdPowerGrade _ => 16
  | .frameStatusReply _ => 16
  | .frameAckControl _ => 16
  | .frameAckPowerGrade _ => 16

/-- An OP word has its row's code in bits [3:0] (R46, R47). A frame starts with the magic byte and a command byte, and
direction and command byte fix its length (R54, R55). -/
def Statement (i : Instr) : Prop :=
  match encode i with
  | .op w => w.toNat % 16 = opcodeOf i
  | .frame d bytes =>
    bytes.getD 0 0#8 = 0x43#8 ∧
      (bytes.getD 1 0#8 = 0xC0#8 ∨ bytes.getD 1 0#8 = 0xC1#8 ∨ bytes.getD 1 0#8 = 0xC3#8) ∧
      bytes.length = if d = .rx ∧ bytes.getD 1 0#8 = 0xC0#8 then 27 else 15

theorem opWord_mod (x : BitVec 28) (k : BitVec 4) : (opWord x k).toNat % 16 = k.toNat := by
  simp only [opWord, BitVec.toNat_append]
  have := k.isLt
  rw [show x.toNat <<< 4 = x.toNat * 16 from Nat.shiftLeft_eq _ 4, Nat.mul_comm, ← Nat.two_pow_add_eq_or_of_lt (i := 4) this]
  omega

theorem nop (x : BitVec 28) : Statement (.nop x) := opWord_mod x 0#4
theorem encode (x : BitVec 28) : Statement (.encode x) := opWord_mod x 1#4
theorem checksum (x : BitVec 28) : Statement (.checksum x) := opWord_mod x 2#4
theorem validate (x : BitVec 28) : Statement (.validate x) := opWord_mod x 3#4
theorem decodeStatus (x : BitVec 28) : Statement (.decodeStatus x) := opWord_mod x 4#4
theorem validateAck (x : BitVec 28) : Statement (.validateAck x) := opWord_mod x 5#4
theorem send (x : BitVec 28) : Statement (.send x) := opWord_mod x 6#4
theorem flush (x : BitVec 28) : Statement (.flush x) := opWord_mod x 7#4
theorem recvFixed (x : BitVec 28) : Statement (.recvFixed x) := opWord_mod x 8#4
theorem scanRecv (x : BitVec 28) : Statement (.scanRecv x) := opWord_mod x 9#4
theorem getStatus (x : BitVec 28) : Statement (.getStatus x) := opWord_mod x 10#4
theorem sendValidate (x : BitVec 28) : Statement (.sendValidate x) := opWord_mod x 11#4
theorem drainOne (x : BitVec 28) : Statement (.drainOne x) := opWord_mod x 12#4
theorem reservedD (x : BitVec 28) : Statement (.reservedD x) := opWord_mod x 13#4
theorem reservedE (x : BitVec 28) : Statement (.reservedE x) := opWord_mod x 14#4
theorem reservedF (x : BitVec 28) : Statement (.reservedF x) := opWord_mod x 15#4

theorem frameCmdStatus (f : CommandFrame) : Statement (.frameCmdStatus f) := ⟨rfl, .inl rfl, rfl⟩

theorem frameCmdControl (f : CommandFrame) : Statement (.frameCmdControl f) := ⟨rfl, .inr (.inl rfl), rfl⟩

theorem frameCmdPowerGrade (f : CommandFrame) : Statement (.frameCmdPowerGrade f) := ⟨rfl, .inr (.inr rfl), rfl⟩

theorem frameStatusReply (f : StatusReply) : Statement (.frameStatusReply f) := ⟨rfl, .inl rfl, rfl⟩

theorem frameAckControl (f : AckReply) : Statement (.frameAckControl f) := ⟨rfl, .inr (.inl rfl), rfl⟩

theorem frameAckPowerGrade (f : AckReply) : Statement (.frameAckPowerGrade f) := ⟨rfl, .inr (.inr rfl), rfl⟩

end Sys2Proof.Laws.EncodingShape
end

