-- ==== Sys2Proof/Tests/Slice0.lean ====
section
/-! SUPPORT. Own tests, each with the place of spec/ its expected value comes from, and for every statement that has
hypotheses a concrete state that meets them. -/

namespace Sys2Proof.Tests

set_option Elab.async false

open Sys2Proof.Machine Sys2Proof.Config

/-! WellFormed: one ill-formed frame for each check of R51. -/

/-- The STATUS frame of R62's example. -/
def statusFrame : CommandFrame :=
  { reservedA := 0#32, deviceId := 0x11223344#32, reservedB := 0#24, value := 0x00#8, checksum := 0xAD#8 }

theorem test_wellFormed_accepts : WellFormed (.frameCmdStatus statusFrame) := by decide +kernel

theorem test_wellFormed_refuses_reservedA :
    ¬WellFormed (.frameCmdStatus { statusFrame with reservedA := 1#32, checksum := 0xAE#8 }) := by decide +kernel

theorem test_wellFormed_refuses_reservedB :
    ¬WellFormed (.frameCmdStatus { statusFrame with reservedB := 1#24, checksum := 0xAE#8 }) := by decide +kernel

theorem test_wellFormed_refuses_checksum :
    ¬WellFormed (.frameCmdStatus { statusFrame with checksum := 0xAE#8 }) := by decide +kernel

theorem test_wellFormed_refuses_control : ¬WellFormed (.frameCmdControl statusFrame) := by decide +kernel

theorem test_wellFormed_refuses_powerGrade : ¬WellFormed (.frameCmdPowerGrade statusFrame) := by decide +kernel

/-! Decoding of written-out words: OPC is bits [3:0] (R46, R47). -/

theorem test_decode_nop : decode (.op 0x00000000#32) = .ok (.nop 0#28) := rfl
theorem test_decode_encode : decode (.op 0xFFFFFFF1#32) = .ok (.encode 0xFFFFFFF#28) := rfl
theorem test_decode_checksum : decode (.op 0x00000002#32) = .ok (.checksum 0#28) := rfl
theorem test_decode_validate : decode (.op 0x00000003#32) = .ok (.validate 0#28) := rfl
theorem test_decode_decodeStatus : decode (.op 0x00000004#32) = .ok (.decodeStatus 0#28) := rfl
theorem test_decode_validateAck : decode (.op 0x00000005#32) = .ok (.validateAck 0#28) := rfl
theorem test_decode_send : decode (.op 0x00000006#32) = .ok (.send 0#28) := rfl
theorem test_decode_flush : decode (.op 0x00000007#32) = .ok (.flush 0#28) := rfl
theorem test_decode_recvFixed : decode (.op 0x00000018#32) = .ok (.recvFixed 1#28) := rfl
theorem test_decode_scanRecv : decode (.op 0x00000009#32) = .ok (.scanRecv 0#28) := rfl
theorem test_decode_getStatus : decode (.op 0x0000000A#32) = .ok (.getStatus 0#28) := rfl
theorem test_decode_sendValidate : decode (.op 0x0000000B#32) = .ok (.sendValidate 0#28) := rfl
theorem test_decode_drainOne : decode (.op 0x0000000C#32) = .ok (.drainOne 0#28) := rfl
theorem test_decode_reservedD : decode (.op 0x0000000D#32) = .ok (.reservedD 0#28) := rfl
theorem test_decode_reservedE : decode (.op 0x0000000E#32) = .ok (.reservedE 0#28) := rfl
theorem test_decode_reservedF : decode (.op 0x8000000F#32) = .ok (.reservedF 0x8000000#28) := rfl

/-- The 15 bytes of R62's example. -/
def statusFrameBytes : List Byte :=
  [0x43#8, 0xC0#8, 0#8, 0#8, 0#8, 0#8, 0x11#8, 0x22#8, 0x33#8, 0x44#8, 0#8, 0#8, 0#8, 0#8, 0xAD#8]

/-- The 15 bytes of R89's example; also the ack of R66's. -/
def gradeFrameBytes : List Byte :=
  [0x43#8, 0xC3#8, 0#8, 0#8, 0#8, 0#8, 0x11#8, 0x22#8, 0x33#8, 0x44#8, 0#8, 0#8, 0#8, 0x32#8, 0xE2#8]

/-- R51's sum for the same frame with CONTROL: two less. -/
def controlFrameBytes : List Byte :=
  [0x43#8, 0xC1#8, 0#8, 0#8, 0#8, 0#8, 0x11#8, 0x22#8, 0x33#8, 0x44#8, 0#8, 0#8, 0#8, 0x32#8, 0xE0#8]

/-- V-D1 of spec/95_test_vectors.md. -/
def replyBytes : List Byte :=
  [0x43#8, 0xC0#8, 0#8, 0#8, 0#8, 0#8, 0x11#8, 0x22#8, 0x33#8, 0x44#8, 0x42#8, 0xC8#8, 0#8, 0#8, 0xB7#8, 0x09#8, 0x60#8,
   0x01#8, 0xF4#8, 0x5A#8, 0x3C#8, 0x00#8, 0x64#8, 0#8, 0#8, 0x01#8, 0x19#8]

def gradeFrame : CommandFrame :=
  { reservedA := 0#32, deviceId := 0x11223344#32, reservedB := 0#24, value := 0x32#8, checksum := 0xE2#8 }

def controlFrame : CommandFrame := { gradeFrame with checksum := 0xE0#8 }

def ackReply : AckReply :=
  { reserved := 0#32, deviceId := 0x11223344#32, unnamed := 0#24, echo := 0x32#8, checksum := 0xE2#8 }

def statusReply : StatusReply :=
  { reserved := 0#32, deviceId := 0x11223344#32, power := 0x42C80000#32, checksum := 0xB7#8, dcv := 0x0960#16,
    dci := 0x01F4#16, acv := 0x5A3C#16, aci := 0x0064#16, tail := 0x00000119#32 }

theorem test_decode_frameCmdStatus : decode (.frame .tx statusFrameBytes) = .ok (.frameCmdStatus statusFrame) := rfl
theorem test_decode_frameCmdControl : decode (.frame .tx controlFrameBytes) = .ok (.frameCmdControl controlFrame) := rfl
theorem test_decode_frameCmdPowerGrade : decode (.frame .tx gradeFrameBytes) = .ok (.frameCmdPowerGrade gradeFrame) :=
  rfl
theorem test_decode_frameStatusReply : decode (.frame .rx replyBytes) = .ok (.frameStatusReply statusReply) := rfl
theorem test_decode_frameAckControl :
    decode (.frame .rx controlFrameBytes) = .ok (.frameAckControl { ackReply with checksum := 0xE0#8 }) := rfl
theorem test_decode_frameAckPowerGrade : decode (.frame .rx gradeFrameBytes) = .ok (.frameAckPowerGrade ackReply) := rfl

/-- R54: 0xC2 is no command. -/
theorem test_decode_refuses_command : decode (.frame .rx (gradeFrameBytes.set 1 0xC2#8)) = .error .unknownCommand := rfl
/-- R54: the magic byte is 0x43 in every frame. -/
theorem test_decode_refuses_magic : decode (.frame .tx (gradeFrameBytes.set 0 0x44#8)) = .error .badMagic := rfl
/-- R55: a reply to STATUS has 27 bytes. -/
theorem test_decode_refuses_length : decode (.frame .rx statusFrameBytes) = .error .wrongLength := rfl
/-- R51: the checksum of a command frame. -/
theorem test_decode_refuses_checksum : decode (.frame .tx (gradeFrameBytes.set 14 0xE3#8)) = .error .badChecksum := rfl
/-- R51: the reserved bytes of a command frame. -/
theorem test_decode_refuses_reserved : decode (.frame .tx (gradeFrameBytes.set 2 0x01#8)) = .error .reservedNotZero := rfl

theorem test_tableWord_op : decodeTableWord 32 0x6 = some (.send 0#28) := rfl
theorem test_tableWord_frame : (decodeTableWord 16 0x43C1).isSome = true := rfl

/-! One step of each instruction. -/

/-- The state of a next outcome; reset for any other. -/
def after : Host.Outcome State Fault Refusal → State
  | .next s => s
  | .fault _ => State.reset
  | .refused _ => State.reset

/-- An idle block with the operands of R89's example. -/
def idle : State :=
  { State.reset with cmd := 0xC3#8, devid := 0x11223344#32, value := 0x32#8, len := 15#8 }

/-- An idle block with these bytes in its frame buffer. -/
def holding (bytes : List Byte) (s : State) : State := { s with buf := Memory.writeBytes [] 0 bytes }

/-- A block running RECV_FIXED of 3 bytes, the deadline 100 ticks away. -/
def collecting : State :=
  { idle with opReg := 8#4, opc := 8#4, busy := true, st := .collect, n := 3, armed := true, tmoCur := 100#32 }

/-- A block running SCAN_RECV of 4 bytes for the header 43 C0. -/
def hunting : State :=
  { idle with opReg := 9#4, opc := 9#4, busy := true, st := .hunt, n := 4, armed := true, tmoCur := 1000#32,
              lP0 := 0x43#8, lP1 := 0xC0#8 }

/-- A block that is to send the 15 bytes of `bytes`. -/
def sending (opc : BitVec 4) (bytes : List Byte) : State :=
  holding bytes { idle with opReg := opc, opc := opc, busy := true, st := .tx, n := 15, lCmd := 0xC3#8, lValue := 0x32#8 }

/-- A block at DRAIN_ONE with these bytes queued and all of them in the budget. -/
def scanning (bytes : List Byte) : State :=
  { idle with opReg := 0xC#4, opc := 0xC#4, busy := true, st := .pscan, rxq := bytes, budget := bytes.length }

/-- R61's example. -/
theorem test_nop_status : statWord (after (exec (.nop 0#28) { State.reset with done := true })) = 0x00000006#32 := by
  decide +kernel
/-- R62's example. -/
theorem test_encode_frame :
    bufBytes (after (exec (.encode 0#28) { idle with cmd := 0xC0#8, value := 0#8 })) 15 = statusFrameBytes := by
  decide +kernel
/-- R62: 0xC2 is refused. -/
theorem test_encode_refuses : statWord (after (exec (.encode 0#28) { idle with cmd := 0xC2#8 })) = 0x00000002#32 := by
  decide +kernel
/-- R63's example: LEN = 15 gives 0x5A. -/
theorem test_checksum_wraps : (after (exec (.checksum 0#28) (holding statusFrameBytes idle))).csum = 0x5A#8 := by
  decide +kernel
/-- R63: LEN = 28 fails. -/
theorem test_checksum_refuses : (after (exec (.checksum 0#28) { idle with len := 28#8 })).cause = .operand := by
  decide +kernel
/-- R64's example. -/
theorem test_validate_mismatch :
    (after (exec (.validate 0#28) (holding statusFrameBytes { idle with len := 14#8, expect := 0xAE#8 }))).ok = false := by
  decide +kernel
/-- R65's example. -/
theorem test_decodeStatus_fields :
    let t := after (exec (.decodeStatus 0#28) (holding replyBytes idle))
    [readReg .rDevid t, readReg .rPower t, readReg .rDc t, readReg .rAc t, readReg .rMisc t] =
      [0x11223344#32, 0x42C80000#32, 0x01F40960#32, 0x00645A3C#32, 0x00011901#32] := by decide +kernel
/-- 95_test_vectors.md: STATE_OFS = 23 reads the two bytes after acI. -/
theorem test_decodeStatus_stateOfs :
    readReg .rMisc (after (exec (.decodeStatus 0#28)
      (holding replyBytes { idle with params := { Params.default with stateOfs := .at23 } }))) = 0x00010000#32 := by
  decide +kernel
/-- R66's example. -/
theorem test_validateAck_ok : (after (exec (.validateAck 0#28) (holding gradeFrameBytes idle))).ok = true := by
  decide +kernel
/-- R66's example: another value fails with ECHO. -/
theorem test_validateAck_echo :
    (after (exec (.validateAck 0#28) (holding gradeFrameBytes { idle with value := 0x33#8 }))).cause = .echo := by
  decide +kernel
/-- R84: STAT = BUSY in ST = TX. -/
theorem test_send_starts : statWord (after (exec (.send 0#28) idle)) = 0x00000201#32 := by decide +kernel
/-- R84: LEN = 0 completes at once. -/
theorem test_send_empty : statWord (after (exec (.send 0#28) { idle with len := 0#8 })) = 0x00000006#32 := by
  decide +kernel
/-- R85 (T4). -/
theorem test_flush_starts : statWord (after (exec (.flush 0#28) idle)) = 0x00000101#32 := by decide +kernel
/-- R86: the deadline is TMO_BLOCK. -/
theorem test_recvFixed_arms : (after (exec (.recvFixed 0#28) idle)).tmoCur = 100#32 := by decide +kernel
/-- R86: STAT (I6). -/
theorem test_recvFixed_starts : statWord (after (exec (.recvFixed 0#28) idle)) = 0x00000401#32 := by decide +kernel
/-- R87: LEN = 1 fails. -/
theorem test_scanRecv_refuses : statWord (after (exec (.scanRecv 0#28) { idle with len := 1#8 })) = 0x00000002#32 := by
  decide +kernel
/-- R87: the deadline is TMO_WAIT. -/
theorem test_scanRecv_arms : (after (exec (.scanRecv 0#28) idle)).tmoCur = 1000#32 := by decide +kernel
/-- R88's example: the frame it will send. -/
theorem test_getStatus_frame : bufBytes (after (exec (.getStatus 0#28) idle)) 15 = statusFrameBytes := by decide +kernel
/-- R88: it flushes first. -/
theorem test_getStatus_starts : statWord (after (exec (.getStatus 0#28) idle)) = 0x00000101#32 := by decide +kernel
/-- R89's example: the frame it will send. -/
theorem test_sendValidate_frame : bufBytes (after (exec (.sendValidate 0#28) idle)) 15 = gradeFrameBytes := by
  decide +kernel
/-- R89: STATUS is refused. -/
theorem test_sendValidate_refuses :
    statWord (after (exec (.sendValidate 0#28) { idle with cmd := 0xC0#8 })) = 0x00000002#32 := by decide +kernel
/-- R90: the budget is what is queued. -/
theorem test_drainOne_budget : (after (exec (.drainOne 0#28) { idle with rxq := replyBytes })).budget = 27 := by
  decide +kernel
/-- R48, R49. -/
theorem test_reservedD_rejects : statWord (after (exec (.reservedD 0#28) idle)) = 0x00000020#32 := by decide +kernel
theorem test_reservedE_keeps_opcode : (after (exec (.reservedE 0#28) { idle with opReg := 1#4 })).opReg = 1#4 := by
  decide +kernel
theorem test_reservedF_rejects : (after (exec (.reservedF 0#28) collecting)).rej = true := by decide +kernel
/-- R78, R34: the bytes go out in order. -/
theorem test_frameCmdStatus_wire :
    (after (exec (.frameCmdStatus statusFrame) (sending 6#4 statusFrameBytes))).wire = statusFrameBytes := by
  decide +kernel
theorem test_frameCmdControl_wire :
    (after (exec (.frameCmdControl controlFrame) (sending 6#4 controlFrameBytes))).wire = controlFrameBytes := by
  decide +kernel
theorem test_frameCmdPowerGrade_wire :
    (after (exec (.frameCmdPowerGrade gradeFrame) (sending 0xB#4 gradeFrameBytes))).wire = gradeFrameBytes := by
  decide +kernel
/-- Log 2: an idle block sends nothing. -/
theorem test_frameCmdPowerGrade_idle : (after (exec (.frameCmdPowerGrade gradeFrame) idle)).wire = [] := by
  decide +kernel
/-- R22: the bytes queue in wire order. -/
theorem test_frameStatusReply_queues : (after (exec (.frameStatusReply statusReply) idle)).rxq = replyBytes := by
  decide +kernel
/-- R98: with room for one byte, 26 are dropped. -/
theorem test_frameStatusReply_overflows :
    let t := after (exec (.frameStatusReply statusReply) { idle with rxq := List.replicate 63 0#8 })
    (t.rxq.getLastD 0#8, t.rxOvf) = (0x43#8, true) := by decide +kernel
theorem test_frameAckControl_queues :
    (after (exec (.frameAckControl { ackReply with checksum := 0xE0#8 }) idle)).rxq = controlFrameBytes := by
  decide +kernel
theorem test_frameAckPowerGrade_queues : (after (exec (.frameAckPowerGrade ackReply) idle)).rxq = gradeFrameBytes := by
  decide +kernel

/-! One FSM step, one tick and one access. -/

/-- R75 (T7, T8): the deadline wins over waiting bytes. -/
theorem test_deadline_wins :
    (after (fsmStep { collecting with exp := true, rxq := [1#8, 2#8, 3#8] })).cause = .timeout := by decide +kernel
/-- R24 (T10): the wrap of NOW hides no expiry. -/
theorem test_tick_wraps :
    let s := tick { collecting with now := 0xFFFFFFFF#32, t0 := 0xFFFFFF9C#32 }
    (s.now, s.exp) = (0#32, true) := by decide +kernel
/-- R79 (T15): a pattern with p0 = p1. -/
theorem test_hunt_doubled_header :
    (after (fsmStep { hunting with lP1 := 0x43#8, rxq := [0x43#8, 0x43#8, 0x01#8] })).rxq = [0x01#8] := by
  decide +kernel
/-- R82 (T32). -/
theorem test_scan_delivers : statWord (after (fsmStep (scanning replyBytes))) = 0x0000000E#32 := by decide +kernel
/-- R15's example. -/
theorem test_cmd_keeps_8_bits : readReg .cmd (writeReg .cmd 0x123456C1#32 State.reset) = 0x000000C1#32 := by
  decide +kernel
/-- R31, R32: 0x3C is unmapped. -/
theorem test_unmapped_offset : (hostRead 0x3C#8 4 idle).bus = some { data := 0#32, error := true } := by decide +kernel
/-- R69's example: 2400 reads as 24.0, and the largest value. -/
theorem test_scale : (scale 0x0960#16, scale 0xFFFF#16) = (0x41C00000#32, 0x4423D666#32) := by decide +kernel

/-! Witnesses: for every statement with hypotheses, states and operands that meet them, clause by clause and at the ends
of each range. `Inv` holds of the states used. -/

theorem idle_inv : Inv idle := by
  constructor <;> first | decide +kernel | exact ⟨rfl, rfl, rfl⟩

theorem collecting_inv : Inv collecting := by
  constructor <;> first | decide +kernel | exact ⟨rfl, by decide, by decide, rfl, .inl rfl⟩

theorem expired_inv : Inv { collecting with exp := true, now := 100#32 } := by
  constructor <;> first | decide +kernel | exact ⟨rfl, by decide, by decide, rfl, .inl rfl⟩

theorem collecting_last_inv : Inv { collecting with idx := 2, flen := 2, exp := true, now := 100#32 } := by
  constructor <;> first | decide +kernel | exact ⟨rfl, by decide, by decide, rfl, .inl rfl⟩

theorem collecting_byte_inv : Inv { collecting with rxq := [1#8] } := by
  constructor <;> first | decide +kernel | exact ⟨rfl, by decide, by decide, rfl, .inl rfl⟩

theorem collecting_last_byte_inv : Inv { collecting with idx := 2, flen := 2, rxq := [1#8] } := by
  constructor <;> first | decide +kernel | exact ⟨rfl, by decide, by decide, rfl, .inl rfl⟩

theorem hunting_inv : Inv hunting := by
  constructor <;> first | decide +kernel | exact ⟨rfl, rfl, by decide, by decide, .inl rfl⟩

theorem finish_inv : Inv { collecting with st := .finish, armed := false, idx := 3, flen := 3 } := by
  constructor <;> first | decide +kernel | exact ⟨rfl, rfl, by decide, rfl, .inl rfl⟩

theorem scanning_inv : Inv (scanning replyBytes) := by
  constructor <;> first | decide +kernel | exact ⟨rfl, rfl, by decide +kernel, rfl⟩

/-- A stray byte and a status reply with a wrong checksum (T34), to stand before a good reply. -/
def passedOver : List Byte := 0x00#8 :: (replyBytes.set 14 0xB8#8 ++ [])

theorem passedOver_skips : ScanSkips (replyBytes ++ []) 2 passedOver :=
  .dropByte 1 _ _ (by decide) (.dropFrame 0 _ _ rfl rfl rfl (by decide +kernel) .done)

theorem scanning_passedOver_inv : Inv (scanning (passedOver ++ replyBytes)) := by
  constructor <;> first | decide +kernel | exact ⟨rfl, rfl, by decide +kernel, rfl⟩

theorem scanning_short_inv : Inv (scanning [0x43#8, 0xC0#8]) := by
  constructor <;> first | decide +kernel | exact ⟨rfl, rfl, by decide +kernel, rfl⟩

theorem flushing_inv : Inv { idle with opReg := 7#4, opc := 7#4, busy := true, st := .flush } := by
  constructor <;> first | decide +kernel | exact ⟨rfl, rfl, .inl ⟨rfl, rfl⟩⟩

theorem witness_DecodeOfEncode :
    WellFormed (.frameCmdStatus statusFrame) ∧ WellFormed (.frameStatusReply statusReply) ∧ WellFormed (.nop 0xFFFFFFF#28) :=
  ⟨test_wellFormed_accepts, rfl, rfl⟩

theorem witness_EncodeOfDecode :
    decode (.op 0xFFFFFFF1#32) = .ok (.encode 0xFFFFFFF#28) ∧
      decode (.frame .tx statusFrameBytes) = .ok (.frameCmdStatus statusFrame) ∧
      decode (.frame .rx replyBytes) = .ok (.frameStatusReply statusReply) := ⟨rfl, rfl, rfl⟩

theorem witness_OpWordUpperBitsIgnored :
    (0xFFFFFFF1#32).extractLsb' 0 4 = (0x00000001#32).extractLsb' 0 4 := by decide

theorem witness_StepRunsDecodedInstruction :
    (({ idle with script := [.host (.write 0x00#8 4 6#32)] } : State).script = .host (.write 0x00#8 4 6#32) :: [] ∧
      decode (.op 6#32) = .ok (.send 0#28)) ∧
    (({ idle with script := [.wire .rx replyBytes] } : State).script = .wire .rx replyBytes :: [] ∧
      decode (.frame .rx replyBytes) = .ok (.frameStatusReply statusReply)) ∧
    idle.script = [] ∧ decodeTableWord 32 0xFFFFFFF1 = some (.encode 0xFFFFFFF#28) ∧
    (decodeTableWord 16 0x43C0).isSome = true := ⟨⟨rfl, rfl⟩, ⟨rfl, rfl⟩, rfl, rfl, rfl⟩

theorem witness_AcceptanceLatchesOperands :
    collecting.busy = true ∧ idle.busy = false ∧ ((0xFFFFFFFC#32).extractLsb' 0 4).toNat ≤ 12 ∧
      ((0xFFFFFFF0#32).extractLsb' 0 4).toNat ≤ 12 := ⟨rfl, rfl, by decide, by decide⟩

theorem witness_RejectedWritesOnlySetRej :
    collecting.busy = true ∧ 13 ≤ ((0xFFFFFFFD#32).extractLsb' 0 4).toNat ∧ 13 ≤ ((0x0000000F#32).extractLsb' 0 4).toNat :=
  ⟨rfl, by decide, by decide⟩

theorem witness_StickyFlagsStay :
    (∃ t, act (.host (.write 0x04#8 4 0x20#32)) { idle with rej := true } = .next t ∧ t.rej = false) ∧
    (∃ t, act (.host (.write 0x04#8 4 0x10#32)) { idle with rxOvf := true } = .next t ∧ t.rxOvf = false) ∧
    (∃ t, act .rst { idle with rej := true, rxOvf := true } = .next t ∧ t.rej = false ∧ t.rxOvf = false) :=
  ⟨⟨_, rfl, rfl⟩, ⟨_, rfl, rfl⟩, ⟨_, rfl, rfl, rfl⟩⟩

theorem witness_NopCompletes :
    idle.busy = false ∧ idle.st = .idle ∧ idle.rxOvf = false ∧ idle.rej = false ∧ collecting.busy = true :=
  ⟨rfl, rfl, rfl, rfl, rfl⟩

theorem witness_EncodeBuildsFrame :
    idle.busy = false ∧ idle.cmd = 0xC3#8 ∧ ({ idle with cmd := 0xC2#8 } : State).cmd ≠ 0xC3#8 ∧
      (∃ t, exec (.encode 0#28) idle = .next t) := ⟨rfl, rfl, by decide, ⟨_, rfl⟩⟩

theorem witness_ChecksumCompletes :
    idle.busy = false ∧ 27 < (28#8).toNat ∧ (27#8).toNat ≤ 27 ∧ (0#8).toNat ≤ 27 := by decide +kernel

theorem witness_ValidateCompletes :
    let s := holding statusFrameBytes { idle with len := 14#8, expect := 0xAD#8 }
    s.busy = false ∧ s.len.toNat ≤ 27 ∧ sum8 ((List.range s.len.toNat).map (bufAt s)) = s.expect ∧
      sum8 ((List.range s.len.toNat).map (bufAt s)) ≠ 0xAE#8 ∧ 27 < (28#8).toNat := by decide +kernel

theorem witness_DecodeStatusCompletes :
    let s := holding replyBytes idle
    let b := holding (replyBytes.set 14 0xB8#8) idle
    s.busy = false ∧ b.busy = false ∧ sum8 ((List.range 14).map (bufAt s)) = bufAt s 14 ∧
      sum8 ((List.range 14).map (bufAt b)) ≠ bufAt b 14 := by decide +kernel

theorem witness_ValidateAckCompletes :
    let s := holding gradeFrameBytes idle
    let b := holding (gradeFrameBytes.set 14 0xE3#8) idle
    s.busy = false ∧ sum8 ((List.range 14).map (bufAt s)) = bufAt s 14 ∧ bufAt s 13 = s.value ∧ bufAt s 13 ≠ 0x33#8 ∧
      sum8 ((List.range 14).map (bufAt b)) ≠ bufAt b 14 := by decide +kernel

theorem witness_ChecksumIsAdditiveSum :
    (1#8 ≠ 0#8) ∧ (1#8 + 0xFF#8 = 0#8) ∧ [1#8, 2#8].Perm [2#8, 1#8] ∧ 14 ≤ 14 :=
  ⟨by decide, by decide, List.Perm.swap .., by decide⟩

theorem witness_TamperingIsDetected :
    let s := holding replyBytes idle
    s.busy = false ∧ sum8 ((List.range 14).map (bufAt s)) = bufAt s 14 ∧
      0xFF#8 ≠ bufAt s 0 ∧ 0xFF#8 ≠ bufAt s 14 ∧ 0xFF#8 ≠ bufAt s 15 ∧ 0xFF#8 ≠ bufAt s 26 := by decide +kernel

theorem witness_SendStarts :
    idle.busy = false ∧ 27 < (28#8).toNat ∧ ({ idle with len := 0#8 } : State).len = 0#8 ∧ 1 ≤ (1#8).toNat ∧
      (27#8).toNat ≤ 27 := by decide +kernel

theorem witness_FlushEmptiesFifo : idle.busy = false := rfl

theorem witness_RecvFixedStarts :
    idle.busy = false ∧ 27 < (28#8).toNat ∧ ({ idle with len := 0#8 } : State).len = 0#8 ∧ 1 ≤ (1#8).toNat ∧
      (27#8).toNat ≤ 27 := by decide +kernel

theorem witness_ScanRecvStarts :
    idle.busy = false ∧ (1#8).toNat < 2 ∧ 27 < (28#8).toNat ∧ 2 ≤ (2#8).toNat ∧ (27#8).toNat ≤ 27 := by decide +kernel

theorem witness_GetStatusStarts : idle.busy = false := rfl

theorem witness_SendValidateStarts :
    idle.busy = false ∧ idle.cmd = 0xC3#8 ∧ ({ idle with cmd := 0xC1#8 } : State).cmd = 0xC1#8 ∧
      0xC0#8 ≠ 0xC1#8 ∧ 0xC0#8 ≠ 0xC3#8 := by decide +kernel

theorem witness_DrainOneStarts : idle.busy = false := rfl

theorem witness_CompletionEndsOperation :
    (∃ t, act .fsm { idle with opc := 7#4, busy := true, st := .flush } = .next t ∧ t.busy = false) ∧
    (∃ t, act .rst collecting = .next t ∧ t.busy = false) := ⟨⟨_, rfl, rfl⟩, ⟨_, rfl, rfl⟩⟩

theorem witness_DeadlineWins :
    (({ hunting with exp := true } : State).st = .hunt ∧ ({ hunting with exp := true } : State).exp = true) ∧
    (collecting.st = .collect ∧ collecting.idx = 0 ∧ ({ collecting with idx := 1 } : State).idx ≠ 0) ∧
    (∃ t, fsmStep { collecting with rxq := [1#8] } = .next t ∧ t.rxq ≠ [1#8]) ∧
    (∃ t, act .fsm { collecting with exp := true } = .next t ∧ t.exp = false) ∧
    (∃ t, act .rst { collecting with exp := true } = .next t ∧ t.exp = false) :=
  ⟨⟨rfl, rfl⟩, ⟨rfl, rfl, by decide⟩, ⟨_, rfl, by decide +kernel⟩, ⟨_, rfl, rfl⟩, ⟨_, rfl, rfl⟩⟩

theorem witness_FlushPhase :
    let s : State := { idle with opc := 7#4, busy := true, st := .flush }
    s.st = .flush ∧ s.opc = 0x7#4 ∧ 0xA#4 ≠ 0x7#4 ∧ (∃ t, fsmStep s = .next t) ∧ 0 < s.params.rxqDepth :=
  ⟨rfl, rfl, by decide, ⟨_, rfl⟩, by decide⟩

theorem witness_TxPhase :
    let s := sending 6#4 gradeFrameBytes
    s.st = .tx ∧ ({ s with txv := true } : State).txv = true ∧ s.txv = false ∧ s.idx < s.n ∧ s.n ≤ 27 ∧
      ({ s with n := 27, idx := 26 } : State).idx < 27 ∧ ({ s with idx := 15 } : State).idx = s.n ∧ s.opc = 0x6#4 ∧
      (sending 0xA#4 gradeFrameBytes).opc = 0xA#4 ∧ (sending 0xB#4 gradeFrameBytes).opc = 0xB#4 := by decide +kernel

theorem witness_HuntPhase :
    hunting.opc = 0x9#4 ∧ (sending 0xB#4 gradeFrameBytes).opc = 0xB#4 ∧ hunting.st = .hunt ∧ hunting.exp = false ∧
      headerPattern hunting = some (0x43#8, 0xC0#8) ∧
      ({ hunting with rxq := [0x43#8, 0xC0#8] } : State).rxq = 0x43#8 :: 0xC0#8 :: [] ∧
      ({ hunting with n := 2 } : State).n = 2 ∧ hunting.n ≠ 2 ∧ ¬(0x43#8 = 0x43#8 ∧ 0x43#8 = 0xC0#8) ∧
      ({ hunting with rxq := [0x43#8] } : State).rxq.length < 2 := by decide +kernel

theorem witness_CollectPhase :
    let byte : State := { collecting with rxq := [1#8] }
    let last : State := { collecting with idx := 2, flen := 2, rxq := [1#8] }
    (Inv collecting ∧ collecting.st = .collect ∧ collecting.exp = false ∧ collecting.rxq = []) ∧
    (Inv byte ∧ byte.st = .collect ∧ byte.exp = false ∧ byte.rxq = 1#8 :: [] ∧ byte.idx + 1 ≠ byte.n) ∧
    (Inv last ∧ last.st = .collect ∧ last.exp = false ∧ last.rxq = 1#8 :: [] ∧ last.idx + 1 = last.n) ∧
    (Inv { collecting with exp := true, now := 100#32 }) ∧
    (Inv { collecting with idx := 2, flen := 2, exp := true, now := 100#32 }) :=
  ⟨⟨collecting_inv, rfl, rfl, rfl⟩, ⟨collecting_byte_inv, rfl, rfl, rfl, by decide⟩,
    ⟨collecting_last_byte_inv, rfl, rfl, rfl, rfl⟩, expired_inv, collecting_last_inv⟩

theorem witness_FinishPhase :
    let s : State := { sending 0xA#4 gradeFrameBytes with st := .finish }
    let b : State := { sending 0xB#4 (gradeFrameBytes.set 14 0#8) with st := .finish }
    s.st = .finish ∧ sum8 ((List.range 14).map (bufAt s)) = bufAt s 14 ∧
      sum8 ((List.range 14).map (bufAt b)) ≠ bufAt b 14 ∧ bufAt s 13 = s.lValue ∧ bufAt s 13 ≠ 0x33#8 ∧
      collecting.opc = 0x8#4 ∧ hunting.opc = 0x9#4 ∧ s.opc = 0xA#4 ∧ b.opc = 0xB#4 := by decide +kernel

theorem witness_FinishPhase_inv :
    Inv { collecting with st := .finish, armed := false, idx := 3, flen := 3 } := finish_inv

theorem witness_ScanPhase :
    (Inv (scanning replyBytes) ∧ (scanning replyBytes).st = .pscan ∧ 27 ≤ (scanning replyBytes).budget ∧
      (scanning replyBytes).rxq = 0x43#8 :: 0xC0#8 :: replyBytes.drop 2 ∧
      sum8 ((scanning replyBytes).rxq.take 14) = (scanning replyBytes).rxq.getD 14 0#8) ∧
    (Inv (scanning [0x43#8, 0xC0#8]) ∧ 2 ≤ (scanning [0x43#8, 0xC0#8]).budget ∧
      (scanning [0x43#8, 0xC0#8]).budget < 27) ∧
    (scanning [0x43#8]).budget < 2 ∧
    sum8 ((replyBytes.set 14 0#8).take 14) ≠ (replyBytes.set 14 0#8).getD 14 0#8 :=
  ⟨⟨scanning_inv, rfl, by decide, rfl, by decide +kernel⟩, ⟨scanning_short_inv, by decide, by decide⟩, by decide,
    by decide +kernel⟩

theorem witness_HoldsChangeNothing :
    fsmEnabled collecting = false ∧ fsmEnabled idle = false ∧ fsmEnabled hunting = false ∧
      Inv { idle with opReg := 7#4, opc := 7#4, busy := true, st := .flush } ∧
      fsmEnabled { idle with opReg := 7#4, opc := 7#4, busy := true, st := .flush } = true ∧
      (∃ t, fsmStep { idle with opReg := 7#4, opc := 7#4, busy := true, st := .flush } = .next t) :=
  ⟨rfl, rfl, rfl, flushing_inv, rfl, ⟨_, rfl⟩⟩

theorem witness_HuntResynchronises :
    let s : State := { hunting with rxq := [0xFF#8, 0x43#8] ++ 0x43#8 :: 0xC0#8 :: [1#8, 2#8] }
    s.st = .hunt ∧ s.exp = false ∧ s.idx = 0 ∧ headerPattern s = some (0x43#8, 0xC0#8) ∧ 2 ≤ s.n ∧ s.n ≤ 27 ∧
      (∀ j < 2, ¬(s.rxq.getD j 0#8 = 0x43#8 ∧ s.rxq.getD (j + 1) 0#8 = 0xC0#8)) ∧ s.n - 2 ≤ [1#8, 2#8].length := by
  decide +kernel

theorem witness_SendEmitsBuffer :
    Inv idle ∧ idle.busy = false ∧ 1 ≤ idle.len.toNat ∧ idle.len.toNat ≤ 27 ∧ (∃ u, exec (.send 0#28) idle = .next u) :=
  ⟨idle_inv, rfl, by decide, by decide, ⟨_, rfl⟩⟩

theorem witness_GetStatusTransaction :
    Inv idle ∧ idle.busy = false ∧ idle.tmoBlock ≠ 0#32 ∧ (∃ a, exec (.getStatus 0#28) idle = .next a) ∧
      replyBytes.length = 27 ∧ 27 + (List.replicate 37 0#8).length ≤ idle.params.rxqDepth :=
  ⟨idle_inv, rfl, by decide, ⟨_, rfl⟩, rfl, by decide⟩

theorem witness_SendValidateTransaction :
    Inv idle ∧ idle.busy = false ∧ idle.tmoWait ≠ 0#32 ∧ idle.cmd = 0xC3#8 ∧ idle.rxq = [] ∧
      (∃ a, exec (.sendValidate 0#28) idle = .next a) ∧ gradeFrameBytes.length = 15 ∧
      gradeFrameBytes.getD 0 0#8 = 0x43#8 ∧ gradeFrameBytes.getD 1 0#8 = idle.cmd :=
  ⟨idle_inv, rfl, by decide, rfl, rfl, ⟨_, rfl⟩, rfl, rfl, rfl⟩

theorem witness_DrainOneBounded : Inv (scanning replyBytes) ∧ (scanning replyBytes).st = .pscan := ⟨scanning_inv, rfl⟩

theorem witness_DrainDeliversGoodFrame :
    (Inv (scanning replyBytes) ∧ (scanning replyBytes).st = .pscan ∧
      (scanning replyBytes).rxq = [] ++ replyBytes ++ [] ∧ ScanSkips (replyBytes ++ []) 0 [] ∧
      0 + 27 ≤ (scanning replyBytes).budget) ∧
    (Inv (scanning (passedOver ++ replyBytes)) ∧ (scanning (passedOver ++ replyBytes)).st = .pscan ∧
      (scanning (passedOver ++ replyBytes)).rxq = passedOver ++ replyBytes ++ [] ∧
      ScanSkips (replyBytes ++ []) 2 passedOver ∧
      passedOver.length + 27 ≤ (scanning (passedOver ++ replyBytes)).budget) ∧
    replyBytes.length = 27 ∧ replyBytes.getD 0 0#8 = 0x43#8 ∧ replyBytes.getD 1 0#8 = 0xC0#8 ∧
      sum8 (replyBytes.take 14) = replyBytes.getD 14 0#8 :=
  ⟨⟨scanning_inv, rfl, by decide +kernel, .done, by decide⟩,
    ⟨scanning_passedOver_inv, rfl, by decide +kernel, passedOver_skips, by decide +kernel⟩, rfl, rfl, rfl,
    by decide +kernel⟩

/-- A schedule that gives the FSM, the sink and the clock a step in turn. -/
def turns : Schedule := fun k => if k % 3 = 0 then .fsm else if k % 3 = 1 then .txTake else .msTick

theorem turns_progress (s : State) : Progress turns s where
  fsm := fun k h => ⟨3 * k, by omega, by simp [turns, fsmStepsOf, h (3 * k) (by omega)]⟩
  ticks := fun k => ⟨3 * k + 2, by omega, by simp [turns]⟩
  sink := fun k _ => ⟨3 * k + 1, by omega, by simp [turns, show (3 * k + 1) % 3 = 1 by omega]⟩

theorem witness_EveryOperationEnds : Inv collecting ∧ Progress turns collecting ∧ collecting.busy = true :=
  ⟨collecting_inv, turns_progress _, rfl⟩

theorem witness_IdleResultsStay :
    idle.st = .idle ∧ (∃ t, act (.rxByte 1#8) idle = .next t) ∧ (Event.rxByte 1#8) ≠ .rst ∧
      (∀ a, (Event.rxByte 1#8) ≠ .host a) := ⟨rfl, ⟨_, rfl⟩, by simp, by simp⟩

theorem witness_BadAccessChangesNothing :
    Mapped 0x38#8 ∧ Mapped 0x40#8 ∧ Mapped 0x50#8 ∧ Mapped 0x80#8 ∧ Mapped 0xE8#8 ∧ ¬Mapped 0x3C#8 ∧ ¬Mapped 0x54#8 ∧
      ¬Mapped 0x7C#8 ∧ ¬Mapped 0xEC#8 ∧ ¬Mapped 0x01#8 ∧ ¬(2 = 4) := by
  unfold Mapped; decide

theorem witness_RegistersShowState : idle.flen ≤ 27 ∧ idle.rxq.length ≤ 65535 := by decide +kernel

theorem witness_WritesKeepFieldBits : idle.busy = false ∧ PortReg.cmd ≠ .op ∧ PortReg.buf 26 ≠ .op :=
  ⟨rfl, by decide, by decide⟩

theorem witness_CommandFramesAreSent :
    (statusFrame.wellFormed 0xC0#8 = true ∧
      Offers (sentFrame 0xC0#8 statusFrame.deviceId statusFrame.value) (sending 6#4 statusFrameBytes)) ∧
    (controlFrame.wellFormed 0xC1#8 = true ∧
      Offers (sentFrame 0xC1#8 controlFrame.deviceId controlFrame.value) (sending 6#4 controlFrameBytes)) ∧
    (gradeFrame.wellFormed 0xC3#8 = true ∧
      Offers (sentFrame 0xC3#8 gradeFrame.deviceId gradeFrame.value) (sending 0xB#4 gradeFrameBytes)) ∧
    ¬Offers (commandBytes 0xC0#8 statusFrame) idle := by
  unfold Offers; decide +kernel

theorem witness_BufferIsCanonical :
    Memory.wf [(0, 0x43#8), (26, 0x19#8)] = true ∧ 0 < 27 ∧ 26 < 27 := by decide

theorem witness_InvAtReset :
    ({ Params.default with rxqDepth := 27 } : Params).legal = true ∧
      ({ Params.default with rxqDepth := 65535 } : Params).legal = true := by decide

theorem witness_InvKeptByStep :
    Inv { idle with script := [.msTick] } ∧ (∃ t, step { idle with script := [.msTick] } = .next t) :=
  ⟨by constructor <;> first | decide +kernel | exact ⟨rfl, rfl, rfl⟩, ⟨_, rfl⟩⟩

theorem witness_StepAlwaysAnswersNext : Inv collecting := collecting_inv

/-- 18631.0 times 1801 * 2^103 is (2^25 - 1) * 2^103 to the unit, where infinity begins; with the next smaller factor
the product is below it. -/
theorem witness_ProductIsNearest :
    F32Finite 0x00000001#32 ∧ F32Finite 0x7F7FFFFF#32 ∧ F32Finite 0x46918E00#32 ∧ F32Finite 0x78612000#32 ∧
      (2 ^ 25 - 1) * 2 ^ 103 = |f32Value 0x46918E00#32 * f32Value 0x78612000#32| ∧
      |f32Value 0x46918DFF#32 * f32Value 0x78612000#32| < (2 ^ 25 - 1) * 2 ^ 103 := by
  unfold F32Finite; decide +kernel

end Sys2Proof.Tests
end

section
/-! PROOFS. The Frame Codec operations that leave the buffer as it is (R61, R63, R64, R66), and the InverterStatus record
(R67, R68): what acceptance hands to an operation, what each operation answers in each of its cases, and the statements
put together from them. -/

namespace Sys2Proof.Machine

open Sys2Proof.Config

variable {s : State}

/-! An accepted operation runs on the accepted state (R48). -/

theorem exec_nop_idle (x : BitVec 28) (h : s.busy = false) : exec (.nop x) s = .next (runNop (accept opcNop s)) :=
  congrArg Host.Outcome.next (issue_idle opcNop runNop s h)

theorem exec_nop_busy (x : BitVec 28) (h : s.busy = true) : exec (.nop x) s = .next (reject s) :=
  congrArg Host.Outcome.next (issue_busy opcNop runNop s h)

theorem exec_checksum_idle (x : BitVec 28) (h : s.busy = false) :
    exec (.checksum x) s = .next (runChecksum (accept opcChecksum s)) :=
  congrArg Host.Outcome.next (issue_idle opcChecksum runChecksum s h)

theorem exec_validate_idle (x : BitVec 28) (h : s.busy = false) :
    exec (.validate x) s = .next (runValidate (accept opcValidate s)) :=
  congrArg Host.Outcome.next (issue_idle opcValidate runValidate s h)

theorem exec_validateAck_idle (x : BitVec 28) (h : s.busy = false) :
    exec (.validateAck x) s = .next (runValidateAck (accept opcValidateAck s)) :=
  congrArg Host.Outcome.next (issue_idle opcValidateAck runValidateAck s h)

/-! What an operation reads of the accepted state: the buffer of before, and the operands latched from the registers
(R26). -/

@[simp] theorem bufAt_accept (o : BitVec 4) (i : Nat) : bufAt (accept o s) i = bufAt s i :=
  congrArg (Memory.read · i) (accept_buf s o)

@[simp] theorem bufSum_accept (o : BitVec 4) (k : Nat) :
    bufSum (accept o s) k = sum8 ((List.range k).map (bufAt s)) := by
  simp [bufSum_eq, funext (bufAt_accept (s := s) o)]

@[simp] theorem lenOperand_accept (o : BitVec 4) : lenOperand (accept o s) = s.len.toNat :=
  congrArg BitVec.toNat (accept_lLen s o)

theorem frameSumGood_accept_iff (o : BitVec 4) :
    frameSumGood (accept o s) = true ↔ sum8 ((List.range 14).map (bufAt s)) = bufAt s 14 := by
  simp [frameSumGood_iff, funext (bufAt_accept (s := s) o)]

theorem echoGood_iff : echoGood s = true ↔ bufAt s 13 = s.lValue := beq_iff_eq

theorem echoGood_accept_iff (o : BitVec 4) : echoGood (accept o s) = true ↔ bufAt s 13 = s.value := by
  simp [echoGood_iff]

/-! What each operation answers, case by case. A success keeps CAUSE, a failure labels it (R58, R95). -/

theorem codecDone_keep_cause (r : Bool) : codecDone r s.cause s = { s with done := true, ok := r } := rfl

theorem runChecksum_of_long (h : 27 < lenOperand s) :
    runChecksum s = { s with done := true, ok := false, cause := .operand } := if_pos h

theorem runChecksum_of_fits (h : lenOperand s ≤ 27) :
    runChecksum s = { s with csum := bufSum s (lenOperand s), done := true, ok := true } := if_neg (Nat.not_lt.mpr h)

theorem runValidate_of_long (h : 27 < lenOperand s) :
    runValidate s = { s with done := true, ok := false, cause := .operand } := if_pos h

theorem runValidate_of_fits (h : lenOperand s ≤ 27) :
    runValidate s =
      if bufSum s (lenOperand s) = s.lExpect then { s with done := true, ok := true }
      else { s with done := true, ok := false, cause := .checksum } := if_neg (Nat.not_lt.mpr h)

theorem runValidateAck_of_bad_sum (h : ¬frameSumGood s = true) :
    runValidateAck s = { s with done := true, ok := false, cause := .checksum } := by
  simp [runValidateAck, h, codecDone]

theorem runValidateAck_of_bad_echo (h : frameSumGood s = true) (he : ¬echoGood s = true) :
    runValidateAck s = { s with done := true, ok := false, cause := .echo } := by
  simp [runValidateAck, h, he, codecDone]

theorem runValidateAck_of_good (h : frameSumGood s = true) (he : echoGood s = true) :
    runValidateAck s = { s with done := true, ok := true } := by
  simp [runValidateAck, h, he, codecDone_keep_cause]

/-- STAT of an idle block after a success: DONE and OK, nothing else (R17). -/
theorem statWord_of_idle_success (hst : s.st = .idle) (hrej : s.rej = false) (hovf : s.rxOvf = false)
    (hrec : s.recd = false) (hok : s.ok = true) (hdone : s.done = true) (hbusy : s.busy = false) :
    statWord s = 0x00000006#32 := by
  simp [statWord, stCode, hst, hrej, hovf, hrec, hok, hdone, hbusy]

/-! The statements. -/

/-- Settles O10: acceptance has cleared REC and CAUSE, so what NOP adds is DONE and OK. -/
theorem nopCompletes : Obligations.NopCompletes := by
  intro s x
  refine ⟨fun hidle => ⟨?_, fun hst hovf hrej => ?_⟩, exec_nop_busy x⟩
  · have hcleared : runNop (accept opcNop s) =
        { accept opcNop s with done := true, ok := true, recd := false, cause := .none } := by
      simp [runNop, codecDone]
    rw [exec_nop_idle x hidle, hcleared]
  · exact statWord_of_idle_success (by simpa) (by simpa) (by simpa) rfl rfl rfl (by simpa)

/-- Settles O12, by whether the latched length fits the buffer. -/
theorem checksumCompletes : Obligations.ChecksumCompletes := by
  intro s x hidle
  rw [exec_checksum_idle x hidle]
  refine ⟨fun hlong => ?_, fun hfits => ?_⟩
  · rw [runChecksum_of_long (by simpa)]
  · rw [runChecksum_of_fits (by simpa), bufSum_accept, lenOperand_accept]

/-- Settles O13, by whether the latched length fits the buffer and, where it does, whether the sum is EXPECT. -/
theorem validateCompletes : Obligations.ValidateCompletes := by
  intro s x hidle
  rw [exec_validate_idle x hidle]
  refine ⟨fun hlong => ?_, fun hfits hsum => ?_, fun hfits hsum => ?_⟩
  · rw [runValidate_of_long (by simpa)]
  · rw [runValidate_of_fits (by simpa), if_pos (by simpa)]
  · rw [runValidate_of_fits (by simpa), if_neg (by simpa)]

/-- Settles O16: the three cases of the two tests, the checksum first. -/
theorem validateAckCompletes : Obligations.ValidateAckCompletes := by
  intro s x hidle
  have hgood := frameSumGood_accept_iff (s := s) opcValidateAck
  have hecho := echoGood_accept_iff (s := s) opcValidateAck
  rw [exec_validateAck_idle x hidle]
  refine ⟨fun hsum hval => ?_, fun hsum => ?_, fun hsum hval => ?_⟩
  · rw [runValidateAck_of_good (hgood.mpr hsum) (hecho.mpr hval)]
  · rw [runValidateAck_of_bad_sum (hgood.not.mpr hsum)]
  · rw [runValidateAck_of_bad_echo (hgood.mpr hsum) (hecho.not.mpr hval)]

/-- The power is R_POWER's bits read as binary32, unchanged (R68). -/
theorem bits32ToF32_eq (w : Word) : bits32ToF32 w = w := rfl

/-- Settles O57, field by field of the record. -/
theorem recordReadsRegisters : Obligations.RecordReadsRegisters := by
  intro s
  exact ⟨rfl, rfl, rfl, bits32ToF32_eq s.rPower, rfl, rfl, rfl, rfl, rfl, rfl, rfl⟩

end Sys2Proof.Machine
end

section
/-! PROOFS. The end of an operation and its deadline (R73, R75), and the FLUSH and FINISH phases (R77, R81, R85): what a
running block keeps under every event but RESET and an FSM step, what the FSM step is in each phase, and the statements
put together from them. -/

namespace Sys2Proof.Machine

open Sys2Proof.Config

variable {s t : State}

/-! The shapes of `complete`, `fail` and `discard` (R22, R73). -/

theorem complete_eq (r : Bool) (s : State) :
    complete r s =
      { s with st := .idle, busy := false, done := true, ok := r, armed := false, exp := false, idx := 0, n := 0,
               budget := 0 } := rfl

theorem fail_eq (c : Cause) (s : State) :
    fail c s =
      { s with st := .idle, busy := false, done := true, ok := false, armed := false, exp := false, idx := 0, n := 0,
               budget := 0, cause := c, rValid := if s.opc = opcGetStatus then false else s.rValid } := rfl

theorem discard_avail (s : State) : discard (avail s) s = { s with rxq := [] } := by
  simp [discard, avail]

/-! The FSM step is the step of its phase (R72). -/

theorem fsmStep_idle (h : s.st = .idle) : fsmStep s = .next s := by simp [fsmStep, h]

theorem fsmStep_flush (h : s.st = .flush) : fsmStep s = stepFlush s := by simp [fsmStep, h]

theorem fsmStep_tx (h : s.st = .tx) : fsmStep s = stepTx s := by simp [fsmStep, h]

theorem fsmStep_hunt (h : s.st = .hunt) : fsmStep s = stepHunt s := by simp [fsmStep, h]

theorem fsmStep_collect (h : s.st = .collect) : fsmStep s = stepCollect s := by simp [fsmStep, h]

theorem fsmStep_finish (h : s.st = .finish) : fsmStep s = stepFinish s := by simp [fsmStep, h]

theorem fsmStep_pscan (h : s.st = .pscan) : fsmStep s = stepPscan s := by simp [fsmStep, h]

/-! What the FINISH step answers, operation by operation and test by test (R81). -/

theorem stepFinish_of_recv (h : s.opc = opcRecvFixed ∨ s.opc = opcScanRecv) :
    stepFinish s = .next (complete true s) := if_pos h

theorem stepFinish_of_getStatus (h : s.opc = opcGetStatus) : stepFinish s = .next (finishGetStatus s) := by
  simp +decide [stepFinish, h]

theorem stepFinish_of_sendValidate (h : s.opc = opcSendValidate) : stepFinish s = .next (finishSendValidate s) := by
  simp +decide [stepFinish, h]

/-- Only the queue differs from the state whose frame is checked. -/
theorem frameSumGood_emptied (s : State) : frameSumGood { s with rxq := [] } = frameSumGood s := rfl

theorem finishGetStatus_of_good (h : frameSumGood s = true) :
    finishGetStatus s = complete true (decodeFields { s with rxq := [] }) := by
  simp [finishGetStatus, discard_avail, frameSumGood_emptied, h]

theorem finishGetStatus_of_bad (h : ¬frameSumGood s = true) :
    finishGetStatus s = fail .checksum (decodeFields { s with rxq := [] }) := by
  simp [finishGetStatus, discard_avail, frameSumGood_emptied, h]

theorem finishSendValidate_of_good (h : frameSumGood s = true) (he : echoGood s = true) :
    finishSendValidate s = complete true s := by
  simp [finishSendValidate, h, he]

theorem finishSendValidate_of_bad_sum (h : ¬frameSumGood s = true) : finishSendValidate s = fail .checksum s := by
  simp [finishSendValidate, h]

theorem finishSendValidate_of_bad_echo (h : frameSumGood s = true) (he : ¬echoGood s = true) :
    finishSendValidate s = fail .echo s := by
  simp [finishSendValidate, h, he]

/-! What the other agents leave of a running operation: BUSY, and EXP once it is set. -/

@[simp] theorem sendBytes_busy (k : Nat) : (sendBytes k s).busy = s.busy := by
  induction k generalizing s with
  | zero => rfl
  | succ k ih => simp [sendBytes, sendByte, ih]

@[simp] theorem sendBytes_exp (k : Nat) : (sendBytes k s).exp = s.exp := by
  induction k generalizing s with
  | zero => rfl
  | succ k ih => simp [sendBytes, sendByte, ih]

@[simp] theorem emitFrame_busy (bytes : List Byte) : (emitFrame bytes s).busy = s.busy := by
  unfold emitFrame; split <;> simp

@[simp] theorem emitFrame_exp (bytes : List Byte) : (emitFrame bytes s).exp = s.exp := by
  unfold emitFrame; split <;> simp

@[simp] theorem receiveFrame_busy (bytes : List Byte) : (receiveFrame bytes s).busy = s.busy := by
  unfold receiveFrame
  induction bytes generalizing s with
  | nil => rfl
  | cons b bytes ih => simp [pushAll, ih]

@[simp] theorem receiveFrame_exp (bytes : List Byte) : (receiveFrame bytes s).exp = s.exp := by
  unfold receiveFrame
  induction bytes generalizing s with
  | nil => rfl
  | cons b bytes ih => simp [pushAll, ih]

@[simp] theorem writeReg_busy (r : PortReg) (v : Word) : (writeReg r v s).busy = s.busy := by
  cases r with
  | buf i => simp only [writeReg]; split <;> rfl
  | _ => rfl

@[simp] theorem writeReg_exp (r : PortReg) (v : Word) : (writeReg r v s).exp = s.exp := by
  cases r with
  | buf i => simp only [writeReg]; split <;> rfl
  | _ => rfl

@[simp] theorem hostRead_busy (a : BitVec 8) (width : Nat) : (hostRead a width s).busy = s.busy := by
  unfold hostRead; split <;> simp

@[simp] theorem hostRead_exp (a : BitVec 8) (width : Nat) : (hostRead a width s).exp = s.exp := by
  unfold hostRead; split <;> simp

/-- While an operation runs, an instruction is a rejected OP word or a frame on the wire (R48, R97). -/
theorem exec_running_cases (i : Instr) (hb : s.busy = true) :
    exec i s = .next (reject s) ∨ (∃ bytes, exec i s = .next (emitFrame bytes s)) ∨
      ∃ bytes, exec i s = .next (receiveFrame bytes s) := by
  have hissue (o : BitVec 4) (run : State → State) :
      Host.Outcome.next (φ := Fault) (ρ := Refusal) (issue o run s) = .next (reject s) :=
    congrArg Host.Outcome.next (issue_busy o run s hb)
  have hreserved : Host.Outcome.next (φ := Fault) (ρ := Refusal) (issueReserved s) = .next (reject s) :=
    congrArg Host.Outcome.next (issueReserved_eq s)
  cases i with
  | frameCmdStatus f | frameCmdControl f | frameCmdPowerGrade f => exact .inr (.inl ⟨_, rfl⟩)
  | frameStatusReply f | frameAckControl f | frameAckPowerGrade f => exact .inr (.inr ⟨_, rfl⟩)
  | reservedD | reservedE | reservedF => exact .inl hreserved
  | _ => exact .inl (hissue _ _)

theorem exec_running_frame (i : Instr) (h : exec i s = .next t) (hb : s.busy = true) :
    t.busy = true ∧ t.exp = s.exp := by
  obtain he | ⟨bytes, he⟩ | ⟨bytes, he⟩ := exec_running_cases i hb
  all_goals
    rw [he] at h
    cases h
    simp [hb]

theorem hostWrite_running_frame (a : BitVec 8) (width : Nat) (v : Word) (h : hostWrite a width v s = .next t)
    (hb : s.busy = true) : t.busy = true ∧ t.exp = s.exp := by
  unfold hostWrite at h
  split at h
  · cases h
    simp [hb]
  · simpa using exec_running_frame _ h (by simpa using hb)
  · cases h
    simp [hb]

theorem wireStep_running_frame (d : Direction) (bytes : List Byte) (h : wireStep d bytes s = .next t)
    (hb : s.busy = true) : t.busy = true ∧ t.exp = s.exp := by
  unfold wireStep at h
  split at h
  · exact exec_running_frame _ h hb
  · cases d with
    | tx | rx =>
      cases h
      simp [hb]

/-- Only RESET and an FSM step end a running operation or take back the expiry of its deadline. -/
theorem act_running_keeps (e : Event) (h : act e s = .next t) (hb : s.busy = true) :
    e = .rst ∨ e = .fsm ∨ (t.busy = true ∧ (s.exp = true → t.exp = true)) := by
  cases e with
  | rst => exact .inl rfl
  | fsm => exact .inr (.inl rfl)
  | host a =>
    cases a with
    | read a width =>
      cases h
      simp [hb]
    | write a width v =>
      obtain ⟨hbusy, hexp⟩ := hostWrite_running_frame a width v h hb
      exact .inr (.inr ⟨hbusy, hexp.trans⟩)
  | wire d bytes =>
    obtain ⟨hbusy, hexp⟩ := wireStep_running_frame d bytes h hb
    exact .inr (.inr ⟨hbusy, hexp.trans⟩)
  | rxByte | txTake | msTick =>
    cases h
    simp +contextual [hb]

/-! An FSM step keeps BUSY or is a completion (R73). -/

/-- `t` follows `s` with BUSY as it was, or by `complete`. -/
def KeepsBusyOrCompletes (s t : State) : Prop := t.busy = s.busy ∨ ∃ (r : Bool) (u : State), t = complete r u

theorem keepsBusyOrCompletes_of_busy (h : t.busy = s.busy) : KeepsBusyOrCompletes s t := .inl h

theorem keepsBusyOrCompletes_complete (r : Bool) (u : State) : KeepsBusyOrCompletes s (complete r u) :=
  .inr ⟨r, u, rfl⟩

theorem keepsBusyOrCompletes_fail (c : Cause) (u : State) : KeepsBusyOrCompletes s (fail c u) :=
  keepsBusyOrCompletes_complete false (labelFailure c u)

@[simp] theorem huntMatch_busy : (huntMatch s).busy = s.busy := by
  unfold huntMatch; split <;> simp

@[simp] theorem collectByte_busy : (collectByte s).busy = s.busy := by
  unfold collectByte; split <;> simp

theorem stepFlush_keepsBusyOrCompletes (h : stepFlush s = .next t) : KeepsBusyOrCompletes s t := by
  obtain ⟨-, rfl⟩ | ⟨-, rfl⟩ := stepFlush_cases h
  · exact keepsBusyOrCompletes_complete _ _
  · exact keepsBusyOrCompletes_of_busy (by simp)

theorem stepTx_keepsBusyOrCompletes (h : stepTx s = .next t) : KeepsBusyOrCompletes s t := by
  obtain ⟨-, rfl⟩ | ⟨-, -, -, rfl⟩ | ⟨-, -, -, rfl⟩ | ⟨-, -, -, rfl⟩ | ⟨-, -, -, rfl⟩ := stepTx_cases h
  · exact keepsBusyOrCompletes_of_busy rfl
  · exact keepsBusyOrCompletes_of_busy (by simp)
  · exact keepsBusyOrCompletes_complete _ _
  · exact keepsBusyOrCompletes_of_busy (by simp)
  · exact keepsBusyOrCompletes_of_busy (by simp)

theorem stepHunt_keepsBusyOrCompletes (h : stepHunt s = .next t) : KeepsBusyOrCompletes s t := by
  obtain ⟨-, rfl⟩ | ⟨-, -, rfl⟩ | ⟨-, _, _, _, -, -, rfl⟩ | ⟨-, _, _, _, _, -, -, -, rfl⟩ := stepHunt_cases h
  · exact keepsBusyOrCompletes_fail _ _
  · exact keepsBusyOrCompletes_of_busy rfl
  · exact keepsBusyOrCompletes_of_busy (by simp)
  · exact keepsBusyOrCompletes_of_busy (by simp)

theorem stepCollect_keepsBusyOrCompletes (h : stepCollect s = .next t) : KeepsBusyOrCompletes s t := by
  obtain ⟨-, rfl⟩ | ⟨-, -, rfl⟩ | ⟨-, -, -, rfl⟩ := stepCollect_cases h
  · exact keepsBusyOrCompletes_fail _ _
  · exact keepsBusyOrCompletes_of_busy rfl
  · exact keepsBusyOrCompletes_of_busy (by simp)

theorem finishGetStatus_keepsBusyOrCompletes : KeepsBusyOrCompletes s (finishGetStatus s) := by
  by_cases h : frameSumGood s = true
  · rw [finishGetStatus_of_good h]
    exact keepsBusyOrCompletes_complete _ _
  · rw [finishGetStatus_of_bad h]
    exact keepsBusyOrCompletes_fail _ _

theorem finishSendValidate_keepsBusyOrCompletes : KeepsBusyOrCompletes s (finishSendValidate s) := by
  unfold finishSendValidate
  split
  · exact keepsBusyOrCompletes_complete _ _
  · split <;> exact keepsBusyOrCompletes_fail _ _

theorem stepFinish_keepsBusyOrCompletes (h : stepFinish s = .next t) : KeepsBusyOrCompletes s t := by
  obtain ⟨-, ht⟩ | ⟨-, ht⟩ | ⟨-, ht⟩ := stepFinish_cases h
  all_goals rw [ht]
  · exact keepsBusyOrCompletes_complete _ _
  · exact finishGetStatus_keepsBusyOrCompletes
  · exact finishSendValidate_keepsBusyOrCompletes

theorem scanFrame_keepsBusyOrCompletes : KeepsBusyOrCompletes s (scanFrame s) := by
  simp only [scanFrame]
  split
  · exact keepsBusyOrCompletes_complete _ _
  · exact keepsBusyOrCompletes_of_busy (by simp)

theorem stepPscan_keepsBusyOrCompletes (h : stepPscan s = .next t) : KeepsBusyOrCompletes s t := by
  obtain ⟨-, ht⟩ | ⟨-, _, _, _, -, ⟨-, ht⟩ | ⟨-, -, -, ht⟩ | ⟨-, -, -, -, ht⟩⟩ := stepPscan_cases h
  all_goals rw [ht]
  · exact keepsBusyOrCompletes_complete _ _
  · exact keepsBusyOrCompletes_of_busy (by simp)
  · exact keepsBusyOrCompletes_complete _ _
  · exact scanFrame_keepsBusyOrCompletes

theorem fsmStep_keepsBusyOrCompletes (h : fsmStep s = .next t) : KeepsBusyOrCompletes s t := by
  cases hst : s.st with
  | idle =>
    rw [fsmStep_idle hst] at h
    cases h
    exact keepsBusyOrCompletes_of_busy rfl
  | flush => exact stepFlush_keepsBusyOrCompletes ((fsmStep_flush hst).symm.trans h)
  | tx => exact stepTx_keepsBusyOrCompletes ((fsmStep_tx hst).symm.trans h)
  | hunt => exact stepHunt_keepsBusyOrCompletes ((fsmStep_hunt hst).symm.trans h)
  | collect => exact stepCollect_keepsBusyOrCompletes ((fsmStep_collect hst).symm.trans h)
  | finish => exact stepFinish_keepsBusyOrCompletes ((fsmStep_finish hst).symm.trans h)
  | pscan => exact stepPscan_keepsBusyOrCompletes ((fsmStep_pscan hst).symm.trans h)

/-- Settles O26: an operation ends by RESET or by an FSM step, and an FSM step that does not keep BUSY is a
completion. -/
theorem completionEndsOperation : Obligations.CompletionEndsOperation := by
  refine ⟨complete_eq, fail_eq, fun e s t h hb hidle => ?_⟩
  obtain rfl | rfl | ⟨hbusy, -⟩ := act_running_keeps e h hb
  · exact .inl rfl
  · obtain hsame | hdone := fsmStep_keepsBusyOrCompletes h
    · simp [hsame, hb] at hidle
    · exact .inr ⟨rfl, hdone⟩
  · simp [hbusy] at hidle

/-! The deadline is tested first in HUNT and COLLECT (R75). -/

theorem stepHunt_expired (hx : s.exp = true) : stepHunt s = .next (fail .headerNotFound s) := if_pos hx

theorem stepCollect_expired (hx : s.exp = true) :
    stepCollect s = .next (fail (if s.idx = 0 then .timeout else .shortRead) s) := if_pos hx

/-- With the deadline expired, a receive phase fails and takes no byte. -/
theorem fsmStep_expired_rxq (hst : s.st = .hunt ∨ s.st = .collect) (hx : s.exp = true) (h : fsmStep s = .next t) :
    t.rxq = s.rxq := by
  obtain hst | hst := hst
  · rw [fsmStep_hunt hst, stepHunt_expired hx] at h
    cases h
    exact fail_rxq s _
  · rw [fsmStep_collect hst, stepCollect_expired hx] at h
    cases h
    exact fail_rxq s _

/-- Settles O28, clause by clause. -/
theorem deadlineWins : Obligations.DeadlineWins := by
  refine ⟨fun s hst hx => ?_, fun s hst hx hi => ?_, fun s hst hx hi => ?_, fun s t hst h htaken => ?_,
    fun s => by simp, fun e s t h hb hx hcleared => ?_⟩
  · rw [fsmStep_hunt hst, stepHunt_expired hx]
  · rw [fsmStep_collect hst, stepCollect_expired hx, if_pos hi]
  · rw [fsmStep_collect hst, stepCollect_expired hx, if_neg hi]
  · exact Bool.eq_false_iff.mpr fun hx => htaken (fsmStep_expired_rxq hst hx h)
  · obtain hrst | hfsm | ⟨-, hkept⟩ := act_running_keeps e h hb
    · exact .inl hrst
    · exact .inr hfsm
    · simp [hkept hx] at hcleared

/-! The FLUSH phase (R77, R85). -/

theorem stepFlush_of_flush (h : s.opc = opcFlush) : stepFlush s = .next (complete true { s with rxq := [] }) := by
  rw [stepFlush, if_pos h, discard_avail]

theorem stepFlush_of_other (h : s.opc ≠ opcFlush) : stepFlush s = .next { s with rxq := [], st := .tx } := by
  rw [stepFlush, if_neg h, discard_avail, setPhase]

theorem stepFlush_frame (h : stepFlush s = .next t) : t.rxq = [] ∧ t.params = s.params := by
  obtain ⟨-, rfl⟩ | ⟨-, rfl⟩ := stepFlush_cases h
  all_goals simp [discard_avail]

theorem exec_flush_idle (x : BitVec 28) (h : s.busy = false) :
    exec (.flush x) s = .next (startFlush (accept opcFlush s)) :=
  congrArg Host.Outcome.next (issue_idle opcFlush startFlush s h)

theorem startFlush_eq (s : State) : startFlush s = { s with busy := true, st := .flush } := rfl

/-- Settles O20: the accepted state enters ST = FLUSH, and its step is the completing branch of R77. -/
theorem flushEmptiesFifo : Obligations.FlushEmptiesFifo := by
  intro s x hidle
  refine ⟨_, exec_flush_idle x hidle, startFlush_eq _, ?_⟩
  have hopc : (startFlush (accept opcFlush s)).opc = opcFlush := accept_opc s opcFlush
  rw [fsmStep_flush rfl, stepFlush_of_flush hopc, complete_eq]
  rfl

/-- Settles O29: the two branches of R77, and a push into the emptied FIFO. -/
theorem flushPhase : Obligations.FlushPhase := by
  intro s hst
  rw [fsmStep_flush hst]
  refine ⟨stepFlush_of_flush, stepFlush_of_other, fun t b h hroom => ?_⟩
  obtain ⟨hempty, hparams⟩ := stepFlush_frame h
  rw [push_room b t (by simpa [hempty, hparams] using hroom)]
  simp [hempty]

/-! The FINISH phase: where the operation stands in it, and its statement (R81). -/

/-- All N bytes are in BUF when FINISH is reached (R25, R81). -/
theorem Inv.finish_position (hinv : Inv s) (hst : s.st = .finish) : s.idx = s.n ∧ s.flen = s.n := by
  have hphase := hinv.phase
  simp only [PhaseInv, hst] at hphase
  obtain ⟨-, hidx, -, hflen, -⟩ := hphase
  exact ⟨hidx, hflen⟩

/-- Settles O33, by the operation and the two tests, the checksum first. -/
theorem finishPhase : Obligations.FinishPhase := by
  intro s hst
  have hgood := frameSumGood_iff s
  have hecho := echoGood_iff (s := s)
  rw [fsmStep_finish hst]
  refine ⟨stepFinish_of_recv, fun ho h => ?_, fun ho h => ?_, fun ho h he => ?_, fun ho h => ?_, fun ho h he => ?_,
    fun hinv => hinv.finish_position hst⟩
  · rw [stepFinish_of_getStatus ho, finishGetStatus_of_good (hgood.mpr h)]
  · rw [stepFinish_of_getStatus ho, finishGetStatus_of_bad (hgood.not.mpr h)]
  · rw [stepFinish_of_sendValidate ho, finishSendValidate_of_good (hgood.mpr h) (hecho.mpr he)]
  · rw [stepFinish_of_sendValidate ho, finishSendValidate_of_bad_sum (hgood.not.mpr h)]
  · rw [stepFinish_of_sendValidate ho, finishSendValidate_of_bad_echo (hgood.mpr h) (hecho.not.mpr he)]

end Sys2Proof.Machine
end

section
/-! PROOFS. Encodings (R46, R47, R51 to R55): a field and its bytes, an OP word and its code, and the two directions of
the round trip, row by row. -/

namespace Sys2Proof.Machine

open Sys2Proof.Config

/-! A field is put together from its bytes and taken apart into them (R7, R33): both are arithmetic on the values. -/

theorem toNat_append_eq {v w : Nat} (x : BitVec v) (y : BitVec w) : (x ++ y).toNat = 2 ^ w * x.toNat + y.toNat := by
  rw [BitVec.toNat_append, Nat.shiftLeft_eq, Nat.mul_comm, ← Nat.two_pow_add_eq_or_of_lt y.isLt]

theorem byteOf_toNat {w : Nat} (v : BitVec w) (k : Nat) : (byteOf v k).toNat = v.toNat / 2 ^ (8 * k) % 256 := by
  simp [byteOf, Nat.shiftRight_eq_div_pow]

theorem be16_toNat (a b : Byte) : (be16 a b).toNat = 256 * a.toNat + b.toNat := toNat_append_eq a b

theorem be24_toNat (a b c : Byte) : (be24 a b c).toNat = 65536 * a.toNat + 256 * b.toNat + c.toNat := by
  have hab := toNat_append_eq a b
  have h := toNat_append_eq (a ++ b) c
  simp only [be24]
  omega

theorem be32_toNat (a b c d : Byte) :
    (be32 a b c d).toNat = 16777216 * a.toNat + 65536 * b.toNat + 256 * c.toNat + d.toNat := by
  have habc : (a ++ b ++ c).toNat = _ := be24_toNat a b c
  have h := toNat_append_eq (a ++ b ++ c) d
  simp only [be32]
  omega

@[simp] theorem be16_byteOf (v : Half) : be16 (byteOf v 1) (byteOf v 0) = v := by
  apply BitVec.eq_of_toNat_eq
  simp only [be16_toNat, byteOf_toNat]
  omega

@[simp] theorem be24_byteOf (v : BitVec 24) : be24 (byteOf v 2) (byteOf v 1) (byteOf v 0) = v := by
  apply BitVec.eq_of_toNat_eq
  simp only [be24_toNat, byteOf_toNat]
  omega

@[simp] theorem be32_byteOf (v : Word) : be32 (byteOf v 3) (byteOf v 2) (byteOf v 1) (byteOf v 0) = v := by
  apply BitVec.eq_of_toNat_eq
  simp only [be32_toNat, byteOf_toNat]
  omega

@[simp] theorem bytes16_be16 (a b : Byte) : bytes16 (be16 a b) = [a, b] := by
  simp only [bytes16, List.cons.injEq, ← BitVec.toNat_inj, byteOf_toNat, be16_toNat, and_true]
  omega

@[simp] theorem bytes24_be24 (a b c : Byte) : bytes24 (be24 a b c) = [a, b, c] := by
  simp only [bytes24, List.cons.injEq, ← BitVec.toNat_inj, byteOf_toNat, be24_toNat, and_true]
  omega

@[simp] theorem bytes32_be32 (a b c d : Byte) : bytes32 (be32 a b c d) = [a, b, c, d] := by
  simp only [bytes32, List.cons.injEq, ← BitVec.toNat_inj, byteOf_toNat, be32_toNat, and_true]
  omega

/-! An OP word is its code under 28 bits that nothing reads (R46). -/

@[simp] theorem opWord_code (x : BitVec 28) (o : BitVec 4) : (opWord x o).extractLsb' 0 4 = o :=
  BitVec.extractLsb'_append_eq_right

@[simp] theorem opWord_ignored (x : BitVec 28) (o : BitVec 4) : (opWord x o).extractLsb' 4 28 = x :=
  BitVec.extractLsb'_append_eq_left

theorem opWord_split (w : Word) : opWord (w.extractLsb' 4 28) (w.extractLsb' 0 4) = w := by
  apply BitVec.eq_of_toNat_eq
  simp only [opWord, toNat_append_eq, BitVec.extractLsb'_toNat, Nat.shiftRight_eq_div_pow]
  omega

/-- The row of the code k that stands in bits 3 to 0 of w is encoded as w. -/
theorem op_opWord_of_code {w : Word} {k : Nat} (h : (w.extractLsb' 0 4).toNat = k) :
    Encoded.op (opWord (w.extractLsb' 4 28) (BitVec.ofNat 4 k)) = .op w := by
  rw [← h, BitVec.ofNat_toNat, BitVec.setWidth_eq, opWord_split]

theorem encode_decodeOp (w : Word) : encode (decodeOp w) = .op w := by
  have hlt := (w.extractLsb' 0 4).isLt
  unfold decodeOp
  split
  case h_16 =>
    have hcode : (w.extractLsb' 0 4).toNat = 15 := by
      simp only [imp_false] at *
      omega
    exact op_opWord_of_code hcode
  all_goals
    next hcode => exact op_opWord_of_code hcode

theorem decodeOp_wellFormed (w : Word) : (decodeOp w).wellFormed = true := by
  unfold decodeOp
  split <;> rfl

/-! A frame of R51 to R53 and its bytes. -/

theorem commandFrame_wellFormed_iff (command : Byte) (f : CommandFrame) :
    f.wellFormed command = true ↔
      f.reservedA = 0#32 ∧ f.reservedB = 0#24 ∧ f.checksum = sum8 (commandBody command f) := by
  simp [CommandFrame.wellFormed, and_assoc]

theorem checkCommand_of_wellFormed {command : Byte} {f : CommandFrame} (row : CommandFrame → Instr)
    (h : f.wellFormed command = true) : checkCommand command row f = .ok (row f) := by
  obtain ⟨ha, hb, hc⟩ := (commandFrame_wellFormed_iff command f).mp h
  simp [checkCommand, ha, hb, hc]

theorem checkCommand_ok {command : Byte} {f : CommandFrame} {row : CommandFrame → Instr} {i : Instr}
    (h : checkCommand command row f = .ok i) : i = row f ∧ f.wellFormed command = true := by
  unfold checkCommand at h
  split at h
  · cases h
  · split at h
    · cases h
    · next hreserved hsum =>
      obtain ⟨ha, hb⟩ := not_or.mp hreserved
      cases h
      exact ⟨rfl, (commandFrame_wellFormed_iff command _).mpr ⟨not_not.mp ha, not_not.mp hb, not_not.mp hsum⟩⟩

/-- The three checks of R54 on the bytes of a command frame. -/
theorem decodeTx_commandBytes (command : Byte) (f : CommandFrame) :
    decodeTx (commandBytes command f) =
      if command = cmdStatus then checkCommand cmdStatus .frameCmdStatus f
      else if command = cmdControl then checkCommand cmdControl .frameCmdControl f
      else if command = cmdPowerGrade then checkCommand cmdPowerGrade .frameCmdPowerGrade f
      else .error .unknownCommand := by
  simp [commandBytes, commandBody, bytes32, bytes24, decodeTx]

theorem decodeStatusReply_statusBytes (f : StatusReply) :
    decodeStatusReply ((statusBytes f).drop 2) = .ok (.frameStatusReply f) := by
  simp [statusBytes, bytes32, bytes16, decodeStatusReply]

theorem decodeAck_ackBytes (command : Byte) (row : AckReply → Instr) (f : AckReply) :
    decodeAck row ((ackBytes command f).drop 2) = .ok (row f) := by
  simp [ackBytes, bytes32, bytes24, decodeAck]

/-- Settles O1, row by row: a word by its code, a frame by its header and its fields. -/
theorem decodeOfEncode : Obligations.DecodeOfEncode := by
  intro i hwf
  cases i with
  | frameCmdStatus f => exact (decodeTx_commandBytes cmdStatus f).trans (checkCommand_of_wellFormed _ hwf)
  | frameCmdControl f => exact (decodeTx_commandBytes cmdControl f).trans (checkCommand_of_wellFormed _ hwf)
  | frameCmdPowerGrade f => exact (decodeTx_commandBytes cmdPowerGrade f).trans (checkCommand_of_wellFormed _ hwf)
  | frameStatusReply f => exact decodeStatusReply_statusBytes f
  | frameAckControl f => exact decodeAck_ackBytes cmdControl .frameAckControl f
  | frameAckPowerGrade f => exact decodeAck_ackBytes cmdPowerGrade .frameAckPowerGrade f
  | _ => simp [encode, decode, decodeOp]

/-- What a command row's check accepts encodes as the bytes it was read from. -/
theorem encode_of_checkCommand {command : Byte} {row : CommandFrame → Instr} {f : CommandFrame} {i : Instr}
    {bytes : List Byte} (h : checkCommand command row f = .ok i)
    (hrow : encode (row f) = .frame .tx (commandBytes command f)) (hwf : (row f).wellFormed = f.wellFormed command)
    (hbytes : commandBytes command f = bytes) : encode i = .frame .tx bytes ∧ WellFormed i := by
  obtain ⟨rfl, hf⟩ := checkCommand_ok h
  exact ⟨hrow.trans (congrArg _ hbytes), hwf.trans hf⟩

theorem decodeTx_ok {bytes : List Byte} {i : Instr} (h : decodeTx bytes = .ok i) :
    encode i = .frame .tx bytes ∧ WellFormed i := by
  unfold decodeTx at h
  split at h
  · simp only [ne_eq, ite_not] at h
    split at h
    · next hmagic =>
      subst hmagic
      split at h
      · next hc => exact encode_of_checkCommand h rfl rfl (by simp [commandBytes, commandBody, hc])
      · split at h
        · next hc => exact encode_of_checkCommand h rfl rfl (by simp [commandBytes, commandBody, hc])
        · split at h
          · next hc => exact encode_of_checkCommand h rfl rfl (by simp [commandBytes, commandBody, hc])
          · cases h
    · cases h
  · cases h

theorem decodeStatusReply_ok {rest : List Byte} {i : Instr} (h : decodeStatusReply rest = .ok i) :
    encode i = .frame .rx (magic :: cmdStatus :: rest) ∧ WellFormed i := by
  unfold decodeStatusReply at h
  split at h
  · cases h
    exact ⟨by simp [encode, statusBytes], rfl⟩
  · cases h

theorem decodeAck_ok {row : AckReply → Instr} {rest : List Byte} {i : Instr} (h : decodeAck row rest = .ok i)
    (command : Byte) : ∃ f, i = row f ∧ ackBytes command f = magic :: command :: rest := by
  unfold decodeAck at h
  split at h
  · cases h
    exact ⟨_, rfl, by simp [ackBytes]⟩
  · cases h

theorem decodeRx_ok {bytes : List Byte} {i : Instr} (h : decodeRx bytes = .ok i) :
    encode i = .frame .rx bytes ∧ WellFormed i := by
  unfold decodeRx at h
  split at h
  · simp only [ne_eq, ite_not] at h
    split at h
    · next hmagic =>
      subst hmagic
      split at h
      · next hc => exact hc ▸ decodeStatusReply_ok h
      · split at h
        · next hc =>
          obtain ⟨f, rfl, hbytes⟩ := decodeAck_ok h cmdControl
          exact ⟨by rw [hc, ← hbytes]; rfl, rfl⟩
        · split at h
          · next hc =>
            obtain ⟨f, rfl, hbytes⟩ := decodeAck_ok h cmdPowerGrade
            exact ⟨by rw [hc, ← hbytes]; rfl, rfl⟩
          · cases h
    · cases h
  · cases h

/-- Settles O2, by the kind of encoding. -/
theorem encodeOfDecode : Obligations.EncodeOfDecode := by
  intro e i h
  cases e with
  | op w =>
    cases h
    exact ⟨encode_decodeOp w, decodeOp_wellFormed w⟩
  | frame d bytes =>
    cases d with
    | tx => exact decodeTx_ok h
    | rx => exact decodeRx_ok h

/-- Settles O3: each word and frame is decoded by evaluation. -/
theorem specWordsDecode : Obligations.SpecWordsDecode := ⟨rfl, rfl, rfl, rfl, rfl⟩

end Sys2Proof.Machine
end

section
/-! PROOFS. Writes to OP, accepted and rejected (R26, R46 to R49, R97), and what `step` adds around `exec`. -/

namespace Sys2Proof.Machine

open Sys2Proof.Config

variable {s : State}

theorem hostWrite_op (v : Word) (s : State) : hostWrite 0x00#8 4 v s = exec (decodeOp v) (answered s) := rfl

/-- An OP word whose code R47 lists is issued as the operation of that code. -/
theorem exec_decodeOp_of_defined {v : Word} (h : (v.extractLsb' 0 4).toNat ≤ 12) :
    exec (decodeOp v) s = .next (issue (v.extractLsb' 0 4) (operationAction (v.extractLsb' 0 4)) s) := by
  have hcode {k : Nat} (hk : (v.extractLsb' 0 4).toNat = k) : v.extractLsb' 0 4 = BitVec.ofNat 4 k := by
    rw [← hk, BitVec.ofNat_toNat, BitVec.setWidth_eq]
  unfold decodeOp
  split
  case h_14 | h_15 => omega
  case h_16 =>
    simp only [imp_false] at *
    omega
  all_goals
    next hk =>
      rw [hcode hk]
      rfl

/-- An OP word with one of the codes 0xD to 0xF is rejected. -/
theorem exec_decodeOp_of_reserved {v : Word} (h : 13 ≤ (v.extractLsb' 0 4).toNat) :
    exec (decodeOp v) s = .next (reject s) := by
  have hreserved : Host.Outcome.next (φ := Fault) (ρ := Refusal) (issueReserved s) = .next (reject s) :=
    congrArg Host.Outcome.next (issueReserved_eq s)
  unfold decodeOp
  split
  case h_14 | h_15 | h_16 => exact hreserved
  all_goals omega

theorem exec_decodeOp_busy (v : Word) (h : s.busy = true) : exec (decodeOp v) s = .next (reject s) := by
  obtain hd | hr := Nat.lt_or_ge (v.extractLsb' 0 4).toNat 13
  · rw [exec_decodeOp_of_defined (by omega), issue_busy _ _ _ h]
  · exact exec_decodeOp_of_reserved hr

/-- Settles O4: what an OP word does is fixed by its code. -/
theorem opWordUpperBitsIgnored : Obligations.OpWordUpperBitsIgnored := by
  intro v w s hvw
  simp only [hostWrite_op]
  obtain hd | hr := Nat.lt_or_ge (v.extractLsb' 0 4).toNat 13
  · rw [exec_decodeOp_of_defined (v := v) (by omega), exec_decodeOp_of_defined (v := w) (by rw [← hvw]; omega), hvw]
  · rw [exec_decodeOp_of_reserved (v := v) hr, exec_decodeOp_of_reserved (v := w) (hvw ▸ hr)]

/-- Settles O6, by BUSY. -/
theorem acceptanceLatchesOperands : Obligations.AcceptanceLatchesOperands := by
  intro v s hdefined
  refine ⟨fun hbusy => ?_, fun hidle => ?_⟩
  · exact exec_decodeOp_busy v hbusy
  · rw [hostWrite_op, exec_decodeOp_of_defined hdefined, issue_idle _ _ (answered s) hidle]
    rfl

/-- Settles O7: the three rows share one rejection. -/
theorem reservedOperationsRejected : Obligations.ReservedOperationsRejected := by
  intro s x
  have hreserved : Host.Outcome.next (φ := Fault) (ρ := Refusal) (issueReserved s) = .next (reject s) :=
    congrArg Host.Outcome.next (issueReserved_eq s)
  exact ⟨hreserved, hreserved, hreserved⟩

/-! The write of a register other than OP (R31, R97). -/

theorem portAccess_portOffset (r : PortReg) : portAccess (portOffset r) 4 = some r := by
  simp [portAccess, portReg_offset]

theorem hostWrite_portOffset {r : PortReg} (h : r ≠ .op) (v : Word) (s : State) :
    hostWrite (portOffset r) 4 v s = .next (writeReg r v (answered s)) := by
  cases r with
  | op => exact absurd rfl h
  | _ =>
    simp only [hostWrite, portAccess_portOffset]
    rfl

theorem writeReg_buf_busy (i : Fin 27) (v : Word) (h : s.busy = true) : writeReg (.buf i) v s = reject s := if_pos h

theorem writeReg_buf_idle (i : Fin 27) (v : Word) (h : s.busy = false) :
    writeReg (.buf i) v s = setBuf (Memory.write s.buf i.val (v.setWidth 8)) s := by
  simp [writeReg, h, setBuf]

/-- Settles O8: two rejections of an OP word, one of a BUF write, and the registers whose write does nothing. -/
theorem rejectedWritesOnlySetRej : Obligations.RejectedWritesOnlySetRej := by
  intro s v
  refine ⟨fun hbusy => exec_decodeOp_busy v hbusy, fun hr => exec_decodeOp_of_reserved hr, fun hbusy i => ?_,
    fun r hr => ?_⟩
  · rw [hostWrite_portOffset (by simp), writeReg_buf_busy (s := answered s) i v hbusy]
    rfl
  · simp only [List.mem_cons, List.not_mem_nil, or_false] at hr
    obtain rfl | rfl | rfl | rfl | rfl | rfl | rfl | rfl | rfl | rfl := hr
    all_goals rfl

/-! One step of the machine. -/

theorem step_cons {e : Event} {rest : List Event} (h : s.script = e :: rest) :
    step s = act e { s with script := rest } := by
  simp [step, h]

theorem step_nil (h : s.script = []) : step s = act (schedule s.turn) { s with turn := s.turn + 1 } := by
  simp [step, h]

theorem act_write_op {w : Word} {i : Instr} (h : decode (.op w) = .ok i) (s : State) :
    act (.host (.write 0x00#8 4 w)) s = exec i (answered s) := by
  cases h
  exact hostWrite_op w s

theorem act_wire {d : Direction} {bytes : List Byte} {i : Instr} (h : decode (.frame d bytes) = .ok i) (s : State) :
    act (.wire d bytes) s = exec i s := by
  simp [act, wireStep, h]

theorem step_withFetchWord {nbits w : Nat} {e : Encoded} (h : tableEncoded nbits w = some e) (s : State) :
    step (s.withFetchWord nbits w) = act (eventOf e) s := by
  simp [State.withFetchWord, h, step]

theorem decodeTableWord_eq_some {nbits w : Nat} {i : Instr} (h : decodeTableWord nbits w = some i) :
    ∃ e, tableEncoded nbits w = some e ∧ decode e = .ok i := by
  unfold decodeTableWord at h
  split at h
  · next e he =>
    refine ⟨e, he, ?_⟩
    cases hd : decode e with
    | ok j =>
      rw [hd] at h
      cases h
      rfl
    | error _ =>
      rw [hd] at h
      cases h
  · cases h

/-- Settles O5: the event leaves the script, and the event of an encoding runs its instruction. -/
theorem stepRunsDecodedInstruction : Obligations.StepRunsDecodedInstruction := by
  refine ⟨fun s rest w i hs hd => ?_, fun s rest d bytes i hs hd => ?_, fun s rest e hs => step_cons hs,
    fun s hs => step_nil hs, fun s nbits w i hi => ?_⟩
  · rw [step_cons hs]
    exact act_write_op hd _
  · rw [step_cons hs]
    exact act_wire hd _
  · obtain ⟨e, he, hd⟩ := decodeTableWord_eq_some hi
    rw [step_withFetchWord he]
    refine ⟨fun hn => ?_, fun hn => ?_⟩
    · subst hn
      cases he
      exact act_write_op hd s
    · subst hn
      cases he
      exact act_wire hd s

end Sys2Proof.Machine
end

section
/-! PROOFS. The checksum (R59), the fields of a reply and DECODE_STATUS (R60, R65). -/

namespace Sys2Proof.Machine

open Sys2Proof.Config

variable {s : State}

/-! The additive sum (R59). -/

theorem sum8_eq_sum (l : List Byte) : sum8 l = l.sum := by
  induction l with
  | nil => rfl
  | cons b bs ih => rw [sum8, ih, List.sum_cons]

@[simp] theorem sum8_append (a b : List Byte) : sum8 (a ++ b) = sum8 a + sum8 b := by
  simp only [sum8_eq_sum, List.sum_append]

@[simp] theorem sum8_singleton (b : Byte) : sum8 [b] = b := by simp [sum8]

theorem sum8_perm {l l' : List Byte} (h : l.Perm l') : sum8 l = sum8 l' := by
  simp only [sum8_eq_sum, h.sum_eq]

theorem sum8_toNat (l : List Byte) : (sum8 l).toNat = (l.map BitVec.toNat).sum % 256 := by
  induction l with
  | nil => rfl
  | cons b bs ih => simp [sum8, BitVec.toNat_add, ih]

theorem sum8_raise (a b : List Byte) (x d : Byte) : sum8 (a ++ [x + d] ++ b) = sum8 (a ++ [x] ++ b) + d := by
  simp only [sum8_append, sum8_singleton]
  ring

theorem bufSum_succ (s : State) (k : Nat) : bufSum s (k + 1) = bufSum s k + bufAt s k := by
  simp [bufSum, bufBytes, List.range_succ, bufAt]

/-- Two buffers with the same first k bytes have the same sum over them. -/
theorem bufSum_congr {t : State} {k : Nat} (h : ∀ i, i < k → bufAt t i = bufAt s i) : bufSum t k = bufSum s k := by
  rw [bufSum_eq, bufSum_eq]
  exact congrArg sum8 (List.map_congr_left fun i hi => h i (List.mem_range.mp hi))

theorem bufAt_write (s : State) (i : Nat) (v : Byte) (j : Nat) :
    bufAt { s with buf := Memory.write s.buf i v } j = if j = i then v else bufAt s j :=
  Memory.read_write s.buf i v j

theorem bufSum_write_of_le (s : State) {n i : Nat} (v : Byte) (h : n ≤ i) :
    bufSum { s with buf := Memory.write s.buf i v } n = bufSum s n :=
  bufSum_congr fun j hj => by rw [bufAt_write, if_neg (by omega)]

theorem bufSum_write_of_lt (s : State) {n i : Nat} (v : Byte) (h : i < n) :
    bufSum { s with buf := Memory.write s.buf i v } n = bufSum s n + (v - bufAt s i) := by
  induction n with
  | zero => omega
  | succ n ih =>
    rw [bufSum_succ, bufSum_succ, bufAt_write]
    by_cases hi : i = n
    · subst hi
      rw [bufSum_write_of_le s v le_rfl, if_pos rfl]
      ring
    · rw [ih (by omega), if_neg (by omega)]
      ring

/-- Settles O17, consequence by consequence. -/
theorem checksumIsAdditiveSum : Obligations.ChecksumIsAdditiveSum := by
  refine ⟨sum8_toNat, rfl, fun l l' => sum8_perm, fun a b x d hd => ⟨sum8_raise a b x d, fun h => hd ?_⟩,
    fun a b c x y d e hde => ?_, fun s n i v h => bufSum_write_of_le s v h⟩
  · rw [sum8_raise] at h
    exact left_eq_add.mp h.symm
  · calc sum8 (a ++ [x + d] ++ b ++ [y + e] ++ c)
        = sum8 (a ++ [x] ++ b ++ [y] ++ c) + (d + e) := by
          simp only [sum8_append, sum8_singleton]
          ring
      _ = sum8 (a ++ [x] ++ b ++ [y] ++ c) := by rw [hde, BitVec.add_zero]

/-! DECODE_STATUS (R60, R65). -/

theorem decodeFields_eq (s : State) :
    decodeFields s =
      { s with rDevid := be32 (bufAt s 6) (bufAt s 7) (bufAt s 8) (bufAt s 9),
               rPower := be32 (bufAt s 10) (bufAt s 11) (bufAt s 12) (bufAt s 13),
               rDcv := be16 (bufAt s 15) (bufAt s 16), rDci := be16 (bufAt s 17) (bufAt s 18),
               rAcv := be16 (bufAt s 19) (bufAt s 20), rAci := be16 (bufAt s 21) (bufAt s 22),
               rState := bufAt s s.params.stateOfs.toNat, rTemp := bufAt s (s.params.stateOfs.toNat + 1),
               rValid := frameSumGood s } := rfl

theorem frameSumGood_eq_decide (s : State) :
    frameSumGood s = decide (sum8 ((List.range 14).map (bufAt s)) = bufAt s 14) := by
  rw [Bool.eq_iff_iff, frameSumGood_iff, decide_eq_true_iff]

/-- Settles O14: the fields are the rule's, and none of them is read back. -/
theorem fieldExtraction : Obligations.FieldExtraction := by
  intro s
  refine ⟨?_, rfl⟩
  rw [decodeFields_eq, frameSumGood_eq_decide]

theorem exec_decodeStatus_idle (x : BitVec 28) (h : s.busy = false) :
    exec (.decodeStatus x) s = .next (runDecodeStatus (accept opcDecodeStatus s)) :=
  congrArg Host.Outcome.next (issue_idle opcDecodeStatus runDecodeStatus s h)

theorem runDecodeStatus_of_good (h : frameSumGood s = true) :
    runDecodeStatus s = { decodeFields s with rValid := true, done := true, ok := true } := by
  simp [runDecodeStatus, h, codecDone, decodeFields_eq]

theorem runDecodeStatus_of_bad (h : frameSumGood s = false) :
    runDecodeStatus s = { decodeFields s with rValid := false, done := true, ok := false, cause := .checksum } := by
  simp [runDecodeStatus, h, codecDone, decodeFields_eq]

/-- Settles O15, by whether the checksum is good. -/
theorem decodeStatusCompletes : Obligations.DecodeStatusCompletes := by
  intro s x hidle
  have hgood := frameSumGood_accept_iff (s := s) opcDecodeStatus
  rw [exec_decodeStatus_idle x hidle]
  refine ⟨fun hsum => ?_, fun hsum => ?_⟩
  · rw [runDecodeStatus_of_good (hgood.mpr hsum)]
    simp [decodeFields_eq]
  · rw [runDecodeStatus_of_bad (Bool.eq_false_iff.mpr (hgood.not.mpr hsum))]

/-- OK and VALID both answer whether the checksum is good. -/
theorem exec_decodeStatus_outcome (x : BitVec 28) (h : s.busy = false) :
    ∃ t, exec (.decodeStatus x) s = .next t ∧ t.ok = frameSumGood s ∧ t.rValid = frameSumGood s := by
  have haccept : frameSumGood (accept opcDecodeStatus s) = frameSumGood s := by
    rw [Bool.eq_iff_iff, frameSumGood_accept_iff, frameSumGood_iff]
  refine ⟨_, exec_decodeStatus_idle x h, ?_⟩
  cases hg : frameSumGood s with
  | true => simp [runDecodeStatus_of_good (haccept.trans hg)]
  | false => simp [runDecodeStatus_of_bad (haccept.trans hg)]

theorem frameSumGood_write_of_le {i : Nat} {v : Byte} (hgood : frameSumGood s = true) (hv : v ≠ bufAt s i) (hi : i ≤ 14) :
    frameSumGood { s with buf := Memory.write s.buf i v } = false := by
  rw [← Bool.not_eq_true, frameSumGood_iff, ← bufSum_eq, bufAt_write]
  rw [frameSumGood_iff, ← bufSum_eq] at hgood
  by_cases h14 : i = 14
  · subst h14
    rw [bufSum_write_of_le s v le_rfl, if_pos rfl, hgood]
    exact fun h => hv h.symm
  · rw [bufSum_write_of_lt s v (by omega), if_neg (by omega), hgood]
    exact fun h => hv (sub_eq_zero.mp (add_eq_left.mp h))

theorem frameSumGood_write_of_gt {i : Nat} (v : Byte) (hi : 15 ≤ i) :
    frameSumGood { s with buf := Memory.write s.buf i v } = frameSumGood s := by
  rw [Bool.eq_iff_iff, frameSumGood_iff, frameSumGood_iff, ← bufSum_eq, ← bufSum_eq, bufAt_write,
    bufSum_write_of_le s v (by omega), if_neg (by omega)]

/-- Settles O18: a byte the sum covers or the sum itself moves one side of the test only; a later byte moves neither. -/
theorem tamperingIsDetected : Obligations.TamperingIsDetected := by
  intro s x i v hidle hsum hv
  have hgood : frameSumGood s = true := (frameSumGood_iff s).mpr hsum
  obtain ⟨t, hexec, hok, hvalid⟩ :=
    exec_decodeStatus_outcome (s := { s with buf := Memory.write s.buf i v }) x hidle
  refine ⟨fun hi => ⟨t, hexec, ?_⟩, fun hi _ => ⟨t, hexec, ?_⟩⟩
  · rw [hok, hvalid, frameSumGood_write_of_le hgood hv hi]
    exact ⟨rfl, rfl⟩
  · rw [hok, hvalid, frameSumGood_write_of_gt v hi, hgood]
    exact ⟨rfl, rfl⟩

end Sys2Proof.Machine
end

section
/-! PROOFS. The frame encoder (R62) and how each Transactor operation starts (R84, R86 to R90). -/

namespace Sys2Proof.Machine

open Sys2Proof.Config

variable {s : State}

/-! A buffer that is known byte by byte. -/

theorem BufWritten.read {m : Memory} {base : Nat} {bytes : List Byte} (h : BufWritten s m base bytes) {i : Nat}
    (hi : i < bytes.length) : Memory.read m (base + i) = bytes.getD i 0#8 := by
  rw [h, if_pos (by omega), Nat.add_sub_cancel_left]

/-- The first k bytes of a buffer that starts with these. -/
theorem BufWritten.map_range {m : Memory} {bytes : List Byte} (h : BufWritten s m 0 bytes) {k : Nat}
    (hk : k ≤ bytes.length) : (List.range k).map (Memory.read m) = bytes.take k := by
  refine List.ext_getElem (by simpa) fun i hi _ => ?_
  have hread := h.read (i := i) (by simp at hi; omega)
  rw [Nat.zero_add] at hread
  rw [List.getElem_map, List.getElem_range, hread, List.getElem_take, List.getD_eq_getElem _ _ (by simp at hi; omega)]

/-! The frame encoder (R51, R62). -/

@[simp] theorem sentFrame_length (c : Byte) (d : Word) (v : Byte) : (sentFrame c d v).length = 15 := rfl

/-- Byte 14 of a command frame is the sum of the 14 before it. -/
theorem sum8_sentFrame (c : Byte) (d : Word) (v : Byte) :
    sum8 ((sentFrame c d v).take 14) = (sentFrame c d v).getD 14 0#8 := by
  simp only [sentFrame, List.take_succ_cons, List.take_zero, List.getD_cons_succ, List.getD_cons_zero, sum8, BitVec.zero_add,
    BitVec.add_zero]
  ring

/-- The encoder leaves the frame in BUF[0..14] and its length in FLEN, and nothing else. -/
theorem exists_encodeFrame (c : Byte) (d : Word) (v : Byte) (s : State) :
    ∃ m, BufWritten s m 0 (sentFrame c d v) ∧ encodeFrame c d v s = { s with buf := m, flen := 15 } := by
  refine ⟨_, encodeFrame_written c d v s, ?_⟩
  ext1
  all_goals simp [cmdLen]

theorem isCommandCode_iff (c : Byte) : isCommandCode c = true ↔ c = 0xC0#8 ∨ c = 0xC1#8 ∨ c = 0xC3#8 := by
  simp [isCommandCode, cmdStatus, cmdControl, cmdPowerGrade, or_assoc]

theorem isAckCommandCode_iff (c : Byte) : isAckCommandCode c = true ↔ c = 0xC1#8 ∨ c = 0xC3#8 := by
  simp [isAckCommandCode, cmdControl, cmdPowerGrade]

theorem exec_encode_idle (x : BitVec 28) (h : s.busy = false) :
    exec (.encode x) s = .next (runEncode (accept opcEncode s)) :=
  congrArg Host.Outcome.next (issue_idle opcEncode runEncode s h)

theorem runEncode_of_command (h : isCommandCode s.lCmd = true) :
    ∃ m, BufWritten s m 0 (sentFrame s.lCmd s.lDevid s.lValue) ∧
      runEncode s = { s with buf := m, flen := 15, done := true, ok := true } := by
  obtain ⟨m, hm, henc⟩ := exists_encodeFrame s.lCmd s.lDevid s.lValue s
  refine ⟨m, hm, ?_⟩
  rw [runEncode, if_pos h, henc]
  rfl

theorem runEncode_of_other (h : isCommandCode s.lCmd = false) :
    runEncode s = { s with done := true, ok := false, cause := .operand } := by
  simp [runEncode, h, codecDone]

/-- VALIDATE over a buffer that starts with a command frame, with LEN = 14 and EXPECT the frame's checksum. -/
theorem exec_validate_sentFrame {c : Byte} {d : Word} {v : Byte} {u : State} (y : BitVec 28) (hidle : s.busy = false)
    (hbuf : BufWritten u s.buf 0 (sentFrame c d v)) (hlen : s.len = 14#8) (hexpect : s.expect = bufAt s 14) :
    ∃ t, exec (.validate y) s = .next t ∧ t.done = true ∧ t.ok = true := by
  refine ⟨_, (validateCompletes s y hidle).2.1 (by simp [hlen]) ?_, rfl, rfl⟩
  have hsum : (List.range 14).map (Memory.read s.buf) = (sentFrame c d v).take 14 := hbuf.map_range (by simp)
  have h14 : Memory.read s.buf 14 = (sentFrame c d v).getD 14 0#8 := hbuf.read (i := 14) (by simp)
  rw [hexpect, hlen]
  exact (congrArg sum8 hsum).trans ((sum8_sentFrame c d v).trans h14.symm)

/-- Settles O11: the two branches of R62, and the frame's checksum. -/
theorem encodeBuildsFrame : Obligations.EncodeBuildsFrame := by
  have hcommand (s : State) (x : BitVec 28) (hidle : s.busy = false)
      (hcmd : s.cmd = 0xC0#8 ∨ s.cmd = 0xC1#8 ∨ s.cmd = 0xC3#8) :
      ∃ m, BufWritten s m 0 (sentFrame s.cmd s.devid s.value) ∧
        exec (.encode x) s = .next { accept opcEncode s with buf := m, flen := 15, done := true, ok := true } := by
    obtain ⟨m, hm, hrun⟩ := runEncode_of_command (s := accept opcEncode s) ((isCommandCode_iff s.cmd).mpr hcmd)
    exact ⟨m, fun i => accept_buf s opcEncode ▸ hm i, by rw [exec_encode_idle x hidle, hrun]⟩
  refine ⟨fun s x hidle h0 h1 h3 => ?_, hcommand, fun s t x y hidle hcmd h => ?_⟩
  · have hother : isCommandCode s.cmd = false := by
      rw [← Bool.not_eq_true, isCommandCode_iff]
      tauto
    rw [exec_encode_idle x hidle, runEncode_of_other hother]
  · obtain ⟨m, hm, hexec⟩ := hcommand s x hidle hcmd
    rw [hexec] at h
    cases h
    exact exec_validate_sentFrame y (by simpa using hidle) hm rfl rfl

/-! The start actions: each in the form its statement gives it. -/

theorem exec_send_idle (x : BitVec 28) (h : s.busy = false) :
    exec (.send x) s = .next (startSend (accept opcSend s)) :=
  congrArg Host.Outcome.next (issue_idle opcSend startSend s h)

theorem exec_recvFixed_idle (x : BitVec 28) (h : s.busy = false) :
    exec (.recvFixed x) s = .next (startRecvFixed (accept opcRecvFixed s)) :=
  congrArg Host.Outcome.next (issue_idle opcRecvFixed startRecvFixed s h)

theorem exec_scanRecv_idle (x : BitVec 28) (h : s.busy = false) :
    exec (.scanRecv x) s = .next (startScanRecv (accept opcScanRecv s)) :=
  congrArg Host.Outcome.next (issue_idle opcScanRecv startScanRecv s h)

theorem exec_getStatus_idle (x : BitVec 28) (h : s.busy = false) :
    exec (.getStatus x) s = .next (startGetStatus (accept opcGetStatus s)) :=
  congrArg Host.Outcome.next (issue_idle opcGetStatus startGetStatus s h)

theorem exec_sendValidate_idle (x : BitVec 28) (h : s.busy = false) :
    exec (.sendValidate x) s = .next (startSendValidate (accept opcSendValidate s)) :=
  congrArg Host.Outcome.next (issue_idle opcSendValidate startSendValidate s h)

theorem exec_drainOne_idle (x : BitVec 28) (h : s.busy = false) :
    exec (.drainOne x) s = .next (startDrainOne (accept opcDrainOne s)) :=
  congrArg Host.Outcome.next (issue_idle opcDrainOne startDrainOne s h)

theorem startSend_of_long (h : 27 < lenOperand s) : startSend s = fail .operand s := if_pos h

theorem startSend_of_zero (h : lenOperand s = 0) : startSend s = complete true s := by
  simp [startSend, h]

theorem startSend_of_fits (h1 : 1 ≤ lenOperand s) (h27 : lenOperand s ≤ 27) :
    startSend s = { s with n := lenOperand s, idx := 0, busy := true, st := .tx } := by
  rw [startSend, if_neg (show ¬bufLen < lenOperand s from Nat.not_lt.mpr h27), if_neg (by omega)]
  rfl

theorem startRecvFixed_of_long (h : 27 < lenOperand s) : startRecvFixed s = fail .operand s := if_pos h

theorem startRecvFixed_of_zero (h : lenOperand s = 0) : startRecvFixed s = complete true { s with flen := 0 } := by
  simp [startRecvFixed, h, setFlen]

theorem startRecvFixed_of_fits (h1 : 1 ≤ lenOperand s) (h27 : lenOperand s ≤ 27) :
    startRecvFixed s =
      { s with flen := 0, idx := 0, n := lenOperand s, t0 := s.now, tmoCur := s.lTb, armed := true,
               exp := decide (s.lTb = 0#32), busy := true, st := .collect } := by
  rw [startRecvFixed, if_neg (show ¬bufLen < lenOperand s from Nat.not_lt.mpr h27), if_neg (by omega)]
  rfl

theorem startScanRecv_of_bad (h : lenOperand s < 2 ∨ 27 < lenOperand s) : startScanRecv s = fail .operand s := if_pos h

theorem startScanRecv_of_fits (h2 : 2 ≤ lenOperand s) (h27 : lenOperand s ≤ 27) :
    startScanRecv s =
      { s with flen := 0, idx := 0, n := lenOperand s, t0 := s.now, tmoCur := s.lTw, armed := true,
               exp := decide (s.lTw = 0#32), busy := true, st := .hunt } := by
  have hlen : ¬(lenOperand s < 2 ∨ bufLen < lenOperand s) := by
    simp only [bufLen]
    omega
  rw [startScanRecv, if_neg hlen]
  rfl

theorem startSendValidate_of_ack (h : isAckCommandCode s.lCmd = true) :
    ∃ m, BufWritten s m 0 (sentFrame s.lCmd s.lDevid s.lValue) ∧
      startSendValidate s = { s with buf := m, flen := 15, idx := 0, n := 15, busy := true, st := .tx } := by
  obtain ⟨m, hm, henc⟩ := exists_encodeFrame s.lCmd s.lDevid s.lValue s
  refine ⟨m, hm, ?_⟩
  rw [startSendValidate, if_pos h, henc]
  rfl

theorem startSendValidate_of_other (h : isAckCommandCode s.lCmd = false) :
    startSendValidate s = fail .operand s := by
  simp [startSendValidate, h]

theorem startGetStatus_eq (s : State) :
    ∃ m, BufWritten s m 0 (sentFrame 0xC0#8 s.lDevid 0x00#8) ∧
      startGetStatus s = { s with buf := m, flen := 15, idx := 0, n := 15, busy := true, st := .flush } := by
  obtain ⟨m, hm, henc⟩ := exists_encodeFrame cmdStatus s.lDevid statusValue s
  refine ⟨m, hm, ?_⟩
  rw [startGetStatus, henc]
  rfl

theorem startDrainOne_eq (s : State) :
    startDrainOne s = { s with budget := s.rxq.length, busy := true, st := .pscan } := rfl

theorem len_eq_zero_iff (s : State) (o : BitVec 4) : lenOperand (accept o s) = 0 ↔ s.len = 0#8 := by
  rw [lenOperand_accept, ← BitVec.toNat_inj]
  rfl

/-- Settles O19, by the latched length. -/
theorem sendStarts : Obligations.SendStarts := by
  intro s x hidle
  rw [exec_send_idle x hidle]
  refine ⟨fun hlong => ?_, fun hzero => ?_, fun h1 h27 => ?_⟩
  · rw [startSend_of_long (by simpa)]
  · rw [startSend_of_zero ((len_eq_zero_iff s _).mpr hzero)]
  · rw [startSend_of_fits (by simpa) (by simpa), lenOperand_accept]

/-- Settles O21, by the latched length. -/
theorem recvFixedStarts : Obligations.RecvFixedStarts := by
  intro s x hidle
  rw [exec_recvFixed_idle x hidle]
  refine ⟨fun hlong => ?_, fun hzero => ?_, fun h1 h27 => ?_⟩
  · rw [startRecvFixed_of_long (by simpa)]
  · rw [startRecvFixed_of_zero ((len_eq_zero_iff s _).mpr hzero)]
  · rw [startRecvFixed_of_fits (by simpa) (by simpa), lenOperand_accept]
    rfl

/-- Settles O22, by the latched length. -/
theorem scanRecvStarts : Obligations.ScanRecvStarts := by
  intro s x hidle
  rw [exec_scanRecv_idle x hidle]
  refine ⟨fun hbad => ?_, fun h2 h27 => ?_⟩
  · rw [startScanRecv_of_bad (by rwa [lenOperand_accept])]
  · rw [startScanRecv_of_fits (by simpa) (by simpa), lenOperand_accept]
    rfl

/-- Settles O23: the start action writes the frame of the constant command and value. -/
theorem getStatusStarts : Obligations.GetStatusStarts := by
  intro s x hidle
  obtain ⟨m, hm, hstart⟩ := startGetStatus_eq (accept opcGetStatus s)
  exact ⟨m, fun i => accept_buf s opcGetStatus ▸ hm i, by rw [exec_getStatus_idle x hidle, hstart]⟩

/-- Settles O24, by whether the latched command is one SEND_VALIDATE takes. -/
theorem sendValidateStarts : Obligations.SendValidateStarts := by
  intro s x hidle
  rw [exec_sendValidate_idle x hidle]
  refine ⟨fun h1 h3 => ?_, fun hcmd => ?_⟩
  · have hother : isAckCommandCode s.cmd = false := by
      rw [← Bool.not_eq_true, isAckCommandCode_iff]
      tauto
    rw [startSendValidate_of_other hother]
  · obtain ⟨m, hm, hstart⟩ :=
      startSendValidate_of_ack (s := accept opcSendValidate s) ((isAckCommandCode_iff s.cmd).mpr hcmd)
    exact ⟨m, fun i => accept_buf s opcSendValidate ▸ hm i, by rw [hstart]⟩

/-- Settles O25: the budget is the FIFO's count at acceptance, which acceptance leaves as it was. -/
theorem drainOneStarts : Obligations.DrainOneStarts := by
  intro s x hidle
  rw [exec_drainOne_idle x hidle, startDrainOne_eq, accept_rxq]
  rfl

end Sys2Proof.Machine
end

section
/-! PROOFS. The register port (R14 to R21, R30 to R32), the canonical frame buffer (R21), RESET (R110), and the clock
(R24, R74). -/

namespace Sys2Proof.Machine

open Sys2Proof.Config

variable {s : State}

/-! Offsets (R31). -/

theorem portOffset_buf_toNat (i : Fin 27) : (portOffset (.buf i)).toNat = 0x80 + 4 * i.val := by
  have hi := i.isLt
  simp only [portOffset, BitVec.toNat_ofNat]
  omega

/-- The offsets R31 maps are those at which a register stands. -/
theorem mapped_iff (a : BitVec 8) : Mapped a ↔ ∃ r, portReg a = some r := by
  unfold Mapped portReg
  split
  case h_21 =>
    simp only [imp_false] at *
    split
    · next h => exact ⟨fun _ => ⟨_, rfl⟩, fun _ => by omega⟩
    · next h => exact ⟨fun _ => by omega, fun ⟨_, h⟩ => by cases h⟩
  all_goals
    next hk => simp [hk]

theorem portReg_some {a : BitVec 8} {r : PortReg} (h : portReg a = some r) : portOffset r = a := by
  unfold portReg at h
  split at h
  case h_21 =>
    split at h
    · cases h
      rw [← BitVec.toNat_inj, portOffset_buf_toNat]
      simp only
      omega
    · cases h
  all_goals
    next hk =>
      cases h
      exact BitVec.eq_of_toNat_eq hk.symm

theorem portAccess_mapped {a : BitVec 8} {width : Nat} (h : width = 4 ∧ Mapped a) :
    ∃ r, portOffset r = a ∧ portAccess a width = some r := by
  obtain ⟨hwidth, hmapped⟩ := h
  obtain ⟨r, hr⟩ := (mapped_iff a).mp hmapped
  exact ⟨r, portReg_some hr, by rw [portAccess, if_pos hwidth, hr]⟩

theorem portAccess_other {a : BitVec 8} {width : Nat} (h : ¬(width = 4 ∧ Mapped a)) : portAccess a width = none := by
  by_cases hwidth : width = 4
  · rw [portAccess, if_pos hwidth, Option.eq_none_iff_forall_ne_some]
    exact fun r hr => h ⟨hwidth, (mapped_iff a).mpr ⟨r, hr⟩⟩
  · rw [portAccess, if_neg hwidth]

/-- Settles O46: the offset column, and then an access by whether a register stands at its offset. -/
theorem badAccessChangesNothing : Obligations.BadAccessChangesNothing := by
  refine ⟨⟨rfl, rfl, rfl, rfl, rfl, rfl, rfl, rfl, rfl, rfl, rfl, rfl, rfl, rfl, rfl, rfl, rfl, rfl, rfl, rfl,
    portOffset_buf_toNat⟩, fun a width v s => ⟨fun h => ?_, fun h => ?_⟩⟩
  · obtain ⟨r, rfl, hr⟩ := portAccess_mapped h
    obtain ⟨rfl, -⟩ := h
    refine ⟨r, rfl, by rw [hostRead, hr]; rfl, fun hop => ?_, fun hne => hostWrite_portOffset hne v s⟩
    subst hop
    exact hostWrite_op v s
  · have hnone := portAccess_other h
    exact ⟨by rw [hostRead, hnone]; rfl, by rw [hostWrite, hnone]; rfl⟩

/-! What the registers show (R14, R17, R19). A word put together from fields is a number with its fields one above the
other, so that a field is read back by division. -/

theorem statWord_toNat (s : State) :
    (statWord s).toNat = 256 * (stCode s.st).toNat + 32 * s.rej.toNat + 16 * s.rxOvf.toNat + 8 * s.recd.toNat +
      4 * s.ok.toNat + 2 * s.done.toNat + s.busy.toNat := by
  simp only [statWord, toNat_append_eq, BitVec.toNat_ofBool, BitVec.toNat_ofNat]
  omega

theorem getLsbD_eq_iff {w : Nat} (v : BitVec w) (i : Nat) (b : Bool) :
    v.getLsbD i = b ↔ v.toNat / 2 ^ i % 2 = b.toNat := by
  cases b <;> simp [BitVec.getLsbD, Nat.testBit_eq_decide_div_mod_eq]

theorem statWord_flags (s : State) :
    (statWord s).getLsbD 0 = s.busy ∧ (statWord s).getLsbD 1 = s.done ∧ (statWord s).getLsbD 2 = s.ok ∧
      (statWord s).getLsbD 3 = s.recd ∧ (statWord s).getLsbD 4 = s.rxOvf ∧ (statWord s).getLsbD 5 = s.rej := by
  have hbusy := Bool.toNat_le s.busy
  have hdone := Bool.toNat_le s.done
  have hok := Bool.toNat_le s.ok
  have hrecd := Bool.toNat_le s.recd
  have hovf := Bool.toNat_le s.rxOvf
  have hrej := Bool.toNat_le s.rej
  simp only [getLsbD_eq_iff, statWord_toNat]
  omega

theorem statWord_fields (s : State) :
    (statWord s).extractLsb' 6 2 = 0#2 ∧ (statWord s).extractLsb' 12 20 = 0#20 ∧
      (statWord s).extractLsb' 8 4 = stCode s.st := by
  have hst := (stCode s.st).isLt
  have hbusy := Bool.toNat_le s.busy
  have hdone := Bool.toNat_le s.done
  have hok := Bool.toNat_le s.ok
  have hrecd := Bool.toNat_le s.recd
  have hovf := Bool.toNat_le s.rxOvf
  have hrej := Bool.toNat_le s.rej
  simp only [← BitVec.toNat_inj, BitVec.extractLsb'_toNat, Nat.shiftRight_eq_div_pow, statWord_toNat, BitVec.toNat_ofNat]
  omega

theorem readReg_rMisc_toNat (s : State) :
    (readReg .rMisc s).toNat = 65536 * s.rValid.toNat + 256 * s.rTemp.toNat + s.rState.toNat := by
  simp only [readReg, toNat_append_eq, BitVec.toNat_ofBool, BitVec.toNat_ofNat]
  omega

theorem readReg_rMisc_fields (s : State) :
    (readReg .rMisc s).extractLsb' 0 8 = s.rState ∧ (readReg .rMisc s).extractLsb' 8 8 = s.rTemp ∧
      (readReg .rMisc s).getLsbD 16 = s.rValid ∧ (readReg .rMisc s).extractLsb' 17 15 = 0#15 := by
  have hstate := s.rState.isLt
  have htemp := s.rTemp.isLt
  have hvalid := Bool.toNat_le s.rValid
  simp only [getLsbD_eq_iff, ← BitVec.toNat_inj, BitVec.extractLsb'_toNat, Nat.shiftRight_eq_div_pow,
    readReg_rMisc_toNat, BitVec.toNat_ofNat]
  omega

theorem toNat_setWidth_32 {w : Nat} (hw : w ≤ 32) (v : BitVec w) : (v.setWidth 32).toNat = v.toNat :=
  BitVec.toNat_setWidth_of_le hw

theorem readReg_flen (h : s.flen ≤ 27) : (readReg .flen s).toNat = s.flen := by
  simp only [readReg, BitVec.toNat_setWidth, BitVec.toNat_ofNat]
  omega

theorem readReg_rxcount (h : s.rxq.length ≤ 65535) : (readReg .rxcount s).toNat = s.rxq.length := by
  simp only [readReg, avail, BitVec.toNat_setWidth, BitVec.toNat_ofNat]
  omega

/-- Settles O47, register by register. -/
theorem registersShowState : Obligations.RegistersShowState := by
  intro s
  obtain ⟨hbusy, hdone, hok, hrecd, hovf, hrej⟩ := statWord_flags s
  obtain ⟨hlow, hhigh, hst⟩ := statWord_fields s
  have hcode : (readReg .stat s).extractLsb' 8 4 = match s.st with
      | .idle => 0#4 | .flush => 1#4 | .tx => 2#4 | .hunt => 3#4 | .collect => 4#4 | .finish => 5#4 | .pscan => 6#4 := by
    refine hst.trans ?_
    cases s.st <;> rfl
  exact ⟨hbusy, hdone, hok, hrecd, hovf, hrej, hlow, hhigh, hcode, toNat_setWidth_32 (by omega) s.opReg,
    toNat_setWidth_32 (by omega) s.csum, readReg_flen, readReg_rxcount, rfl, rfl, rfl, rfl,
    BitVec.extractLsb'_append_eq_right, BitVec.extractLsb'_append_eq_left, BitVec.extractLsb'_append_eq_right,
    BitVec.extractLsb'_append_eq_left, readReg_rMisc_fields s⟩

/-- A narrow register reads back the low bits of what was written. -/
theorem setWidth_setWidth_eq_and {k : Nat} (hk : k ≤ 32) (v : Word) :
    (v.setWidth k).setWidth 32 = v &&& BitVec.ofNat 32 (2 ^ k - 1) := by
  have hpow : 2 ^ k ≤ 2 ^ 32 := Nat.pow_le_pow_right (by omega) hk
  have hpos := Nat.two_pow_pos k
  have hmask : (BitVec.ofNat 32 (2 ^ k - 1)).toNat = 2 ^ k - 1 := by
    rw [BitVec.toNat_ofNat, Nat.mod_eq_of_lt (by omega)]
  apply BitVec.eq_of_toNat_eq
  rw [toNat_setWidth_32 hk, BitVec.toNat_setWidth, BitVec.toNat_and, hmask, Nat.and_two_pow_sub_one_eq_mod]

/-- Settles O48, register by register. -/
theorem writesKeepFieldBits : Obligations.WritesKeepFieldBits := by
  intro s v
  have hbyte : (v.setWidth 8).setWidth 32 = v &&& 0x000000FF#32 := setWidth_setWidth_eq_and (by omega) v
  have hhalf : (v.setWidth 16).setWidth 32 = v &&& 0x0000FFFF#32 := setWidth_setWidth_eq_and (by omega) v
  refine ⟨fun r hr => hostWrite_portOffset hr v s, ⟨rfl, hbyte⟩, ⟨rfl, rfl⟩, ⟨rfl, hbyte⟩, ⟨rfl, hbyte⟩, ⟨rfl, hbyte⟩,
    ⟨rfl, hhalf⟩, ⟨rfl, rfl⟩, ⟨rfl, rfl⟩, rfl, fun hidle i => ⟨⟨_, ?_, writeReg_buf_idle i v hidle⟩, ?_⟩⟩
  · exact Memory.read_writeBytes s.buf i.val [v.setWidth 8]
  · rw [writeReg_buf_idle i v hidle, readReg, setBuf_buf, Memory.read_write_same, hbyte]

/-! RESET (R29, R110). -/

/-- Settles O49: the reset column, field by field. -/
theorem resetRestoresBlock : Obligations.ResetRestoresBlock := by
  intro s
  refine ⟨resetBlock s, rfl, ?_⟩
  simp [State.resetWith, readReg, patternReset, tmoBlockReset, tmoWaitReset, magic]

/-! The canonical buffer (R21). -/

theorem Memory.read_head (c : Host.Cell) (cs : Memory) : Memory.read (c :: cs) c.1 = c.2 := if_pos rfl

theorem Memory.wfFrom_cons_iff (lo : Nat) (c : Host.Cell) (cs : Memory) :
    Memory.wfFrom lo (c :: cs) = true ↔ lo ≤ c.1 ∧ c.1 < bufLen ∧ c.2 ≠ 0#8 ∧ Memory.wfFrom (c.1 + 1) cs = true := by
  simp [Memory.wfFrom, and_assoc]

/-- A canonical buffer that reads as `c :: cs` does has its first cell at c's index or before it. -/
theorem Memory.exists_head_le {lo lo' : Nat} {c : Host.Cell} {cs m : Memory}
    (hc : Memory.wfFrom lo (c :: cs) = true) (hm : Memory.wfFrom lo' m = true)
    (h : ∀ a, Memory.read (c :: cs) a = Memory.read m a) : ∃ d ds, m = d :: ds ∧ d.1 ≤ c.1 := by
  obtain ⟨-, -, hne, -⟩ := (Memory.wfFrom_cons_iff _ _ _).mp hc
  have hread : Memory.read m c.1 ≠ 0#8 := by rwa [← h, Memory.read_head]
  cases m with
  | nil => exact absurd rfl hread
  | cons d ds =>
    obtain ⟨-, hlt, hd, hds⟩ := (Memory.wfFrom_cons_iff _ _ _).mp hm
    refine ⟨d, ds, rfl, Nat.le_of_not_lt fun hlt' => hread ?_⟩
    exact Memory.read_below d.1 c.1 _ ((Memory.wfFrom_cons_iff _ _ _).mpr ⟨le_rfl, hlt, hd, hds⟩) hlt'

/-- Canonical buffers that read the same are the same list of cells. -/
theorem Memory.eq_of_read_eq {lo : Nat} {m m' : Memory} (hm : Memory.wfFrom lo m = true)
    (hm' : Memory.wfFrom lo m' = true) (h : ∀ a, Memory.read m a = Memory.read m' a) : m = m' := by
  induction m generalizing lo m' with
  | nil =>
    cases m' with
    | nil => rfl
    | cons d ds =>
      obtain ⟨_, _, hnil, -⟩ := Memory.exists_head_le hm' hm fun a => (h a).symm
      cases hnil
  | cons c cs ih =>
    obtain ⟨d, ds, rfl, hle⟩ := Memory.exists_head_le hm hm' h
    obtain ⟨_, _, heq, hge⟩ := Memory.exists_head_le hm' hm fun a => (h a).symm
    cases heq
    obtain ⟨-, -, -, hcs⟩ := (Memory.wfFrom_cons_iff _ _ _).mp hm
    obtain ⟨-, -, -, hds⟩ := (Memory.wfFrom_cons_iff _ _ _).mp hm'
    have hindex : d.1 = c.1 := Nat.le_antisymm hle hge
    have hhead : c = d := by
      refine Prod.ext hindex.symm ?_
      rw [← Memory.read_head c cs, h, ← hindex, Memory.read_head]
    subst hhead
    rw [ih hcs hds fun a => ?_]
    by_cases ha : c.1 = a
    · subst ha
      rw [Memory.read_below _ _ _ hcs (by omega), Memory.read_below _ _ _ hds (by omega)]
    · have htail := h a
      simp only [Memory.read, if_neg ha] at htail
      exact htail

/-- Settles O53. -/
theorem bufferIsCanonical : Obligations.BufferIsCanonical :=
  ⟨fun m a v hm ha => ⟨Memory.wf_write m a v hm ha, Memory.read_write m a v⟩, fun _ _ => Memory.eq_of_read_eq⟩

/-! The clock and the deadline (R24, R74). -/

theorem ticks_succ (k : Nat) (s : State) : ticks (k + 1) s = tick (ticks k s) := by
  induction k generalizing s with
  | zero => rfl
  | succ k ih => exact ih (tick s)

/-- k ticks add k to NOW and leave the deadline as it was armed. -/
theorem ticks_frame (k : Nat) (s : State) :
    (ticks k s).now = s.now + BitVec.ofNat 32 k ∧ (ticks k s).t0 = s.t0 ∧ (ticks k s).tmoCur = s.tmoCur ∧
      (ticks k s).armed = s.armed := by
  induction k with
  | zero => simp [ticks]
  | succ k ih =>
    obtain ⟨hnow, ht0, htmo, harmed⟩ := ih
    simp [ticks_succ, hnow, ht0, htmo, harmed, BitVec.ofNat_add, BitVec.add_assoc]

/-- The tick that follows k others tests the time since arming, which is k + 1 modulo 2^32. -/
theorem ticks_succ_exp (t : Word) (s : State) (k : Nat) :
    (ticks (k + 1) (arm t s)).exp = ((ticks k (arm t s)).exp || decide (t.toNat ≤ (k + 1) % 4294967296)) := by
  obtain ⟨hnow, ht0, htmo, harmed⟩ := ticks_frame k (arm t s)
  have helapsed : s.now + BitVec.ofNat 32 k + 1#32 - s.now = BitVec.ofNat 32 (k + 1) := by
    rw [BitVec.ofNat_add]
    ring
  simp [ticks_succ, hnow, ht0, htmo, harmed, helapsed, BitVec.le_def]

/-- No wrap of NOW hides the expiry: before the first wrap has come, every timeout of 32 bits has expired. -/
theorem ticks_arm_exp (t : Word) (s : State) (k : Nat) : (ticks k (arm t s)).exp = decide (t.toNat ≤ k) := by
  induction k with
  | zero => simp [ticks, ← BitVec.toNat_inj]
  | succ k ih =>
    have hlt := t.isLt
    rw [ticks_succ_exp, ih, ← Bool.decide_or, decide_eq_decide]
    omega

/-- Settles O27. -/
theorem deadlineExpiresAtTick : Obligations.DeadlineExpiresAtTick :=
  ⟨fun s => ⟨rfl, by simp [BitVec.toNat_add]⟩, fun _ _ => rfl, fun _ => rfl, ticks_arm_exp⟩

end Sys2Proof.Machine
end

section
/-! PROOFS. Bytes on the wire (R22, R23, R34, R98): what a run of received bytes queues, what a run of sent bytes puts on
the wire, the TX phase (R78), and the wire-frame rows (R51 to R53). -/

namespace Sys2Proof.Machine

open Sys2Proof.Config

variable {s t : State}

/-! Runs of events. -/

theorem runEvents_cons {e : Event} (h : act e s = .next t) (es : List Event) :
    runEvents (e :: es) s = runEvents es t := by
  simp [runEvents, h]

theorem runEvents_append {es : List Event} (h : runEvents es s = .next t) (fs : List Event) :
    runEvents (es ++ fs) s = runEvents fs t := by
  induction es generalizing s with
  | nil =>
    cases h
    rfl
  | cons e es ih =>
    cases he : act e s with
    | next u =>
      rw [runEvents_cons he] at h
      rw [List.cons_append, runEvents_cons he, ih h]
    | fault f => simp [runEvents, he] at h
    | refused r => simp [runEvents, he] at h

/-! Received bytes (R22, R98). -/

theorem runEvents_rxBytes (bytes : List Byte) (s : State) :
    runEvents (bytes.map .rxByte) s = .next (pushAll bytes s) := by
  induction bytes generalizing s with
  | nil => rfl
  | cons b bytes ih => exact ih (push b s)

/-- As many of the bytes as there is room for are queued, in order; RX_OVF tells of the others. -/
theorem pushAll_eq (bytes : List Byte) (s : State) :
    pushAll bytes s =
      { s with rxq := s.rxq ++ bytes.take (room s), rxOvf := s.rxOvf || decide (room s < bytes.length) } := by
  induction bytes generalizing s with
  | nil => simp [pushAll]
  | cons b bytes ih =>
    rw [pushAll, ih]
    by_cases hroom : s.rxq.length < s.params.rxqDepth
    · obtain ⟨k, hk⟩ : ∃ k, room s = k + 1 := ⟨room s - 1, by simp only [room]; omega⟩
      have hk' : room { s with rxq := s.rxq ++ [b] } = k := by
        simp only [room, List.length_append, List.length_singleton] at hk ⊢
        omega
      simp [push_room b s hroom, hk, hk']
    · have hfull : room s = 0 := by
        simp only [room]
        omega
      have hfull' : room { s with rxOvf := true } = 0 := hfull
      simp [push_full b s hroom, hfull, hfull']

/-- Settles O50. -/
theorem receivedBytesQueueInOrder : Obligations.ReceivedBytesQueueInOrder := by
  intro s bytes
  rw [runEvents_rxBytes, pushAll_eq]

/-- Settles O51: each row receives its bytes, and the bytes are those of R52 and R53. -/
theorem replyFramesAreReceived : Obligations.ReplyFramesAreReceived := by
  refine ⟨fun s f => ⟨rfl, ?_⟩, fun s f => ⟨?_, ?_⟩⟩
  all_goals exact congrArg Host.Outcome.next (pushAll_eq _ s)

/-! The TX phase (R78). -/

theorem offerByte_eq (s : State) :
    offerByte s = { s with txd := bufAt s s.idx, txv := true, idx := s.idx + 1 } := rfl

theorem takeByte_of_offer (h : s.txv = true) : takeByte s = { s with wire := s.wire ++ [s.txd], txv := false } := if_pos h

theorem takeByte_of_empty (h : s.txv = false) : takeByte s = s := by simp [takeByte, h]

theorem stepTx_hold (h : s.txv = true) : stepTx s = .next s := if_pos h

theorem stepTx_offer (hv : s.txv = false) (hi : s.idx < s.n) (hn : s.n ≤ 27) : stepTx s = .next (offerByte s) := by
  have hidx : s.idx < bufLen := Nat.lt_of_lt_of_le hi hn
  simp [stepTx, hv, hi, hidx]

theorem stepTx_end (hv : s.txv = false) (hi : s.n ≤ s.idx) : stepTx s = endTx s := by
  simp [stepTx, hv, Nat.not_lt.mpr hi]

theorem endTx_send (h : s.opc = opcSend) : endTx s = .next (complete true s) := if_pos h

theorem endTx_getStatus (h : s.opc = opcGetStatus) :
    endTx s =
      .next { s with idx := 0, n := 27, flen := 0, t0 := s.now, tmoCur := s.lTb, armed := true,
                     exp := decide (s.lTb = 0#32), st := .collect } := by
  simp +decide [endTx, h, setPhase, arm, setFlen, setCount, setIdx, statusLen]

theorem endTx_sendValidate (h : s.opc = opcSendValidate) :
    endTx s =
      .next { s with idx := 0, n := 15, flen := 0, t0 := s.now, tmoCur := s.lTw, armed := true,
                     exp := decide (s.lTw = 0#32), st := .hunt } := by
  simp +decide [endTx, h, setPhase, arm, setFlen, setCount, setIdx, ackLen]

/-- Settles O30: the hold, the offer, and the end of the send operation by operation. -/
theorem txPhase : Obligations.TxPhase := by
  intro s hst
  rw [fsmStep_tx hst]
  refine ⟨fun hv => ⟨by simp [fsmEnabled, hst, hv], stepTx_hold hv, ?_⟩, fun hv hi hn => stepTx_offer hv hi hn,
    fun hv hi => ?_⟩
  · exact congrArg Host.Outcome.next (takeByte_of_offer hv)
  · rw [stepTx_end hv hi.ge]
    exact ⟨endTx_send, endTx_getStatus, endTx_sendValidate⟩

/-! Sent bytes (R23, R34). -/

theorem sendByte_eq (s : State) :
    sendByte s =
      { s with wire := s.wire ++ [bufAt s s.idx], txd := bufAt s s.idx, txv := false, idx := s.idx + 1 } := rfl

/-- The bytes of BUF from IDX on go out in order; the last of them stays in TXD. -/
theorem sendBytes_succ_eq (k : Nat) (s : State) :
    sendBytes (k + 1) s =
      { s with wire := s.wire ++ (List.range (k + 1)).map (fun i => bufAt s (s.idx + i)),
               txd := bufAt s (s.idx + k), txv := false, idx := s.idx + (k + 1) } := by
  induction k generalizing s with
  | zero => rfl
  | succ k ih =>
    rw [sendBytes, ih, sendByte_eq]
    have hshift (i : Nat) : s.idx + 1 + i = s.idx + (i + 1) := by omega
    simp [List.range_succ_eq_map, bufAt, hshift, Function.comp_def]

theorem sendRounds_succ (k : Nat) : sendRounds (k + 1) = .fsm :: .txTake :: sendRounds k := rfl

/-- In the TX phase, rounds of an FSM step and a TXSNK step send as many bytes as N has left. -/
theorem runEvents_sendRounds (k : Nat) (hst : s.st = .tx) (hv : s.txv = false) (hk : s.idx + k ≤ s.n) (hn : s.n ≤ 27) :
    runEvents (sendRounds k) s = .next (sendBytes k s) := by
  induction k generalizing s with
  | zero => rfl
  | succ k ih =>
    have hoffer : act .fsm s = .next (offerByte s) := (fsmStep_tx hst).trans (stepTx_offer hv (by omega) hn)
    rw [sendRounds_succ, runEvents_cons hoffer, runEvents_cons rfl]
    refine ih hst rfl ?_ hn
    simp only [takeByte_idx, offerByte_idx, takeByte_n, offerByte_n]
    omega

theorem emitFrame_of_not_offers {bytes : List Byte} (h : ¬Offers bytes s) : emitFrame bytes s = s :=
  if_neg ((offering_iff bytes s).not.mpr h)

theorem emitFrame_of_offers {bytes : List Byte} (h : Offers bytes s) : emitFrame bytes s = sendBytes bytes.length s :=
  if_pos ((offering_iff bytes s).mpr h)

theorem runEvents_of_offers {bytes : List Byte} (h : Offers bytes s) :
    runEvents (sendRounds bytes.length) s = .next (sendBytes bytes.length s) := by
  obtain ⟨hst, hv, hidx, hn, hfits, -⟩ := h
  exact runEvents_sendRounds _ hst hv (by omega) hfits

/-- The bytes on offer are those that go out. -/
theorem sendBytes_of_offers {k : Nat} {bytes : List Byte} (h : Offers bytes s) (hk : bytes.length = k + 1) :
    sendBytes (k + 1) s = { s with wire := s.wire ++ bytes, idx := k + 1, txd := bytes.getD k 0#8 } := by
  obtain ⟨hst, hv, hidx, hn, hfits, hbytes⟩ := h
  have hout : (List.range (k + 1)).map (fun i => bufAt s (s.idx + i)) = bytes := by
    refine List.ext_getElem (by simp [hk]) fun i hi hi' => ?_
    simp [hidx, bufAt, hbytes i hi', hi']
  have hlast : bufAt s (s.idx + k) = bytes.getD k 0#8 := by
    rw [hidx, Nat.zero_add]
    exact hbytes k (by omega)
  rw [sendBytes_succ_eq, hout, hlast, hidx, ← hv, Nat.zero_add]

/-- A well-formed command frame on offer goes out. -/
theorem emitFrame_commandBytes {command : Byte} {f : CommandFrame} (hwf : f.wellFormed command = true)
    (h : Offers (sentFrame command f.deviceId f.value) s) :
    emitFrame (commandBytes command f) s =
        { s with wire := s.wire ++ sentFrame command f.deviceId f.value, idx := 15, txd := f.checksum } ∧
      Host.Outcome.next (emitFrame (commandBytes command f) s) = runEvents (sendRounds 15) s := by
  have hbytes := commandBytes_eq command f hwf
  have hsum : (sentFrame command f.deviceId f.value).getD 14 0#8 = f.checksum := by
    rw [← hbytes]
    rfl
  rw [hbytes, emitFrame_of_offers h]
  exact ⟨by rw [← hsum]; exact sendBytes_of_offers (k := 14) h rfl, (runEvents_of_offers h).symm⟩

/-- Settles O52, by whether the frame is on offer. -/
theorem commandFramesAreSent : Obligations.CommandFramesAreSent := by
  intro s f
  have hsent {command : Byte} (hwf : f.wellFormed command = true) (h : Offers (sentFrame command f.deviceId f.value) s) :
      Host.Outcome.next (φ := Fault) (ρ := Refusal) (emitFrame (commandBytes command f) s) =
          .next { s with wire := s.wire ++ sentFrame command f.deviceId f.value, idx := 15, txd := f.checksum } ∧
        Host.Outcome.next (emitFrame (commandBytes command f) s) = runEvents (sendRounds 15) s := by
    obtain ⟨hstate, hrounds⟩ := emitFrame_commandBytes hwf h
    exact ⟨congrArg _ hstate, hrounds⟩
  exact ⟨fun h => congrArg Host.Outcome.next (emitFrame_of_not_offers h),
    fun h => congrArg Host.Outcome.next (emitFrame_of_not_offers h),
    fun h => congrArg Host.Outcome.next (emitFrame_of_not_offers h), hsent, hsent, hsent⟩

/-! A run of bytes crosses the wire as it stands, whether or not it is a frame (R55, R84): a frame's row sends or
receives the very bytes that decode to it. -/

theorem wireStep_tx (bytes : List Byte) (s : State) : wireStep .tx bytes s = .next (emitFrame bytes s) := by
  unfold wireStep
  split
  · next i hi =>
    obtain ⟨henc, -⟩ := encodeOfDecode _ _ hi
    cases i
    case frameCmdStatus | frameCmdControl | frameCmdPowerGrade =>
      injection henc with _ hbytes
      rw [← hbytes]
      rfl
    all_goals cases henc
  · rfl

theorem wireStep_rx (bytes : List Byte) (s : State) : wireStep .rx bytes s = .next (receiveFrame bytes s) := by
  unfold wireStep
  split
  · next i hi =>
    obtain ⟨henc, -⟩ := encodeOfDecode _ _ hi
    cases i
    case frameStatusReply | frameAckControl | frameAckPowerGrade =>
      injection henc with _ hbytes
      rw [← hbytes]
      rfl
    all_goals cases henc
  · rfl

end Sys2Proof.Machine
end

section
/-! PROOFS. Noninterference: an FSM step reads none of the operand registers (R26, R44), and nothing reads CAUSE (R27).
Both are one argument about the FSM: a difference between two states that no phase reads, and that every write of the FSM
carries along, stays such a difference after a step. -/

namespace Sys2Proof.Machine

open Sys2Proof.Config

/-! Outcomes that agree up to a relation on states. -/

inductive OutcomeRel (R : State → State → Prop) :
    Host.Outcome State Fault Refusal → Host.Outcome State Fault Refusal → Prop where
  | next {a b : State} : R a b → OutcomeRel R (.next a) (.next b)
  | fault (f : Fault) : OutcomeRel R (.fault f) (.fault f)
  | refused (r : Refusal) : OutcomeRel R (.refused r) (.refused r)

/-- Everything an FSM step reads before it writes it (R72 to R82). -/
def fsmView (s : State) :=
  (s.st, s.opc, s.buf, s.rxq, s.txv, s.exp, s.idx, s.n, s.budget, s.lCmd, s.lValue, s.lP0, s.lP1, s.lTb, s.lTw)

/-- A difference between two states that the FSM does not read and that each of its writes keeps. -/
structure FsmBlind (R : State → State → Prop) : Prop where
  view {a b : State} : R a b → fsmView b = fsmView a
  complete {a b : State} (r : Bool) : R a b → R (complete r a) (complete r b)
  labelFailure {a b : State} (c : Cause) : R a b → R (labelFailure c a) (labelFailure c b)
  discard {a b : State} (k : Nat) : R a b → R (discard k a) (discard k b)
  popInto {a b : State} (base k : Nat) : R a b → R (popInto base k a) (popInto base k b)
  offerByte {a b : State} : R a b → R (offerByte a) (offerByte b)
  decodeFields {a b : State} : R a b → R (decodeFields a) (decodeFields b)
  arm {a b : State} (t : Word) : R a b → R (arm t a) (arm t b)
  disarm {a b : State} : R a b → R (disarm a) (disarm b)
  setPhase {a b : State} (p : Phase) : R a b → R (setPhase p a) (setPhase p b)
  setIdx {a b : State} (k : Nat) : R a b → R (setIdx k a) (setIdx k b)
  setCount {a b : State} (k : Nat) : R a b → R (setCount k a) (setCount k b)
  setFlen {a b : State} (k : Nat) : R a b → R (setFlen k a) (setFlen k b)
  setBudget {a b : State} (k : Nat) : R a b → R (setBudget k a) (setBudget k b)
  setRecord {a b : State} : R a b → R (setRecord a) (setRecord b)
  setCause {a b : State} (c : Cause) : R a b → R (setCause c a) (setCause c b)

section Blind

variable {R : State → State → Prop} {a b : State} (hR : FsmBlind R) (h : R a b)
include hR h

theorem FsmBlind.st : b.st = a.st := congrArg (fun v => v.1) (hR.view h)
theorem FsmBlind.opc : b.opc = a.opc := congrArg (fun v => v.2.1) (hR.view h)
theorem FsmBlind.buf : b.buf = a.buf := congrArg (fun v => v.2.2.1) (hR.view h)
theorem FsmBlind.rxq : b.rxq = a.rxq := congrArg (fun v => v.2.2.2.1) (hR.view h)
theorem FsmBlind.txv : b.txv = a.txv := congrArg (fun v => v.2.2.2.2.1) (hR.view h)
theorem FsmBlind.exp : b.exp = a.exp := congrArg (fun v => v.2.2.2.2.2.1) (hR.view h)
theorem FsmBlind.idx : b.idx = a.idx := congrArg (fun v => v.2.2.2.2.2.2.1) (hR.view h)
theorem FsmBlind.n : b.n = a.n := congrArg (fun v => v.2.2.2.2.2.2.2.1) (hR.view h)
theorem FsmBlind.budget : b.budget = a.budget := congrArg (fun v => v.2.2.2.2.2.2.2.2.1) (hR.view h)
theorem FsmBlind.lCmd : b.lCmd = a.lCmd := congrArg (fun v => v.2.2.2.2.2.2.2.2.2.1) (hR.view h)
theorem FsmBlind.lValue : b.lValue = a.lValue := congrArg (fun v => v.2.2.2.2.2.2.2.2.2.2.1) (hR.view h)
theorem FsmBlind.lP0 : b.lP0 = a.lP0 := congrArg (fun v => v.2.2.2.2.2.2.2.2.2.2.2.1) (hR.view h)
theorem FsmBlind.lP1 : b.lP1 = a.lP1 := congrArg (fun v => v.2.2.2.2.2.2.2.2.2.2.2.2.1) (hR.view h)
theorem FsmBlind.lTb : b.lTb = a.lTb := congrArg (fun v => v.2.2.2.2.2.2.2.2.2.2.2.2.2.1) (hR.view h)
theorem FsmBlind.lTw : b.lTw = a.lTw := congrArg (fun v => v.2.2.2.2.2.2.2.2.2.2.2.2.2.2) (hR.view h)

theorem FsmBlind.avail : avail b = avail a := congrArg List.length (hR.rxq h)

theorem FsmBlind.frameSumGood : frameSumGood b = frameSumGood a := by
  simp only [Machine.frameSumGood, bufSum, bufBytes, hR.buf h]

theorem FsmBlind.echoGood : echoGood b = echoGood a := by
  simp only [Machine.echoGood, hR.buf h, hR.lValue h]

theorem FsmBlind.headerPattern : headerPattern b = headerPattern a := by
  simp only [Machine.headerPattern, hR.opc h, hR.lP0 h, hR.lP1 h, hR.lCmd h]

theorem FsmBlind.fail (c : Cause) : R (fail c a) (fail c b) := hR.complete false (hR.labelFailure c h)

theorem FsmBlind.stepFlush : OutcomeRel R (stepFlush a) (stepFlush b) := by
  simp only [Machine.stepFlush, hR.opc h, hR.avail h]
  split
  · exact .next (hR.complete true (hR.discard _ h))
  · exact .next (hR.setPhase .tx (hR.discard _ h))

theorem FsmBlind.endTx : OutcomeRel R (endTx a) (endTx b) := by
  simp only [Machine.endTx, hR.opc h, hR.lTb h, hR.lTw h]
  split
  · exact .next (hR.complete true h)
  · split
    · exact .next (hR.setPhase _ (hR.arm _ (hR.setFlen _ (hR.setCount _ (hR.setIdx _ h)))))
    · split
      · exact .next (hR.setPhase _ (hR.arm _ (hR.setFlen _ (hR.setCount _ (hR.setIdx _ h)))))
      · exact .fault _

theorem FsmBlind.stepTx : OutcomeRel R (stepTx a) (stepTx b) := by
  simp only [Machine.stepTx, hR.txv h, hR.idx h, hR.n h]
  split
  · exact .next h
  · split
    · split
      · exact .next (hR.offerByte h)
      · exact .fault _
    · exact hR.endTx h

theorem FsmBlind.huntMatch : R (huntMatch a) (huntMatch b) := by
  have htaken := hR.setFlen 2 (hR.setIdx 2 (hR.popInto 0 2 h))
  simp only [Machine.huntMatch, hR.n h]
  split
  · exact hR.setPhase _ (hR.disarm htaken)
  · exact hR.setPhase _ htaken

theorem FsmBlind.stepHunt : OutcomeRel R (stepHunt a) (stepHunt b) := by
  simp only [Machine.stepHunt, hR.exp h, hR.rxq h, hR.headerPattern h]
  split
  · exact .next (hR.fail h _)
  · split
    · split
      · exact .fault _
      · split
        · exact .next (hR.huntMatch h)
        · exact .next (hR.discard 1 h)
    · exact .next h

theorem FsmBlind.collectByte : R (collectByte a) (collectByte b) := by
  have htaken := hR.setFlen (a.idx + 1) (hR.setIdx (a.idx + 1) (hR.popInto a.idx 1 h))
  simp only [Machine.collectByte, hR.idx h, hR.n h]
  split
  · exact hR.setPhase _ (hR.disarm htaken)
  · exact htaken

theorem FsmBlind.stepCollect : OutcomeRel R (stepCollect a) (stepCollect b) := by
  simp only [Machine.stepCollect, hR.exp h, hR.avail h, hR.idx h]
  split
  · exact .next (hR.fail h _)
  · split
    · exact .next h
    · split
      · exact .next (hR.collectByte h)
      · exact .fault _

theorem FsmBlind.finishGetStatus : R (finishGetStatus a) (finishGetStatus b) := by
  have hemptied := hR.discard (Machine.avail a) h
  rw [discard_avail, ← hR.avail h, discard_avail] at hemptied
  by_cases hgood : Machine.frameSumGood a = true
  · rw [finishGetStatus_of_good hgood, finishGetStatus_of_good (s := b) ((hR.frameSumGood h).trans hgood)]
    exact hR.complete true (hR.decodeFields hemptied)
  · rw [finishGetStatus_of_bad hgood, finishGetStatus_of_bad (s := b) (by rwa [hR.frameSumGood h])]
    exact hR.fail (hR.decodeFields hemptied) _

theorem FsmBlind.finishSendValidate : R (finishSendValidate a) (finishSendValidate b) := by
  simp only [Machine.finishSendValidate, hR.frameSumGood h, hR.echoGood h]
  split
  · exact hR.complete true h
  · split
    · exact hR.fail h _
    · exact hR.fail h _

theorem FsmBlind.stepFinish : OutcomeRel R (stepFinish a) (stepFinish b) := by
  simp only [Machine.stepFinish, hR.opc h]
  split
  · exact .next (hR.complete true h)
  · split
    · exact .next (hR.finishGetStatus h)
    · split
      · exact .next (hR.finishSendValidate h)
      · exact .fault _

theorem FsmBlind.endNoFrame : R (endNoFrame a) (endNoFrame b) := hR.complete true (hR.setCause .noFrame h)

theorem FsmBlind.scanFrame : R (scanFrame a) (scanFrame b) := by
  have htaken := hR.setFlen statusLen (hR.setBudget (a.budget - statusLen) (hR.popInto 0 statusLen h))
  simp only [Machine.scanFrame, hR.budget h, hR.frameSumGood htaken]
  split
  · exact hR.complete true (hR.setRecord (hR.decodeFields htaken))
  · exact htaken

theorem FsmBlind.stepPscan : OutcomeRel R (stepPscan a) (stepPscan b) := by
  simp only [Machine.stepPscan, hR.budget h, hR.rxq h, hR.avail h]
  split
  · exact .next (hR.endNoFrame h)
  · split
    · split
      · exact .next (hR.setBudget _ (hR.discard 1 h))
      · split
        · exact .next (hR.endNoFrame h)
        · split
          · exact .fault _
          · exact .next (hR.scanFrame h)
    · exact .fault _

theorem FsmBlind.fsmStep : OutcomeRel R (fsmStep a) (fsmStep b) := by
  simp only [Machine.fsmStep, hR.st h]
  cases a.st with
  | idle => exact .next h
  | flush => exact hR.stepFlush h
  | tx => exact hR.stepTx h
  | hunt => exact hR.stepHunt h
  | collect => exact hR.stepCollect h
  | finish => exact hR.stepFinish h
  | pscan => exact hR.stepPscan h

theorem FsmBlind.fsmEnabled : fsmEnabled b = fsmEnabled a := by
  simp only [Machine.fsmEnabled, hR.st h, hR.txv h, hR.exp h, hR.avail h]

end Blind

/-! The operand registers (R18, R26). -/

theorem withOperands_fsmBlind (cmd : Byte) (devid : Word) (value len expect : Byte) (pattern : Half) (tb tw : Word) :
    FsmBlind fun a b => b = withOperands cmd devid value len expect pattern tb tw a := by
  constructor <;> (intros; subst_vars; rfl)

theorem OutcomeRel.eq_mapNext {f : State → State} {x y : Host.Outcome State Fault Refusal}
    (h : OutcomeRel (fun a b => b = f a) x y) : y = mapNext f x := by
  cases h with
  | next h => exact congrArg _ h
  | fault | refused => rfl

/-- Settles O43. -/
theorem operandsAreCaptured : Obligations.OperandsAreCaptured := by
  intro s cmd devid value len expect pattern tb tw
  have hblind := withOperands_fsmBlind cmd devid value len expect pattern tb tw
  exact ⟨(hblind.fsmStep rfl).eq_mapNext, hblind.fsmEnabled rfl⟩

/-! CAUSE (R27). -/

/-- The two states are the same but for CAUSE. -/
def SameButCause (a b : State) : Prop := ∃ c, b = setCause c a

theorem sameButCause_fsmBlind : FsmBlind SameButCause := by
  constructor
  case view =>
    rintro a _ ⟨c, rfl⟩
    rfl
  case labelFailure | setCause =>
    rintro a _ c ⟨_, rfl⟩
    exact ⟨c, rfl⟩
  case popInto =>
    rintro a _ base k ⟨c, rfl⟩
    exact ⟨c, rfl⟩
  case offerByte | decodeFields | disarm | setRecord =>
    rintro a _ ⟨c, rfl⟩
    exact ⟨c, rfl⟩
  all_goals
    rintro a _ _ ⟨c, rfl⟩
    exact ⟨c, rfl⟩

theorem sameButCause_setCause (c : Cause) (s : State) : SameButCause s (setCause c s) := ⟨c, rfl⟩

theorem readReg_setCause (r : PortReg) (c : Cause) (s : State) : readReg r (setCause c s) = readReg r s := by
  cases r <;> rfl

theorem hostRead_setCause (a : BitVec 8) (width : Nat) (c : Cause) (s : State) :
    hostRead a width (setCause c s) = setCause c (hostRead a width s) := by
  simp only [hostRead, readReg_setCause]
  split <;> rfl

theorem writeReg_setCause (r : PortReg) (v : Word) (c : Cause) (s : State) :
    writeReg r v (setCause c s) = setCause c (writeReg r v s) := by
  cases r with
  | buf i =>
    cases hb : s.busy with
    | true =>
      rw [writeReg_buf_busy i v hb, writeReg_buf_busy (s := setCause c s) i v hb]
      rfl
    | false =>
      rw [writeReg_buf_idle i v hb, writeReg_buf_idle (s := setCause c s) i v hb]
      rfl
  | _ => rfl

/-- Acceptance writes CAUSE (R28), so that an accepted operation sees nothing of it. -/
theorem accept_setCause (o : BitVec 4) (c : Cause) (s : State) : accept o (setCause c s) = accept o s := rfl

theorem issue_sameButCause (o : BitVec 4) (run : State → State) (c : Cause) (s : State) :
    SameButCause (issue o run s) (issue o run (setCause c s)) := by
  cases hb : s.busy with
  | true =>
    rw [issue_busy o run s hb, issue_busy o run (setCause c s) hb]
    exact ⟨c, rfl⟩
  | false =>
    rw [issue_idle o run s hb, issue_idle o run (setCause c s) hb, accept_setCause]
    exact ⟨(run (accept o s)).cause, rfl⟩

theorem issueReserved_sameButCause (c : Cause) (s : State) :
    SameButCause (issueReserved s) (issueReserved (setCause c s)) := by
  rw [issueReserved_eq, issueReserved_eq]
  exact ⟨c, rfl⟩

theorem receiveFrame_sameButCause (bytes : List Byte) (c : Cause) (s : State) :
    SameButCause (receiveFrame bytes s) (receiveFrame bytes (setCause c s)) := by
  simp only [receiveFrame, pushAll_eq]
  exact ⟨c, rfl⟩

theorem sendBytes_setCause (k : Nat) (c : Cause) (s : State) :
    sendBytes k (setCause c s) = setCause c (sendBytes k s) := by
  cases k with
  | zero => rfl
  | succ k =>
    simp only [sendBytes_succ_eq]
    rfl

theorem emitFrame_sameButCause (bytes : List Byte) (c : Cause) (s : State) :
    SameButCause (emitFrame bytes s) (emitFrame bytes (setCause c s)) := by
  have hoffering : offering bytes (setCause c s) = offering bytes s := rfl
  simp only [emitFrame, hoffering, sendBytes_setCause]
  split <;> exact ⟨c, rfl⟩

theorem exec_sameButCause (i : Instr) (c : Cause) (s : State) :
    OutcomeRel SameButCause (exec i s) (exec i (setCause c s)) := by
  cases i with
  | frameCmdStatus f | frameCmdControl f | frameCmdPowerGrade f => exact .next (emitFrame_sameButCause _ c s)
  | frameStatusReply f | frameAckControl f | frameAckPowerGrade f => exact .next (receiveFrame_sameButCause _ c s)
  | reservedD | reservedE | reservedF => exact .next (issueReserved_sameButCause c s)
  | _ => exact .next (issue_sameButCause _ _ c s)

theorem hostWrite_sameButCause (a : BitVec 8) (width : Nat) (v : Word) (c : Cause) (s : State) :
    OutcomeRel SameButCause (hostWrite a width v s) (hostWrite a width v (setCause c s)) := by
  have hrespond (error : Bool) : respond 0#32 error (setCause c s) = setCause c (respond 0#32 error s) := rfl
  unfold hostWrite
  simp only [hrespond]
  split
  · exact .next ⟨c, rfl⟩
  · exact exec_sameButCause _ c _
  · rw [writeReg_setCause]
    exact .next ⟨c, rfl⟩

theorem wireStep_sameButCause (d : Direction) (bytes : List Byte) (c : Cause) (s : State) :
    OutcomeRel SameButCause (wireStep d bytes s) (wireStep d bytes (setCause c s)) := by
  cases d with
  | tx =>
    rw [wireStep_tx, wireStep_tx]
    exact .next (emitFrame_sameButCause bytes c s)
  | rx =>
    rw [wireStep_rx, wireStep_rx]
    exact .next (receiveFrame_sameButCause bytes c s)

theorem act_sameButCause (e : Event) (c : Cause) (s : State) :
    OutcomeRel SameButCause (act e s) (act e (setCause c s)) := by
  cases e with
  | host a =>
    cases a with
    | read a width => exact .next ⟨c, hostRead_setCause a width c s⟩
    | write a width v => exact hostWrite_sameButCause a width v c s
  | rxByte b => exact .next (receiveFrame_sameButCause [b] c s)
  | txTake =>
    refine .next ⟨c, ?_⟩
    cases hv : s.txv with
    | true =>
      rw [takeByte_of_offer hv, takeByte_of_offer (s := setCause c s) hv]
      rfl
    | false => rw [takeByte_of_empty hv, takeByte_of_empty (s := setCause c s) hv]
  | msTick => exact .next ⟨c, rfl⟩
  | fsm => exact sameButCause_fsmBlind.fsmStep (sameButCause_setCause c s)
  | rst => exact .next ⟨.none, rfl⟩
  | wire d bytes => exact wireStep_sameButCause d bytes c s

theorem step_sameButCause (c : Cause) (s : State) : OutcomeRel SameButCause (step s) (step (setCause c s)) := by
  cases hs : s.script with
  | nil =>
    rw [step_nil hs, step_nil (s := setCause c s) hs]
    exact act_sameButCause _ c _
  | cons e rest =>
    rw [step_cons hs, step_cons (s := setCause c s) hs]
    exact act_sameButCause e c _

theorem OutcomeRel.mapNext_setCause {x y : Host.Outcome State Fault Refusal} (h : OutcomeRel SameButCause x y) :
    mapNext (setCause .none) y = mapNext (setCause .none) x := by
  cases h with
  | next h =>
    obtain ⟨c, rfl⟩ := h
    rfl
  | fault | refused => rfl

/-- Settles O44. -/
theorem causeIsNotVisible : Obligations.CauseIsNotVisible := fun s c =>
  ⟨fun r => readReg_setCause r c s, fun e => (act_sameButCause e c s).mapNext_setCause,
    (step_sameButCause c s).mapNext_setCause⟩

end Sys2Proof.Machine
end

section
/-! PROOFS. The invariant of every run: it holds at reset, every step of every agent keeps it, and where it holds every
step has a next state. The part of it that no phase takes away (`StaticInv`) is kept apart from the part that follows the
phase. -/

namespace Sys2Proof.Machine

open Sys2Proof.Config

variable {s t : State}

/-! What holds whatever the FSM is doing. -/

/-- The fields of `Inv` that speak of neither the phase nor the outcome. -/
structure StaticInv (s : State) : Prop where
  params : s.params.legal = true
  buf : Memory.wf s.buf = true
  fifo : avail s ≤ s.params.rxqDepth
  opcSame : s.opReg = s.opc
  opcLegal : s.opc.toNat ≤ 12
  flen : s.flen ≤ bufLen

theorem Inv.static (h : Inv s) : StaticInv s := ⟨h.params, h.buf, h.fifo, h.opcSame, h.opcLegal, h.flen⟩

/-- An update that leaves what the static part reads. -/
theorem StaticInv.of_view (h : StaticInv s)
    (hv : (t.params, t.buf, t.rxq, t.opReg, t.opc, t.flen) = (s.params, s.buf, s.rxq, s.opReg, s.opc, s.flen)) :
    StaticInv t := by
  simp only [Prod.mk.injEq] at hv
  obtain ⟨hparams, hbuf, hrxq, hreg, hopc, hflen⟩ := hv
  have hfifo : avail t = avail s := congrArg List.length hrxq
  exact ⟨hparams ▸ h.params, hbuf ▸ h.buf, by rw [hfifo, hparams]; exact h.fifo, by rw [hreg, hopc]; exact h.opcSame,
    hopc ▸ h.opcLegal, hflen ▸ h.flen⟩

theorem StaticInv.withFifo (h : StaticInv s) {q : List Byte} (hq : q.length ≤ s.rxq.length) :
    StaticInv { s with rxq := q } :=
  ⟨h.params, h.buf, hq.trans h.fifo, h.opcSame, h.opcLegal, h.flen⟩

theorem StaticInv.withFlen (h : StaticInv s) {k : Nat} (hk : k ≤ 27) : StaticInv (setFlen k s) :=
  ⟨h.params, h.buf, h.fifo, h.opcSame, h.opcLegal, hk⟩

theorem StaticInv.withBuf (h : StaticInv s) {m : Memory} (hm : Memory.wf m = true) : StaticInv { s with buf := m } :=
  ⟨h.params, hm, h.fifo, h.opcSame, h.opcLegal, h.flen⟩

theorem StaticInv.popInto (h : StaticInv s) {base k : Nat} (hfits : base + k ≤ 27) : StaticInv (popInto base k s) := by
  refine ⟨h.params, Memory.wf_writeBytes _ _ _ h.buf ?_, ?_, h.opcSame, h.opcLegal, h.flen⟩
  · simp only [List.length_take, bufLen]
    omega
  · have hfifo := h.fifo
    simp only [avail, popInto_rxq, popInto_params, List.length_drop] at hfifo ⊢
    omega

theorem StaticInv.accept (h : StaticInv s) {o : BitVec 4} (ho : o.toNat ≤ 12) : StaticInv (accept o s) :=
  ⟨h.params, h.buf, h.fifo, rfl, ho, h.flen⟩

theorem StaticInv.encodeFrame (h : StaticInv s) (c : Byte) (d : Word) (v : Byte) : StaticInv (encodeFrame c d v s) := by
  constructor
  case buf => exact encodeFrame_wf c d v s h.buf
  all_goals simp [avail, h.params, h.opcSame, h.opcLegal, cmdLen, bufLen]
  exact h.fifo

/-! The invariant of an idle block, and of a running one. -/

/-- An idle block has no byte on offer, no deadline and no position (R25). -/
theorem inv_of_idle (h : StaticInv s) (hbusy : s.busy = false) (hst : s.st = .idle)
    (hrecord : s.recd = true → s.opc = opcDrainOne ∧ s.done = true ∧ s.ok = true) (htxv : s.txv = false)
    (harmed : s.armed = false) (hexp : s.exp = false) (hposition : s.idx = 0 ∧ s.n = 0 ∧ s.budget = 0) : Inv s := by
  constructor
  case phase => simpa [PhaseInv, hst] using hposition
  case record => exact hrecord
  case params | buf | fifo | opcSame | opcLegal | flen => simp [h.params, h.buf, h.fifo, h.opcSame, h.opcLegal, h.flen]
  all_goals simp [hbusy, hst, htxv, harmed, hexp]

/-- What `Inv` says of an idle block. -/
theorem Inv.idle (h : Inv s) (hbusy : s.busy = false) :
    s.st = .idle ∧ s.txv = false ∧ s.armed = false ∧ s.exp = false ∧ s.idx = 0 ∧ s.n = 0 ∧ s.budget = 0 := by
  have hst : s.st = .idle := by
    by_contra hne
    simpa [hbusy] using h.busyIff.mpr hne
  have htxv : s.txv = false := Bool.eq_false_iff.mpr fun hv => by simpa [hst] using (h.offer hv).1
  have harmed : s.armed = false := Bool.eq_false_iff.mpr fun ha => by simpa [hst] using h.armedIff.mp ha
  have hexp : s.exp = false := Bool.eq_false_iff.mpr fun hx => by simpa [harmed] using h.expArmed hx
  have hposition := h.phase
  simp only [PhaseInv, hst] at hposition
  exact ⟨hst, htxv, harmed, hexp, hposition⟩

/-- `complete` leaves an idle block (R73). -/
theorem StaticInv.complete (h : StaticInv s) {r : Bool} (htxv : s.txv = false)
    (hrecord : s.recd = true → s.opc = opcDrainOne ∧ r = true) : Inv (complete r s) := by
  refine inv_of_idle (h.of_view rfl) rfl rfl ?_ htxv rfl rfl ⟨rfl, rfl, rfl⟩
  exact fun hr => ⟨(hrecord hr).1, rfl, (hrecord hr).2⟩

theorem StaticInv.fail (h : StaticInv s) (c : Cause) (htxv : s.txv = false) (hrecd : s.recd = false) :
    Inv (fail c s) := by
  have hlabelled : StaticInv (labelFailure c s) := h.of_view rfl
  exact hlabelled.complete htxv (by simp [hrecd])

/-- What a running operation has, whatever its phase: its outcome bits are clear and its command is one it takes. -/
structure Running (s : State) : Prop extends StaticInv s where
  busy : s.busy = true
  done : s.done = false
  ok : s.ok = false
  recd : s.recd = false
  ackCommand : s.opc = opcSendValidate → isAckCommandCode s.lCmd = true

theorem Inv.toRunning (h : Inv s) (hst : s.st ≠ .idle) : Running s := by
  have hbusy := h.busyIff.mpr hst
  obtain ⟨hdone, hok, hrecd⟩ := h.running hbusy
  exact ⟨h.static, hbusy, hdone, hok, hrecd, h.ackCommand hbusy⟩

/-- A running block in a phase without a deadline. -/
theorem Running.inv_unarmed (h : Running s) (hst : s.st ≠ .idle ∧ s.st ≠ .hunt ∧ s.st ≠ .collect)
    (hoffer : s.txv = true → s.st = .tx ∧ 0 < s.idx ∧ s.txd = Memory.read s.buf (s.idx - 1)) (harmed : s.armed = false)
    (hexp : s.exp = false) (hphase : PhaseInv s) : Inv s := by
  obtain ⟨hidle, hhunt, hcollect⟩ := hst
  constructor
  case phase => exact hphase
  case offer => exact hoffer
  case params | buf | fifo | opcSame | opcLegal | flen => simp [h.params, h.buf, h.fifo, h.opcSame, h.opcLegal, h.flen]
  case ackCommand => exact fun _ => h.ackCommand
  all_goals simp [h.busy, h.done, h.ok, h.recd, hidle, hhunt, hcollect, harmed, hexp]

/-- A running block in one of the two phases with a deadline (R74). -/
theorem Running.inv_armed (h : Running s) (hst : s.st = .hunt ∨ s.st = .collect) (htxv : s.txv = false)
    (harmed : s.armed = true) (htime : s.exp = false → s.now - s.t0 < s.tmoCur) (hphase : PhaseInv s) : Inv s := by
  have hidle : s.st ≠ .idle := by
    rintro hst'
    simp [hst'] at hst
  constructor
  case phase => exact hphase
  case timeLeft => exact fun _ => htime
  case armedIff => simp [harmed, hst]
  case params | buf | fifo | opcSame | opcLegal | flen => simp [h.params, h.buf, h.fifo, h.opcSame, h.opcLegal, h.flen]
  case ackCommand => exact fun _ => h.ackCommand
  all_goals simp [h.busy, h.done, h.ok, h.recd, hidle, htxv, harmed]

/-- A freshly armed deadline has its whole time left (R74). -/
theorem arm_timeLeft (now t : Word) (h : decide (t = 0#32) = false) : now - now < t := by
  rw [BitVec.sub_self, BitVec.lt_def]
  have hne : t.toNat ≠ 0 := by
    simpa [← BitVec.toNat_inj] using h
  simpa using Nat.pos_of_ne_zero hne

/-! Reset (R29). -/

theorem inv_resetWith {p : Params} (hp : p.legal = true) : Inv (State.resetWith p) :=
  inv_of_idle ⟨hp, rfl, Nat.zero_le _, rfl, Nat.zero_le _, Nat.zero_le _⟩ rfl rfl (by simp [State.resetWith]) rfl rfl rfl
    ⟨rfl, rfl, rfl⟩

/-- Settles O54. -/
theorem invAtReset : Obligations.InvAtReset := ⟨inv_resetWith rfl, fun _ => inv_resetWith⟩

/-! The FSM, phase by phase (R77 to R82). -/

theorem Inv.unarmed (h : Inv s) (hst : s.st ≠ .hunt ∧ s.st ≠ .collect) : s.armed = false ∧ s.exp = false := by
  have harmed : s.armed = false := Bool.eq_false_iff.mpr fun ha => (h.armedIff.mp ha).elim hst.1 hst.2
  exact ⟨harmed, Bool.eq_false_iff.mpr fun hx => by simpa [harmed] using h.expArmed hx⟩

theorem Inv.no_offer (h : Inv s) (hst : s.st ≠ .tx) : s.txv = false :=
  Bool.eq_false_iff.mpr fun hv => hst (h.offer hv).1

/-- An update that leaves what `Running` reads beside the static part. -/
theorem Running.step (h : Running s) (hs : StaticInv t)
    (hkept : (t.busy, t.done, t.ok, t.recd, t.opc, t.lCmd) = (s.busy, s.done, s.ok, s.recd, s.opc, s.lCmd)) :
    Running t := by
  simp only [Prod.mk.injEq] at hkept
  obtain ⟨hbusy, hdone, hok, hrecd, hopc, hcmd⟩ := hkept
  exact ⟨hs, hbusy.trans h.busy, hdone.trans h.done, hok.trans h.ok, hrecd.trans h.recd,
    fun ho => hcmd ▸ h.ackCommand (hopc ▸ ho)⟩

theorem Inv.phase_flush (h : Inv s) (hst : s.st = .flush) :
    s.idx = 0 ∧ s.budget = 0 ∧ ((s.opc = opcFlush ∧ s.n = 0) ∨ (s.opc = opcGetStatus ∧ s.n = cmdLen)) := by
  simpa only [PhaseInv, hst] using h.phase

theorem Inv.phase_tx (h : Inv s) (hst : s.st = .tx) :
    s.budget = 0 ∧ s.idx ≤ s.n ∧ 1 ≤ s.n ∧ s.n ≤ bufLen ∧
      (s.opc = opcSend ∨ s.opc = opcGetStatus ∨ s.opc = opcSendValidate) := by
  simpa only [PhaseInv, hst] using h.phase

theorem Inv.phase_hunt (h : Inv s) (hst : s.st = .hunt) :
    s.budget = 0 ∧ s.idx = 0 ∧ 2 ≤ s.n ∧ s.n ≤ bufLen ∧ (s.opc = opcScanRecv ∨ s.opc = opcSendValidate) := by
  simpa only [PhaseInv, hst] using h.phase

theorem Inv.phase_collect (h : Inv s) (hst : s.st = .collect) :
    s.budget = 0 ∧ s.idx < s.n ∧ s.n ≤ bufLen ∧ s.flen = s.idx ∧
      (s.opc = opcRecvFixed ∨ s.opc = opcScanRecv ∨ s.opc = opcGetStatus ∨ s.opc = opcSendValidate) := by
  simpa only [PhaseInv, hst] using h.phase

theorem Inv.phase_finish (h : Inv s) (hst : s.st = .finish) :
    s.budget = 0 ∧ s.idx = s.n ∧ s.n ≤ bufLen ∧ s.flen = s.n ∧
      (s.opc = opcRecvFixed ∨ s.opc = opcScanRecv ∨ s.opc = opcGetStatus ∨ s.opc = opcSendValidate) := by
  simpa only [PhaseInv, hst] using h.phase

theorem Inv.phase_pscan (h : Inv s) (hst : s.st = .pscan) :
    s.idx = 0 ∧ s.n = 0 ∧ s.budget ≤ avail s ∧ s.opc = opcDrainOne := by
  simpa only [PhaseInv, hst] using h.phase

theorem StaticInv.discard (h : StaticInv s) (k : Nat) : StaticInv (discard k s) :=
  h.withFifo (by simp)

theorem Inv.stepFlush (h : Inv s) (hst : s.st = .flush) (hstep : stepFlush s = .next t) : Inv t := by
  have hrun := h.toRunning (by simp [hst])
  have hstatic := h.static.discard (avail s)
  have htxv := h.no_offer (by simp [hst])
  obtain ⟨harmed, hexp⟩ := h.unarmed (by simp [hst])
  obtain ⟨hidx, hbudget, hop⟩ := h.phase_flush hst
  obtain ⟨-, rfl⟩ | ⟨hne, rfl⟩ := stepFlush_cases hstep
  · exact hstatic.complete htxv (by simp [hrun.recd])
  · obtain ⟨ho, -⟩ | ⟨hopc, hn⟩ := hop
    · exact absurd ho hne
    · have hrun' : Running (setPhase .tx (Machine.discard (avail s) s)) := hrun.step (hstatic.of_view (by simp)) (by simp)
      refine hrun'.inv_unarmed (by simp) (by simp [htxv]) (by simp [harmed]) (by simp [hexp]) ?_
      simp [PhaseInv, hidx, hbudget, hopc, hn, cmdLen, bufLen]

theorem Inv.stepTx (h : Inv s) (hst : s.st = .tx) (hstep : stepTx s = .next t) : Inv t := by
  have hrun := h.toRunning (by simp [hst])
  obtain ⟨harmed, hexp⟩ := h.unarmed (by simp [hst])
  obtain ⟨hbudget, hidx, hpos, hn, hop⟩ := h.phase_tx hst
  obtain ⟨-, rfl⟩ | ⟨-, hlt, -, rfl⟩ | ⟨htxv, -, -, rfl⟩ | ⟨htxv, -, hopc, rfl⟩ | ⟨htxv, -, hopc, rfl⟩ :=
    stepTx_cases hstep
  · exact h
  · refine Running.inv_unarmed (hrun.step (h.static.of_view (by simp)) (by simp))
      (by simp [hst]) (by simp [hst]) (by simp [harmed])
      (by simp [hexp]) ?_
    simpa [PhaseInv, hst, hbudget, hpos, hn] using ⟨hlt, hop⟩
  · exact h.static.complete htxv (by simp [hrun.recd])
  · have hstatic := h.static.withFlen (k := 0) (by omega)
    refine Running.inv_armed (hrun.step (hstatic.of_view (by simp)) (by simp)) (by simp) (by simp [htxv]) (by simp)
      (by simpa using arm_timeLeft s.now s.lTb) ?_
    simp [PhaseInv, hbudget, hopc, statusLen, bufLen]
  · have hstatic := h.static.withFlen (k := 0) (by omega)
    refine Running.inv_armed (hrun.step (hstatic.of_view (by simp)) (by simp)) (by simp) (by simp [htxv]) (by simp)
      (by simpa using arm_timeLeft s.now s.lTw) ?_
    simp [PhaseInv, hbudget, hopc, ackLen, bufLen]

theorem Inv.stepHunt (h : Inv s) (hst : s.st = .hunt) (hstep : stepHunt s = .next t) : Inv t := by
  have hrun := h.toRunning (by simp [hst])
  have htxv := h.no_offer (by simp [hst])
  have harmed : s.armed = true := h.armedIff.mpr (.inl hst)
  obtain ⟨hbudget, hidx, hmin, hn, hop⟩ := h.phase_hunt hst
  obtain ⟨-, rfl⟩ | ⟨-, -, rfl⟩ | ⟨hexp, _, _, _, -, -, rfl⟩ | ⟨hexp, _, _, _, _, -, -, -, rfl⟩ :=
    stepHunt_cases hstep
  · exact h.static.fail _ htxv hrun.recd
  · exact h
  · have hstatic := (h.static.popInto (base := 0) (k := 2) (by omega)).withFlen (k := 2) (by omega)
    unfold huntMatch
    split
    · next hn2 =>
      refine Running.inv_unarmed (hrun.step (hstatic.of_view (by simp)) (by simp))
        (by simp) (by simp [htxv]) (by simp) (by simp) ?_
      rcases hop with hop | hop <;> simp [PhaseInv, hbudget, hn2, hop, bufLen]
    · next hn2 =>
      refine Running.inv_armed (hrun.step (hstatic.of_view (by simp)) (by simp))
        (by simp) (by simp [htxv]) (by simp [harmed])
        (by simpa using h.timeLeft harmed) ?_
      have hlt : 2 < s.n := by omega
      rcases hop with hop | hop <;> simp [PhaseInv, hbudget, hlt, hn, hop]
  · refine Running.inv_armed (hrun.step (h.static.discard 1) (by simp)) (by simp [hst])
      (by simp [htxv]) (by simp [harmed])
      (by simpa using h.timeLeft harmed) ?_
    simpa [PhaseInv, hst, hbudget, hidx, hmin, hn] using hop

theorem Inv.stepCollect (h : Inv s) (hst : s.st = .collect) (hstep : stepCollect s = .next t) : Inv t := by
  have hrun := h.toRunning (by simp [hst])
  have htxv := h.no_offer (by simp [hst])
  have harmed : s.armed = true := h.armedIff.mpr (.inr hst)
  obtain ⟨hbudget, hidx, hn, hflen, hop⟩ := h.phase_collect hst
  obtain ⟨-, rfl⟩ | ⟨-, -, rfl⟩ | ⟨hexp, -, hlt, rfl⟩ := stepCollect_cases hstep
  · exact h.static.fail _ htxv hrun.recd
  · exact h
  · simp only [bufLen] at hlt hn
    have hstatic := (h.static.popInto (base := s.idx) (k := 1) (by omega)).withFlen (k := s.idx + 1) (by omega)
    unfold collectByte
    split
    · next hlast =>
      refine Running.inv_unarmed (hrun.step (hstatic.of_view (by simp)) (by simp))
        (by simp) (by simp [htxv]) (by simp) (by simp) ?_
      simpa [PhaseInv, hbudget, hlast, bufLen, hn] using hop
    · next hmore =>
      refine Running.inv_armed (hrun.step (hstatic.of_view (by simp)) (by simp))
        (by simp [hst]) (by simp [htxv]) (by simp [harmed])
        (by simpa using h.timeLeft harmed) ?_
      have hmore' : s.idx + 1 < s.n := by omega
      simpa [PhaseInv, hst, hbudget, hmore', bufLen, hn] using hop

theorem Inv.stepFinish (h : Inv s) (hst : s.st = .finish) (hstep : stepFinish s = .next t) : Inv t := by
  have hrun := h.toRunning (by simp [hst])
  have htxv := h.no_offer (by simp [hst])
  obtain ⟨-, ht⟩ | ⟨-, ht⟩ | ⟨-, ht⟩ := stepFinish_cases hstep
  all_goals rw [ht]
  · exact h.static.complete htxv (by simp [hrun.recd])
  · have hemptied : StaticInv { s with rxq := [] } := h.static.withFifo (Nat.zero_le _)
    have hdecoded : StaticInv (decodeFields { s with rxq := [] }) := hemptied.of_view (by simp)
    by_cases hgood : frameSumGood s = true
    · rw [finishGetStatus_of_good (s := s) hgood]
      exact hdecoded.complete (by simp [htxv]) (by simp [hrun.recd])
    · rw [finishGetStatus_of_bad (s := s) hgood]
      exact hdecoded.fail _ (by simp [htxv]) (by simp [hrun.recd])
  · unfold finishSendValidate
    split
    · exact h.static.complete htxv (by simp [hrun.recd])
    · split
      · exact h.static.fail _ htxv hrun.recd
      · exact h.static.fail _ htxv hrun.recd

theorem Inv.endNoFrame (h : Inv s) (hst : s.st = .pscan) : Inv (endNoFrame s) := by
  have hrun := h.toRunning (by simp [hst])
  have hlabelled : StaticInv (setCause .noFrame s) := h.static.of_view (by simp)
  exact hlabelled.complete (h.no_offer (by simp [hst])) (by simp [hrun.recd])

theorem Inv.scanFrame (h : Inv s) (hst : s.st = .pscan) : Inv (scanFrame s) := by
  have hrun := h.toRunning (by simp [hst])
  have htxv := h.no_offer (by simp [hst])
  obtain ⟨harmed, hexp⟩ := h.unarmed (by simp [hst])
  obtain ⟨hidx, hn, hbudget, hopc⟩ := h.phase_pscan hst
  have hstatic := (h.static.popInto (base := 0) (k := statusLen) (by decide)).withFlen (k := statusLen) (by decide)
  simp only [Machine.scanFrame]
  split
  · have hdecoded : StaticInv (setRecord (decodeFields (setFlen statusLen (setBudget (s.budget - statusLen)
        (Machine.popInto 0 statusLen s))))) := hstatic.of_view (by simp)
    exact hdecoded.complete (by simp [htxv]) (by simp [hopc])
  · refine Running.inv_unarmed (hrun.step (hstatic.of_view (by simp)) (by simp))
      (by simp [hst]) (by simp [htxv]) (by simp [harmed])
      (by simp [hexp]) ?_
    have hleft : s.budget - statusLen ≤ s.rxq.length - statusLen := Nat.sub_le_sub_right hbudget _
    simpa [PhaseInv, hst, hidx, hn, hopc, avail] using hleft

theorem Inv.stepPscan (h : Inv s) (hst : s.st = .pscan) (hstep : stepPscan s = .next t) : Inv t := by
  have hrun := h.toRunning (by simp [hst])
  have htxv := h.no_offer (by simp [hst])
  obtain ⟨harmed, hexp⟩ := h.unarmed (by simp [hst])
  obtain ⟨hidx, hn, hbudget, hopc⟩ := h.phase_pscan hst
  obtain ⟨-, ht⟩ | ⟨-, _, _, _, -, ⟨-, ht⟩ | ⟨-, -, -, ht⟩ | ⟨-, -, -, -, ht⟩⟩ := stepPscan_cases hstep
  all_goals rw [ht]
  · exact h.endNoFrame hst
  · refine Running.inv_unarmed (hrun.step ((h.static.discard 1).of_view (by simp)) (by simp))
      (by simp [hst]) (by simp [htxv]) (by simp [harmed])
      (by simp [hexp]) ?_
    have hleft : s.budget - 1 ≤ s.rxq.length - 1 := Nat.sub_le_sub_right hbudget _
    simpa [PhaseInv, hst, hidx, hn, hopc, avail] using hleft
  · exact h.endNoFrame hst
  · exact h.scanFrame hst

theorem Inv.fsmStep (h : Inv s) (hstep : fsmStep s = .next t) : Inv t := by
  cases hst : s.st with
  | idle =>
    rw [fsmStep_idle hst] at hstep
    cases hstep
    exact h
  | flush => exact h.stepFlush hst ((fsmStep_flush hst).symm.trans hstep)
  | tx => exact h.stepTx hst ((fsmStep_tx hst).symm.trans hstep)
  | hunt => exact h.stepHunt hst ((fsmStep_hunt hst).symm.trans hstep)
  | collect => exact h.stepCollect hst ((fsmStep_collect hst).symm.trans hstep)
  | finish => exact h.stepFinish hst ((fsmStep_finish hst).symm.trans hstep)
  | pscan => exact h.stepPscan hst ((fsmStep_pscan hst).symm.trans hstep)

end Sys2Proof.Machine
end

section
/-! PROOFS. The invariant under the agents other than the FSM, and the two statements about every step (R94): it keeps
the invariant, and it has a next state. -/

namespace Sys2Proof.Machine

open Sys2Proof.Config

variable {s t : State}

/-! What `Inv` does not read may change freely. -/

/-- Everything the invariant reads. -/
def invView (s : State) :=
  (s.params, s.buf, s.rxq, s.busy, s.st, s.opReg, s.opc, s.flen, s.done, s.ok, s.recd, s.txv, s.idx, s.txd, s.armed,
    s.exp, s.now, s.t0, s.tmoCur, s.lCmd, s.n, s.budget)

theorem Inv.of_view (h : Inv s) (hv : invView t = invView s) : Inv t := by
  cases s
  cases t
  simp only [invView, Prod.mk.injEq] at hv
  obtain ⟨rfl, rfl, rfl, rfl, rfl, rfl, rfl, rfl, rfl, rfl, rfl, rfl, rfl, rfl, rfl, rfl, rfl, rfl, rfl, rfl, rfl, rfl⟩ :=
    hv
  exact ⟨h.params, h.buf, h.fifo, h.busyIff, h.opcSame, h.opcLegal, h.flen, h.running, h.record, h.offer, h.armedIff,
    h.expArmed, h.timeLeft, h.ackCommand, h.phase⟩

/-! The host's writes (R14, R21). -/

theorem Inv.writeReg (h : Inv s) (r : PortReg) (v : Word) : Inv (writeReg r v s) := by
  cases r with
  | buf i =>
    cases hb : s.busy with
    | true =>
      rw [writeReg_buf_busy i v hb]
      exact h.of_view rfl
    | false =>
      obtain ⟨hst, htxv, harmed, hexp, hposition⟩ := h.idle hb
      rw [writeReg_buf_idle i v hb]
      have hbuf := Memory.wf_write s.buf i.val (v.setWidth 8) h.buf i.isLt
      exact inv_of_idle (h.static.withBuf hbuf) hb hst h.record htxv harmed hexp hposition
  | _ => exact h.of_view rfl

theorem Inv.hostRead (h : Inv s) (a : BitVec 8) (width : Nat) : Inv (hostRead a width s) := by
  unfold Machine.hostRead
  split <;> exact h.of_view rfl

/-! An accepted operation (R48). -/

/-- The state an operation starts from: accepted, and idle still. -/
structure Accepted (o : BitVec 4) (s : State) : Prop extends StaticInv s where
  opc : s.opc = o
  busy : s.busy = false
  st : s.st = .idle
  done : s.done = false
  ok : s.ok = false
  recd : s.recd = false
  txv : s.txv = false
  armed : s.armed = false
  exp : s.exp = false
  idx : s.idx = 0
  n : s.n = 0
  budget : s.budget = 0

theorem Inv.accepted (h : Inv s) (hb : s.busy = false) {o : BitVec 4} (ho : o.toNat ≤ 12) :
    Accepted o (accept o s) := by
  obtain ⟨hst, htxv, harmed, hexp, hidx, hn, hbudget⟩ := h.idle hb
  exact ⟨h.static.accept ho, rfl, hb, hst, rfl, rfl, rfl, htxv, harmed, hexp, hidx, hn, hbudget⟩

/-- An update that leaves what `Accepted` reads beside the static part. -/
theorem Accepted.step {o : BitVec 4} (h : Accepted o s) (hs : StaticInv t)
    (hkept : (t.opc, t.busy, t.st, t.done, t.ok, t.recd, t.txv, t.armed, t.exp, t.idx, t.n, t.budget) =
      (s.opc, s.busy, s.st, s.done, s.ok, s.recd, s.txv, s.armed, s.exp, s.idx, s.n, s.budget)) : Accepted o t := by
  simp only [Prod.mk.injEq] at hkept
  obtain ⟨hopc, hbusy, hst, hdone, hok, hrecd, htxv, harmed, hexp, hidx, hn, hbudget⟩ := hkept
  exact ⟨hs, hopc.trans h.opc, hbusy.trans h.busy, hst.trans h.st, hdone.trans h.done, hok.trans h.ok,
    hrecd.trans h.recd, htxv.trans h.txv, harmed.trans h.armed, hexp.trans h.exp, hidx.trans h.idx, hn.trans h.n,
    hbudget.trans h.budget⟩

theorem Accepted.encodeFrame {o : BitVec 4} (h : Accepted o s) (c : Byte) (d : Word) (v : Byte) :
    Accepted o (encodeFrame c d v s) :=
  h.step (h.toStaticInv.encodeFrame c d v) (by simp)

theorem Accepted.setFlen {o : BitVec 4} (h : Accepted o s) {k : Nat} (hk : k ≤ 27) : Accepted o (setFlen k s) :=
  h.step (h.toStaticInv.withFlen hk) rfl

theorem Accepted.codecDone {o : BitVec 4} (h : Accepted o s) (r : Bool) (c : Cause) : Inv (codecDone r c s) :=
  inv_of_idle (h.toStaticInv.of_view rfl) h.busy h.st (by simp [h.recd]) h.txv h.armed h.exp ⟨h.idx, h.n, h.budget⟩

theorem Accepted.complete {o : BitVec 4} (h : Accepted o s) (r : Bool) : Inv (complete r s) :=
  h.toStaticInv.complete h.txv (by simp [h.recd])

theorem Accepted.fail {o : BitVec 4} (h : Accepted o s) (c : Cause) : Inv (fail c s) :=
  h.toStaticInv.fail c h.txv h.recd

theorem Accepted.running {o : BitVec 4} (h : Accepted o s) (hack : o = opcSendValidate → isAckCommandCode s.lCmd = true)
    (p : Phase) : Running (enterPhase p s) :=
  ⟨h.toStaticInv.of_view rfl, rfl, h.done, h.ok, h.recd, fun ho => hack (h.opc.symm.trans ho)⟩

/-! The operations, code by code. -/

theorem Accepted.runEncode {o : BitVec 4} (h : Accepted o s) : Inv (runEncode s) := by
  unfold Machine.runEncode
  split
  · exact (h.encodeFrame _ _ _).codecDone true _
  · exact h.codecDone false _

theorem Accepted.runChecksum {o : BitVec 4} (h : Accepted o s) : Inv (runChecksum s) := by
  have hsummed : Accepted o (setCsum (bufSum s (lenOperand s)) s) := h.step (h.toStaticInv.of_view rfl) rfl
  unfold Machine.runChecksum
  split
  · exact h.codecDone false _
  · exact hsummed.codecDone true _

theorem Accepted.runValidate {o : BitVec 4} (h : Accepted o s) : Inv (runValidate s) := by
  unfold Machine.runValidate
  split
  · exact h.codecDone false _
  · split
    · exact h.codecDone true _
    · exact h.codecDone false _

theorem Accepted.runDecodeStatus {o : BitVec 4} (h : Accepted o s) : Inv (runDecodeStatus s) := by
  have hdecoded : Accepted o (decodeFields s) := h.step (h.toStaticInv.of_view rfl) rfl
  simp only [Machine.runDecodeStatus]
  split
  · exact hdecoded.codecDone true _
  · exact hdecoded.codecDone false _

theorem Accepted.runValidateAck {o : BitVec 4} (h : Accepted o s) : Inv (runValidateAck s) := by
  unfold Machine.runValidateAck
  split
  · exact h.codecDone false _
  · split
    · exact h.codecDone false _
    · exact h.codecDone true _

theorem Accepted.startSend (h : Accepted opcSend s) : Inv (startSend s) := by
  unfold Machine.startSend
  split
  · exact h.fail _
  · next hfits =>
    split
    · exact h.complete true
    · next hpos =>
      have hrun := h.running (fun ho => absurd ho (by decide)) .tx
      have hlen : 1 ≤ lenOperand s ∧ lenOperand s ≤ bufLen := by omega
      refine Running.inv_unarmed (hrun.step (h.toStaticInv.of_view rfl) (by simp)) (by simp) (by simp [h.txv])
        (by simp [h.armed]) (by simp [h.exp]) ?_
      simpa [PhaseInv, h.budget, h.opc] using hlen

theorem Accepted.startFlush (h : Accepted opcFlush s) : Inv (startFlush s) := by
  unfold Machine.startFlush
  have hrun := h.running (fun ho => absurd ho (by decide)) .flush
  refine Running.inv_unarmed hrun (by simp) (by simp [h.txv]) (by simp [h.armed]) (by simp [h.exp]) ?_
  simp [PhaseInv, h.idx, h.budget, h.opc, h.n]

theorem Accepted.startRecvFixed (h : Accepted opcRecvFixed s) : Inv (startRecvFixed s) := by
  unfold Machine.startRecvFixed
  split
  · exact h.fail _
  · next hfits =>
    have hcleared := h.setFlen (Nat.zero_le 27)
    split
    · exact hcleared.complete true
    · next hpos =>
      have hrun := hcleared.running (fun ho => absurd ho (by decide)) .collect
      have hlen : 0 < lenOperand s ∧ lenOperand s ≤ bufLen := by omega
      refine Running.inv_armed (hrun.step (hcleared.toStaticInv.of_view (by simp)) (by simp)) (by simp) (by simp [h.txv])
        (by simp) (by simpa using arm_timeLeft s.now s.lTb) ?_
      simpa [PhaseInv, h.budget, h.opc] using hlen

theorem Accepted.startScanRecv (h : Accepted opcScanRecv s) : Inv (startScanRecv s) := by
  unfold Machine.startScanRecv
  split
  · exact h.fail _
  · next hfits =>
    have hcleared := h.setFlen (Nat.zero_le 27)
    have hrun := hcleared.running (fun ho => absurd ho (by decide)) .hunt
    have hlen : 2 ≤ lenOperand s ∧ lenOperand s ≤ bufLen := by omega
    refine Running.inv_armed (hrun.step (hcleared.toStaticInv.of_view (by simp)) (by simp)) (by simp) (by simp [h.txv])
      (by simp) (by simpa using arm_timeLeft s.now s.lTw) ?_
    simpa [PhaseInv, h.budget, h.opc] using hlen

theorem Accepted.startGetStatus (h : Accepted opcGetStatus s) : Inv (startGetStatus s) := by
  unfold Machine.startGetStatus
  have hframe := h.encodeFrame cmdStatus s.lDevid statusValue
  have hrun := hframe.running (fun ho => absurd ho (by decide)) .flush
  refine Running.inv_unarmed (hrun.step (hframe.toStaticInv.of_view (by simp)) (by simp)) (by simp) (by simp [h.txv])
    (by simp [h.armed]) (by simp [h.exp]) ?_
  simp [PhaseInv, h.budget, h.opc]

theorem Accepted.startSendValidate (h : Accepted opcSendValidate s) : Inv (startSendValidate s) := by
  unfold Machine.startSendValidate
  split
  · next hack =>
    have hframe := h.encodeFrame s.lCmd s.lDevid s.lValue
    have hrun := hframe.running (fun _ => by simpa using hack) .tx
    refine Running.inv_unarmed (hrun.step (hframe.toStaticInv.of_view (by simp)) (by simp)) (by simp) (by simp [h.txv])
      (by simp [h.armed]) (by simp [h.exp]) ?_
    simp [PhaseInv, h.budget, h.opc, cmdLen, bufLen]
  · exact h.fail _

theorem Accepted.startDrainOne (h : Accepted opcDrainOne s) : Inv (startDrainOne s) := by
  unfold Machine.startDrainOne
  have hrun := h.running (fun ho => absurd ho (by decide)) .pscan
  refine Running.inv_unarmed (hrun.step (h.toStaticInv.of_view (by simp)) (by simp)) (by simp) (by simp [h.txv])
    (by simp [h.armed]) (by simp [h.exp]) ?_
  simp [PhaseInv, h.idx, h.n, h.opc, avail]

/-! Instructions and bytes on the wire. -/

theorem Inv.reject (h : Inv s) : Inv (reject s) := h.of_view rfl

/-- An operation that keeps the invariant from the accepted state keeps it from every state of a run. -/
theorem Inv.issue (h : Inv s) {o : BitVec 4} (ho : o.toNat ≤ 12) {run : State → State}
    (hrun : ∀ u, Accepted o u → Inv (run u)) : Inv (issue o run s) := by
  cases hb : s.busy with
  | true =>
    rw [issue_busy o run s hb]
    exact h.reject
  | false =>
    rw [issue_idle o run s hb]
    exact hrun _ (h.accepted hb ho)

theorem Inv.push (h : Inv s) (b : Byte) : Inv (push b s) := by
  by_cases hroom : s.rxq.length < s.params.rxqDepth
  · rw [push_room b s hroom]
    have hfifo : (s.rxq ++ [b]).length ≤ s.params.rxqDepth := by
      simp only [List.length_append, List.length_singleton]
      omega
    refine ⟨h.params, h.buf, hfifo, h.busyIff, h.opcSame, h.opcLegal, h.flen, h.running, h.record, h.offer, h.armedIff,
      h.expArmed, h.timeLeft, h.ackCommand, ?_⟩
    cases hst : s.st with
    | pscan =>
      obtain ⟨hidx, hn, hbudget, hopc⟩ := h.phase_pscan hst
      have hlonger : s.budget ≤ (s.rxq ++ [b]).length := by
        simp only [avail, List.length_append] at hbudget ⊢
        omega
      simpa [PhaseInv, hst, avail, hidx, hn, hopc] using hlonger
    | _ => simpa only [PhaseInv, hst] using h.phase
  · rw [push_full b s hroom]
    exact h.of_view rfl

theorem Inv.receiveFrame (h : Inv s) (bytes : List Byte) : Inv (receiveFrame bytes s) := by
  unfold Machine.receiveFrame
  induction bytes generalizing s with
  | nil => exact h
  | cons b bytes ih => exact ih (h.push b)

theorem Inv.takeByte (h : Inv s) : Inv (takeByte s) := by
  cases hv : s.txv with
  | true =>
    rw [takeByte_of_offer hv]
    exact ⟨h.params, h.buf, h.fifo, h.busyIff, h.opcSame, h.opcLegal, h.flen, h.running, h.record, by simp, h.armedIff,
      h.expArmed, h.timeLeft, h.ackCommand, h.phase⟩
  | false =>
    rw [takeByte_of_empty hv]
    exact h

theorem Inv.sendBytes (h : Inv s) (k : Nat) (hst : s.st = .tx) (hv : s.txv = false) (hk : s.idx + k ≤ s.n) :
    Inv (sendBytes k s) := by
  induction k generalizing s with
  | zero => exact h
  | succ k ih =>
    obtain ⟨-, -, -, hn, -⟩ := h.phase_tx hst
    have hoffered : Inv (offerByte s) := h.stepTx hst (stepTx_offer hv (by omega) hn)
    exact ih hoffered.takeByte hst rfl (show s.idx + 1 + k ≤ s.n by omega)

theorem Inv.emitFrame (h : Inv s) (bytes : List Byte) : Inv (emitFrame bytes s) := by
  by_cases hoffers : Offers bytes s
  · rw [emitFrame_of_offers hoffers]
    obtain ⟨hst, hv, hidx, hn, -⟩ := hoffers
    exact h.sendBytes _ hst hv (by omega)
  · rw [emitFrame_of_not_offers hoffers]
    exact h

theorem Inv.exec (h : Inv s) (i : Instr) (hexec : exec i s = .next t) : Inv t := by
  have hreserved : Inv (issueReserved s) := issueReserved_eq s ▸ h.reject
  cases i <;> (injection hexec with ht; rw [← ht])
  case nop => exact h.issue (by decide) fun u hu => hu.codecDone true u.cause
  case encode => exact h.issue (by decide) fun _ hu => hu.runEncode
  case checksum => exact h.issue (by decide) fun _ hu => hu.runChecksum
  case validate => exact h.issue (by decide) fun _ hu => hu.runValidate
  case decodeStatus => exact h.issue (by decide) fun _ hu => hu.runDecodeStatus
  case validateAck => exact h.issue (by decide) fun _ hu => hu.runValidateAck
  case send => exact h.issue (by decide) fun _ hu => hu.startSend
  case flush => exact h.issue (by decide) fun _ hu => hu.startFlush
  case recvFixed => exact h.issue (by decide) fun _ hu => hu.startRecvFixed
  case scanRecv => exact h.issue (by decide) fun _ hu => hu.startScanRecv
  case getStatus => exact h.issue (by decide) fun _ hu => hu.startGetStatus
  case sendValidate => exact h.issue (by decide) fun _ hu => hu.startSendValidate
  case drainOne => exact h.issue (by decide) fun _ hu => hu.startDrainOne
  case reservedD | reservedE | reservedF => exact hreserved
  case frameCmdStatus | frameCmdControl | frameCmdPowerGrade => exact h.emitFrame _
  case frameStatusReply | frameAckControl | frameAckPowerGrade => exact h.receiveFrame _

/-! Every agent (R11). -/

theorem Inv.tick (h : Inv s) : Inv (tick s) := by
  refine ⟨h.params, h.buf, h.fifo, h.busyIff, h.opcSame, h.opcLegal, h.flen, h.running, h.record, h.offer, h.armedIff,
    fun hx => ?_, fun ha hx => ?_, h.ackCommand, h.phase⟩
  · simp only [tick_exp, Bool.or_eq_true, Bool.and_eq_true] at hx
    obtain hx | ⟨ha, -⟩ := hx
    · exact h.expArmed hx
    · exact ha
  · rw [tick_armed] at ha
    simp only [tick_exp, ha, Bool.true_and, Bool.or_eq_false_iff, decide_eq_false_iff_not] at hx
    exact BitVec.not_le.mp hx.2

theorem Inv.resetBlock (h : Inv s) : Inv (resetBlock s) := (inv_resetWith h.params).of_view rfl

theorem Inv.hostWrite (h : Inv s) {a : BitVec 8} {width : Nat} {v : Word} (hstep : hostWrite a width v s = .next t) :
    Inv t := by
  have hanswered (d : Word) (e : Bool) : Inv (respond d e s) := h.of_view rfl
  unfold Machine.hostWrite at hstep
  split at hstep
  · cases hstep
    exact hanswered _ _
  · exact (hanswered _ _).exec _ hstep
  · cases hstep
    exact (hanswered _ _).writeReg _ _

theorem Inv.wireStep (h : Inv s) {d : Direction} {bytes : List Byte} (hstep : wireStep d bytes s = .next t) : Inv t := by
  cases d with
  | tx =>
    rw [wireStep_tx] at hstep
    cases hstep
    exact h.emitFrame bytes
  | rx =>
    rw [wireStep_rx] at hstep
    cases hstep
    exact h.receiveFrame bytes

theorem Inv.act (h : Inv s) {e : Event} (hstep : act e s = .next t) : Inv t := by
  cases e with
  | host a =>
    cases a with
    | read a width =>
      cases hstep
      exact h.hostRead a width
    | write a width v => exact h.hostWrite hstep
  | rxByte b =>
    cases hstep
    exact h.push b
  | txTake =>
    cases hstep
    exact h.takeByte
  | msTick =>
    cases hstep
    exact h.tick
  | fsm => exact h.fsmStep hstep
  | rst =>
    cases hstep
    exact h.resetBlock
  | wire d bytes => exact h.wireStep hstep

/-- A step is the step of an agent, from a state that differs only in the script and its counter. -/
theorem step_eq_act (s : State) : ∃ e rest k, step s = act e { s with script := rest, turn := k } := by
  cases hs : s.script with
  | nil => exact ⟨_, [], s.turn + 1, by rw [step_nil hs, ← hs]⟩
  | cons e rest => exact ⟨e, rest, s.turn, step_cons hs⟩

/-- Settles O55, agent by agent. -/
theorem invKeptByStep : Obligations.InvKeptByStep := by
  intro s t h hstep
  obtain ⟨e, rest, k, hact⟩ := step_eq_act s
  have h' : Inv { s with script := rest, turn := k } := h.of_view rfl
  exact h'.act (hact ▸ hstep)

/-! No run reaches a fault (log 9, log 10, log 11). -/

theorem Inv.stepTx_next (h : Inv s) (hst : s.st = .tx) : ∃ t, Machine.stepTx s = .next t := by
  obtain ⟨-, hidx, -, hn, hop⟩ := h.phase_tx hst
  cases hv : s.txv with
  | true => exact ⟨s, stepTx_hold hv⟩
  | false =>
    obtain hlt | hge := Nat.lt_or_ge s.idx s.n
    · exact ⟨_, stepTx_offer hv hlt hn⟩
    · rw [stepTx_end hv hge]
      obtain ho | ho | ho := hop
      · exact ⟨_, endTx_send ho⟩
      · exact ⟨_, endTx_getStatus ho⟩
      · exact ⟨_, endTx_sendValidate ho⟩

theorem headerPattern_isSome (h : s.opc = opcScanRecv ∨ s.opc = opcSendValidate) : ∃ p, headerPattern s = some p := by
  obtain ho | ho := h
  · exact ⟨_, if_pos ho⟩
  · exact ⟨(magic, s.lCmd), by simp +decide [headerPattern, ho]⟩

theorem Inv.stepHunt_next (h : Inv s) (hst : s.st = .hunt) : ∃ t, Machine.stepHunt s = .next t := by
  obtain ⟨-, -, -, -, hop⟩ := h.phase_hunt hst
  obtain ⟨⟨p0, p1⟩, hp⟩ := headerPattern_isSome hop
  simp only [Machine.stepHunt, hp]
  split
  · exact ⟨_, rfl⟩
  · split
    · split <;> exact ⟨_, rfl⟩
    · exact ⟨_, rfl⟩

theorem Inv.stepCollect_next (h : Inv s) (hst : s.st = .collect) : ∃ t, Machine.stepCollect s = .next t := by
  obtain ⟨-, hidx, hn, -, -⟩ := h.phase_collect hst
  have hlt : s.idx < bufLen := Nat.lt_of_lt_of_le hidx hn
  simp only [Machine.stepCollect, hlt, if_true]
  split
  · exact ⟨_, rfl⟩
  · split <;> exact ⟨_, rfl⟩

theorem Inv.stepFinish_next (h : Inv s) (hst : s.st = .finish) : ∃ t, Machine.stepFinish s = .next t := by
  obtain ⟨-, -, -, -, hop⟩ := h.phase_finish hst
  obtain ho | ho | ho | ho := hop
  · exact ⟨_, stepFinish_of_recv (.inl ho)⟩
  · exact ⟨_, stepFinish_of_recv (.inr ho)⟩
  · exact ⟨_, stepFinish_of_getStatus ho⟩
  · exact ⟨_, stepFinish_of_sendValidate ho⟩

theorem Inv.stepPscan_next (h : Inv s) (hst : s.st = .pscan) : ∃ t, Machine.stepPscan s = .next t := by
  obtain ⟨-, -, hbudget, -⟩ := h.phase_pscan hst
  unfold Machine.stepPscan
  split
  · exact ⟨_, rfl⟩
  · next hmin =>
    split
    · split
      · exact ⟨_, rfl⟩
      · split
        · exact ⟨_, rfl⟩
        · rw [if_neg (by omega)]
          exact ⟨_, rfl⟩
    · next hshort =>
      match hq : s.rxq with
      | b0 :: b1 :: r => exact absurd hq (hshort b0 b1 r)
      | [] | [_] => simp [avail, hq] at hbudget; omega

theorem stepFlush_next (s : State) : ∃ t, stepFlush s = .next t := by
  unfold stepFlush
  split <;> exact ⟨_, rfl⟩

theorem Inv.fsmStep_next (h : Inv s) : ∃ t, Machine.fsmStep s = .next t := by
  cases hst : s.st with
  | idle => exact ⟨s, fsmStep_idle hst⟩
  | flush => exact fsmStep_flush hst ▸ stepFlush_next s
  | tx => exact fsmStep_tx hst ▸ h.stepTx_next hst
  | hunt => exact fsmStep_hunt hst ▸ h.stepHunt_next hst
  | collect => exact fsmStep_collect hst ▸ h.stepCollect_next hst
  | finish => exact fsmStep_finish hst ▸ h.stepFinish_next hst
  | pscan => exact fsmStep_pscan hst ▸ h.stepPscan_next hst

theorem Inv.act_next (h : Inv s) (e : Event) : ∃ t, Machine.act e s = .next t := by
  cases e with
  | host a =>
    cases a with
    | read a width => exact ⟨_, rfl⟩
    | write a width v =>
      simp only [Machine.act, hostStep, Machine.hostWrite]
      split
      · exact ⟨_, rfl⟩
      · exact exec_next _ _
      · exact ⟨_, rfl⟩
  | fsm => exact h.fsmStep_next
  | wire d bytes =>
    cases d with
    | tx => exact ⟨_, wireStep_tx bytes s⟩
    | rx => exact ⟨_, wireStep_rx bytes s⟩
  | rxByte | txTake | msTick | rst => exact ⟨_, rfl⟩

/-- Settles O56: only an FSM step could fault, and in no phase does the invariant leave it a way to. -/
theorem stepAlwaysAnswersNext : Obligations.StepAlwaysAnswersNext := by
  intro s h
  obtain ⟨e, rest, k, hact⟩ := step_eq_act s
  have h' : Inv { s with script := rest, turn := k } := h.of_view rfl
  rw [hact]
  exact h'.act_next e

end Sys2Proof.Machine
end

section
/-! PROOFS. What each agent leaves as it is (R17, R28, R41, R120), and the HUNT, COLLECT and PSCAN phases (R79, R80,
R82). -/

namespace Sys2Proof.Machine

open Sys2Proof.Config

variable {s t : State}

/-! The sticky flags. -/

/-- REJ and RX_OVF are set in `t` where they are in `s`. -/
def KeepsSticky (s t : State) : Prop := (s.rej = true → t.rej = true) ∧ (s.rxOvf = true → t.rxOvf = true)

theorem keepsSticky_of_eq (h : (t.rej, t.rxOvf) = (s.rej, s.rxOvf)) : KeepsSticky s t := by
  simp only [Prod.mk.injEq] at h
  exact ⟨h.1.trans, h.2.trans⟩

/-- The FSM reads neither flag and keeps a difference in them, so it writes neither. -/
theorem sticky_fsmBlind (rej ovf : Bool) :
    FsmBlind fun a b => b = { a with rej := rej, rxOvf := ovf } := by
  constructor <;> (intros; subst_vars; rfl)

theorem fsmStep_keepsSticky (h : fsmStep s = .next t) : KeepsSticky s t := by
  have hsame := ((sticky_fsmBlind s.rej s.rxOvf).fsmStep (a := s) rfl).eq_mapNext
  simp only [h, mapNext, Host.Outcome.next.injEq] at hsame
  exact keepsSticky_of_eq (congrArg (fun u => (u.rej, u.rxOvf)) hsame)

/-- The function writes neither flag. -/
def LeavesSticky (f : State → State) : Prop := ∀ s, ((f s).rej, (f s).rxOvf) = (s.rej, s.rxOvf)

theorem operationAction_leavesSticky (o : BitVec 4) : LeavesSticky (operationAction o) := by
  intro s
  suffices h : ∀ f, f = operationAction o → ((f s).rej, (f s).rxOvf) = (s.rej, s.rxOvf) from h _ rfl
  rintro f hf
  unfold operationAction at hf
  split at hf <;> rw [hf]
  case h_1 | h_8 | h_13 | h_14 => rfl
  case h_11 => simp [startGetStatus]
  case h_2 =>
    unfold runEncode
    split <;> simp
  case h_3 =>
    unfold runChecksum
    split <;> simp
  case h_10 =>
    unfold startScanRecv
    split <;> simp
  case h_12 =>
    unfold startSendValidate
    split <;> simp
  case h_5 =>
    simp only [runDecodeStatus]
    split <;> simp
  case h_4 =>
    unfold runValidate
    split
    · simp
    · split <;> simp
  case h_6 =>
    unfold runValidateAck
    split
    · simp
    · split <;> simp
  case h_7 =>
    unfold startSend
    split
    · simp
    · split <;> simp
  case h_9 =>
    unfold startRecvFixed
    split
    · simp
    · split <;> simp

theorem reject_keepsSticky (s : State) : KeepsSticky s (reject s) := ⟨fun _ => rfl, id⟩

theorem issue_keepsSticky (o : BitVec 4) (s : State) : KeepsSticky s (issue o (operationAction o) s) := by
  cases hb : s.busy with
  | true =>
    rw [issue_busy _ _ s hb]
    exact reject_keepsSticky s
  | false =>
    rw [issue_idle _ _ s hb]
    exact keepsSticky_of_eq ((operationAction_leavesSticky o (accept o s)).trans (by simp))

theorem receiveFrame_keepsSticky (bytes : List Byte) (s : State) : KeepsSticky s (receiveFrame bytes s) := by
  rw [receiveFrame, pushAll_eq]
  exact ⟨id, fun h => by simp [h]⟩

theorem sendBytes_sticky (k : Nat) (s : State) : ((sendBytes k s).rej, (sendBytes k s).rxOvf) = (s.rej, s.rxOvf) := by
  cases k with
  | zero => rfl
  | succ k => rw [sendBytes_succ_eq]

theorem emitFrame_keepsSticky (bytes : List Byte) (s : State) : KeepsSticky s (emitFrame bytes s) := by
  unfold emitFrame
  split
  · exact keepsSticky_of_eq (sendBytes_sticky _ s)
  · exact keepsSticky_of_eq rfl

theorem exec_keepsSticky {i : Instr} (h : exec i s = .next t) : KeepsSticky s t := by
  have hreserved : KeepsSticky s (issueReserved s) := issueReserved_eq s ▸ reject_keepsSticky s
  cases i <;> (injection h with ht; rw [← ht])
  case frameCmdStatus | frameCmdControl | frameCmdPowerGrade => exact emitFrame_keepsSticky _ s
  case frameStatusReply | frameAckControl | frameAckPowerGrade => exact receiveFrame_keepsSticky _ s
  case reservedD | reservedE | reservedF => exact hreserved
  all_goals exact issue_keepsSticky _ s

theorem wireStep_keepsSticky {d : Direction} {bytes : List Byte} (h : wireStep d bytes s = .next t) :
    KeepsSticky s t := by
  cases d with
  | tx =>
    rw [wireStep_tx] at h
    cases h
    exact emitFrame_keepsSticky bytes s
  | rx =>
    rw [wireStep_rx] at h
    cases h
    exact receiveFrame_keepsSticky bytes s

/-- A register write keeps both flags but for the write to STAT. -/
theorem writeReg_keepsSticky {r : PortReg} (h : r ≠ .stat) (v : Word) (s : State) : KeepsSticky s (writeReg r v s) := by
  cases r with
  | stat => exact absurd rfl h
  | buf i =>
    cases hb : s.busy with
    | true =>
      rw [writeReg_buf_busy i v hb]
      exact reject_keepsSticky s
    | false =>
      rw [writeReg_buf_idle i v hb]
      exact keepsSticky_of_eq rfl
  | _ => exact keepsSticky_of_eq rfl

theorem portAccess_some {a : BitVec 8} {width : Nat} {r : PortReg} (h : portAccess a width = some r) :
    width = 4 ∧ a = portOffset r := by
  unfold portAccess at h
  split at h
  · next hw => exact ⟨hw, (portReg_some h).symm⟩
  · cases h

theorem hostWrite_sticky {a : BitVec 8} {width : Nat} {v : Word} (h : hostWrite a width v s = .next t) :
    KeepsSticky s t ∨ (a = 0x04#8 ∧ width = 4 ∧ t = clearSticky v (answered s)) := by
  unfold hostWrite at h
  split at h
  · cases h
    exact .inl (keepsSticky_of_eq rfl)
  · obtain ⟨hrej, hovf⟩ := exec_keepsSticky h
    exact .inl ⟨hrej, hovf⟩
  · next r hop hr =>
    cases h
    by_cases hstat : r = .stat
    · subst hstat
      obtain ⟨hw, ha⟩ := portAccess_some hr
      exact .inr ⟨ha, hw, rfl⟩
    · obtain ⟨hrej, hovf⟩ := writeReg_keepsSticky hstat v (respond 0#32 false s)
      exact .inl ⟨hrej, hovf⟩

/-- Every event keeps both flags but for RESET and a write to STAT. -/
theorem act_sticky {e : Event} (h : act e s = .next t) :
    KeepsSticky s t ∨ e = .rst ∨ ∃ v, e = .host (.write 0x04#8 4 v) ∧ t = clearSticky v (answered s) := by
  cases e with
  | rst => exact .inr (.inl rfl)
  | host a =>
    cases a with
    | read a width =>
      cases h
      unfold hostRead
      split <;> exact .inl (keepsSticky_of_eq rfl)
    | write a width v =>
      obtain hkeeps | ⟨rfl, rfl, ht⟩ := hostWrite_sticky h
      · exact .inl hkeeps
      · exact .inr (.inr ⟨v, rfl, ht⟩)
  | rxByte b =>
    cases h
    exact .inl (receiveFrame_keepsSticky [b] s)
  | txTake =>
    cases h
    exact .inl (keepsSticky_of_eq (by simp))
  | msTick =>
    cases h
    exact .inl (keepsSticky_of_eq rfl)
  | fsm => exact .inl (fsmStep_keepsSticky h)
  | wire d bytes => exact .inl (wireStep_keepsSticky h)

/-- Settles O9: only RESET and the write to STAT can clear a flag, and the write only where its bit is 1. -/
theorem stickyFlagsStay : Obligations.StickyFlagsStay := by
  intro e s t h
  obtain ⟨hrej, hovf⟩ | rfl | ⟨v, rfl, rfl⟩ := act_sticky h
  · exact ⟨fun hs ht => by simp [hrej hs] at ht, fun hs ht => by simp [hovf hs] at ht⟩
  · exact ⟨fun _ _ => .inl rfl, fun _ _ => .inl rfl⟩
  · refine ⟨fun hs ht => .inr ⟨v, rfl, ?_⟩, fun hs ht => .inr ⟨v, rfl, ?_⟩⟩
    · have hset : (answered s).rej = true := hs
      simpa [hset] using ht
    · have hset : (answered s).rxOvf = true := hs
      simpa [hset] using ht

/-! The results of an idle block (R41). -/

/-- BUF, FLEN, CSUM, the outcome and the result registers. -/
def resultView (s : State) :=
  (s.buf, s.flen, s.csum, s.ok, s.done, s.rDevid, s.rPower, s.rDcv, s.rDci, s.rAcv, s.rAci, s.rState, s.rTemp, s.rValid)

theorem resultView_receiveFrame (bytes : List Byte) (s : State) : resultView (receiveFrame bytes s) = resultView s := by
  rw [receiveFrame, pushAll_eq]
  rfl

theorem emitFrame_idle (bytes : List Byte) (hst : s.st = .idle) : emitFrame bytes s = s :=
  emitFrame_of_not_offers fun h => by simpa [hst] using h.1

theorem resultView_wireStep {d : Direction} {bytes : List Byte} (hst : s.st = .idle)
    (h : wireStep d bytes s = .next t) : resultView t = resultView s := by
  cases d with
  | tx =>
    rw [wireStep_tx, emitFrame_idle bytes hst] at h
    cases h
    rfl
  | rx =>
    rw [wireStep_rx] at h
    cases h
    exact resultView_receiveFrame bytes s

theorem resultView_takeByte (s : State) : resultView (takeByte s) = resultView s := by
  simp [resultView]

/-- Settles O45, agent by agent. -/
theorem idleResultsStay : Obligations.IdleResultsStay := by
  intro e s t hst h hrst hhost
  have hview : resultView t = resultView s := by
    cases e with
    | host a => exact absurd rfl (hhost a)
    | rst => exact absurd rfl hrst
    | rxByte b =>
      cases h
      exact resultView_receiveFrame [b] s
    | txTake =>
      cases h
      exact resultView_takeByte s
    | msTick =>
      cases h
      rfl
    | fsm =>
      rw [act, fsmStep_idle hst] at h
      cases h
      rfl
    | wire d bytes => exact resultView_wireStep hst h
  simpa only [resultView, Prod.mk.injEq] using hview

/-! The HUNT phase (R79). -/

theorem headerPattern_scanRecv (h : s.opc = opcScanRecv) : headerPattern s = some (s.lP0, s.lP1) := if_pos h

theorem headerPattern_sendValidate (h : s.opc = opcSendValidate) : headerPattern s = some (0x43#8, s.lCmd) := by
  simp +decide [headerPattern, h, magic]

theorem huntMatch_of_two (h : s.n = 2) :
    huntMatch s =
      { s with buf := Memory.writeBytes s.buf 0 (s.rxq.take 2), rxq := s.rxq.drop 2, idx := 2, flen := 2,
               armed := false, exp := false, st := .finish } := by
  simp [huntMatch, h, setPhase, disarm, setFlen, setIdx, popInto]

theorem huntMatch_of_more (h : s.n ≠ 2) :
    huntMatch s =
      { s with buf := Memory.writeBytes s.buf 0 (s.rxq.take 2), rxq := s.rxq.drop 2, idx := 2, flen := 2,
               st := .collect } := by
  simp [huntMatch, h, setPhase, setFlen, setIdx, popInto]

theorem stepHunt_match {p0 p1 : Byte} {r : List Byte} (hx : s.exp = false) (hp : headerPattern s = some (p0, p1))
    (hq : s.rxq = p0 :: p1 :: r) : stepHunt s = .next (huntMatch s) := by
  simp [stepHunt, hx, hq, hp]

theorem stepHunt_drop {p0 p1 b0 b1 : Byte} {r : List Byte} (hx : s.exp = false) (hp : headerPattern s = some (p0, p1))
    (hq : s.rxq = b0 :: b1 :: r) (hne : ¬(b0 = p0 ∧ b1 = p1)) :
    stepHunt s = .next { s with rxq := b1 :: r } := by
  simp [stepHunt, hx, hq, hp, hne, discard]

theorem stepHunt_hold (hx : s.exp = false) (hq : s.rxq.length < 2) : stepHunt s = .next s := by
  match hr : s.rxq with
  | [] | [_] => simp [stepHunt, hx, hr]
  | _ :: _ :: _ => simp [hr] at hq

theorem writeBytes_written (s : State) (base : Nat) (bytes : List Byte) :
    BufWritten s (Memory.writeBytes s.buf base bytes) base bytes :=
  Memory.read_writeBytes s.buf base bytes

/-- Settles O31: the header, then the head of the FIFO against it. -/
theorem huntPhase : Obligations.HuntPhase := by
  refine ⟨fun s => headerPattern_scanRecv, fun s => headerPattern_sendValidate, fun s p0 p1 hst hx hp => ?_⟩
  rw [fsmStep_hunt hst]
  refine ⟨fun r hq => ⟨_, writeBytes_written s 0 [p0, p1], fun hn => ?_, fun hn => ?_⟩,
    fun b0 b1 r hq hne => stepHunt_drop hx hp hq hne, fun hq => ⟨?_, stepHunt_hold hx hq⟩⟩
  · rw [stepHunt_match hx hp hq, huntMatch_of_two hn, hq]
    rfl
  · rw [stepHunt_match hx hp hq, huntMatch_of_more hn, hq]
    rfl
  · simp only [fsmEnabled, hst, hx, Bool.false_or, decide_eq_false_iff_not]
    exact Nat.not_le.mpr hq

/-! The COLLECT phase (R80). -/

theorem collectByte_of_last (h : s.idx + 1 = s.n) :
    collectByte s =
      { s with buf := Memory.writeBytes s.buf s.idx (s.rxq.take 1), rxq := s.rxq.drop 1, idx := s.idx + 1,
               flen := s.idx + 1, armed := false, exp := false, st := .finish } := by
  simp [collectByte, h, setPhase, disarm, setFlen, setIdx, popInto]

theorem collectByte_of_more (h : s.idx + 1 ≠ s.n) :
    collectByte s =
      { s with buf := Memory.writeBytes s.buf s.idx (s.rxq.take 1), rxq := s.rxq.drop 1, idx := s.idx + 1,
               flen := s.idx + 1 } := by
  simp [collectByte, h, setFlen, setIdx, popInto]

theorem stepCollect_byte {b : Byte} {r : List Byte} (hx : s.exp = false) (hq : s.rxq = b :: r) (hi : s.idx < 27) :
    stepCollect s = .next (collectByte s) := by
  simp [stepCollect, hx, avail, hq, bufLen, hi]

theorem stepCollect_hold (hx : s.exp = false) (hq : s.rxq = []) : stepCollect s = .next s := by
  simp [stepCollect, hx, avail, hq]

/-- Settles O32, by the deadline and then by whether a byte waits. -/
theorem collectPhase : Obligations.CollectPhase := by
  intro s hinv hst
  obtain ⟨-, hidx, hn, hflen, -⟩ := hinv.phase_collect hst
  rw [fsmStep_collect hst]
  refine ⟨fun hx hi => ?_, fun hx hi => ?_, fun hx t h => ?_, fun hx b r hq => ?_, fun hx hq => ⟨?_, stepCollect_hold hx hq⟩⟩
  · rw [stepCollect_expired hx, if_pos hi]
  · rw [stepCollect_expired hx, if_neg hi]
  · rw [stepCollect_expired hx] at h
    cases h
    simp [hflen]
  · rw [stepCollect_byte hx hq (Nat.lt_of_lt_of_le hidx hn)]
    refine ⟨_, writeBytes_written s s.idx [b], fun hlast => ?_, fun hmore => ?_⟩
    · rw [collectByte_of_last hlast, hq]
      rfl
    · rw [collectByte_of_more hmore, hq]
      rfl
  · simp [fsmEnabled, hst, hx, avail, hq]

/-! The PSCAN phase (R82). -/

theorem stepPscan_end (h : s.budget < 2) : stepPscan s = .next (endNoFrame s) := if_pos h

theorem stepPscan_drop {b0 b1 : Byte} {r : List Byte} (hb : 2 ≤ s.budget) (hq : s.rxq = b0 :: b1 :: r)
    (hne : ¬(b0 = magic ∧ b1 = cmdStatus)) :
    stepPscan s = .next { s with rxq := b1 :: r, budget := s.budget - 1 } := by
  rw [stepPscan, if_neg (by omega), hq]
  simp only [if_pos hne]
  simp [discard, setBudget, hq]

theorem stepPscan_short {b0 b1 : Byte} {r : List Byte} (hb : 2 ≤ s.budget) (hq : s.rxq = b0 :: b1 :: r)
    (hhead : b0 = magic ∧ b1 = cmdStatus) (hshort : s.budget < 27) : stepPscan s = .next (endNoFrame s) := by
  rw [stepPscan, if_neg (by omega), hq]
  simp [hhead, statusLen, hshort]

theorem stepPscan_frame {b0 b1 : Byte} {r : List Byte} (hb : 27 ≤ s.budget) (hq : s.rxq = b0 :: b1 :: r)
    (hhead : b0 = magic ∧ b1 = cmdStatus) (havail : 27 ≤ s.rxq.length) : stepPscan s = .next (scanFrame s) := by
  rw [stepPscan, if_neg (by omega), hq]
  simp [hhead, statusLen, avail, Nat.not_lt.mpr hb, Nat.not_lt.mpr havail]

/-- What stands in BUF once the 27 bytes are taken. -/
def scannedBuf (s : State) : Memory := Memory.writeBytes s.buf 0 (s.rxq.take 27)

theorem frameSumGood_scanned (h : 27 ≤ s.rxq.length) (u : State) (hu : u.buf = scannedBuf s) :
    frameSumGood u = true ↔ sum8 (s.rxq.take 14) = s.rxq.getD 14 0#8 := by
  have hlen : (s.rxq.take 27).length = 27 := by simp [h]
  have hwritten : BufWritten s u.buf 0 (s.rxq.take 27) := hu ▸ writeBytes_written s 0 _
  have hsum : (List.range 14).map (bufAt u) = s.rxq.take 14 := by
    have hbytes : (List.range 14).map (bufAt u) = (s.rxq.take 27).take 14 := hwritten.map_range (by omega)
    simpa [List.take_take] using hbytes
  have h14 : bufAt u 14 = s.rxq.getD 14 0#8 := by
    have hread := hwritten.read (i := 14) (by omega)
    simpa [bufAt, List.getD_eq_getElem?_getD, List.getElem?_take] using hread
  rw [frameSumGood_iff, hsum, h14]

theorem scanFrame_of_good (hlen : 27 ≤ s.rxq.length) (h : sum8 (s.rxq.take 14) = s.rxq.getD 14 0#8) :
    scanFrame s =
      complete true { decodeFields { s with buf := scannedBuf s, rxq := s.rxq.drop 27, flen := 27 } with recd := true } := by
  have hgood := (frameSumGood_scanned hlen (setFlen statusLen (setBudget (s.budget - statusLen) (popInto 0 statusLen s)))
    rfl).mpr h
  simp only [scanFrame, if_pos hgood]
  rfl

theorem scanFrame_of_bad (hlen : 27 ≤ s.rxq.length) (h : sum8 (s.rxq.take 14) ≠ s.rxq.getD 14 0#8) :
    scanFrame s = { s with buf := scannedBuf s, rxq := s.rxq.drop 27, flen := 27, budget := s.budget - 27 } := by
  have hbad := (frameSumGood_scanned hlen (setFlen statusLen (setBudget (s.budget - statusLen) (popInto 0 statusLen s)))
    rfl).not.mpr h
  simp only [scanFrame, if_neg hbad]
  rfl

/-- A PSCAN step that does not complete takes something of the budget. -/
theorem stepPscan_progress (h : stepPscan s = .next t) : t.st = .idle ∨ t.budget < s.budget := by
  obtain ⟨-, ht⟩ | ⟨hmin, _, _, _, -, ⟨-, ht⟩ | ⟨-, -, -, ht⟩ | ⟨-, -, hfits, -, ht⟩⟩ := stepPscan_cases h
  all_goals rw [ht]
  · exact .inl rfl
  · refine .inr ?_
    simp only [setBudget_budget]
    omega
  · exact .inl rfl
  · simp only [scanFrame]
    split
    · exact .inl rfl
    · refine .inr ?_
      simp only [statusLen] at hfits
      simp only [setFlen_budget, setBudget_budget, statusLen]
      omega

/-- Settles O34, branch by branch. -/
theorem scanPhase : Obligations.ScanPhase := by
  intro s hinv hst
  obtain ⟨-, -, hbudget, -⟩ := hinv.phase_pscan hst
  rw [fsmStep_pscan hst]
  refine ⟨fun h => stepPscan_end h, fun b0 b1 r hb hq => ⟨fun hne => stepPscan_drop hb hq hne,
    fun h0 h1 hshort => stepPscan_short hb hq ⟨h0, h1⟩ hshort, fun h0 h1 hfits => ?_⟩, hbudget,
    fun t h => stepPscan_progress h⟩
  have hlen : 27 ≤ s.rxq.length := Nat.le_trans hfits hbudget
  rw [stepPscan_frame hfits hq ⟨h0, h1⟩ hlen]
  exact ⟨scannedBuf s, writeBytes_written s 0 _, fun hgood => congrArg _ (scanFrame_of_good hlen hgood),
    fun hbad => congrArg _ (scanFrame_of_bad hlen hbad)⟩

end Sys2Proof.Machine
end

section
/-! PROOFS. Runs of the receive and the send phases, and the statements about whole sends and hunts (R84, R92, R93). -/

namespace Sys2Proof.Machine

open Sys2Proof.Config

variable {s t : State}

/-! Runs of FSM steps. -/

theorem fsmSteps_succ (h : fsmStep s = .next t) (k : Nat) : fsmSteps (k + 1) s = fsmSteps k t :=
  runEvents_cons (e := .fsm) h _

theorem fsmSteps_one (h : fsmStep s = .next t) : fsmSteps 1 s = .next t := fsmSteps_succ h 0

theorem fsmSteps_add {j : Nat} (h : fsmSteps j s = .next t) (k : Nat) : fsmSteps (j + k) s = fsmSteps k t := by
  simp only [fsmSteps, List.replicate_add]
  exact runEvents_append h _

/-! BUF written in two pieces. -/

/-- Bytes written behind bytes that were written. -/
theorem BufWritten.append {u : State} {m m' : Memory} {base : Nat} {a b : List Byte} (ha : BufWritten s m base a)
    (hm : u.buf = m) (hb : BufWritten u m' (base + a.length) b) : BufWritten s m' base (a ++ b) := by
  intro i
  rw [hb i, hm, ha i, List.length_append]
  by_cases hfirst : i < base + a.length
  · rw [if_neg (by omega)]
    by_cases hbase : base ≤ i
    · rw [if_pos ⟨hbase, hfirst⟩, if_pos (by omega), List.getD_append _ _ _ _ (by omega)]
    · rw [if_neg (by omega), if_neg (by omega)]
  · by_cases hsecond : i < base + a.length + b.length
    · rw [if_pos (by omega), if_pos (by omega), List.getD_append_right _ _ _ _ (by omega), Nat.sub_sub]
    · rw [if_neg (by omega), if_neg (by omega), if_neg (by omega)]

/-! COLLECT to its end (R80). -/

/-- With its last bytes queued, COLLECT reads them one a step and goes to FINISH. -/
theorem fsmSteps_collect {b : Byte} {bytes r : List Byte} (hst : s.st = .collect) (hx : s.exp = false)
    (hq : s.rxq = b :: bytes ++ r) (hcount : s.idx + (bytes.length + 1) = s.n) (hn : s.n ≤ 27) :
    ∃ m, BufWritten s m s.idx (b :: bytes) ∧
      fsmSteps (bytes.length + 1) s =
        .next { s with buf := m, rxq := r, idx := s.n, flen := s.n, armed := false, exp := false, st := .finish } := by
  induction bytes generalizing s b with
  | nil =>
    refine ⟨_, writeBytes_written s s.idx [b], ?_⟩
    have hlast : s.idx + 1 = s.n := hcount
    have hstep := (fsmStep_collect hst).trans (stepCollect_byte hx hq (by omega))
    rw [collectByte_of_last hlast, hq, hlast] at hstep
    exact fsmSteps_one hstep
  | cons c bytes ih =>
    simp only [List.length_cons] at hcount
    have hmore : s.idx + 1 ≠ s.n := by omega
    have hstep := (fsmStep_collect hst).trans (stepCollect_byte hx hq (by omega))
    rw [collectByte_of_more hmore, hq] at hstep
    obtain ⟨m, hm, hrun⟩ := ih (b := c)
      (s := { s with buf := Memory.writeBytes s.buf s.idx [b], rxq := c :: bytes ++ r, idx := s.idx + 1,
                     flen := s.idx + 1 }) hst hx rfl (by simp only; omega) hn
    exact ⟨m, (writeBytes_written s s.idx [b]).append rfl hm, (fsmSteps_succ hstep _).trans hrun⟩

/-! HUNT to its header (R79). -/

/-- Bytes that start no header are dropped, one a step. -/
theorem fsmSteps_hunt {p0 p1 : Byte} {g r : List Byte} (hst : s.st = .hunt) (hx : s.exp = false)
    (hp : headerPattern s = some (p0, p1)) (hr : r ≠ []) (hq : s.rxq = g ++ r)
    (hg : ∀ j, j < g.length → ¬(s.rxq.getD j 0#8 = p0 ∧ s.rxq.getD (j + 1) 0#8 = p1)) :
    fsmSteps g.length s = .next { s with rxq := r } := by
  induction g generalizing s with
  | nil => exact congrArg Host.Outcome.next (by rw [← show s.rxq = r from hq])
  | cons b0 g ih =>
    obtain ⟨b1, q, hrest⟩ : ∃ b1 q, g ++ r = b1 :: q := List.exists_cons_of_ne_nil (by simp [hr])
    have hhead : s.rxq = b0 :: b1 :: q := by rw [hq, List.cons_append, hrest]
    have hne : ¬(b0 = p0 ∧ b1 = p1) := by simpa [hhead] using hg 0 (Nat.zero_lt_succ _)
    have hstep := (fsmStep_hunt hst).trans (stepHunt_drop hx hp hhead hne)
    have hnext := ih (s := { s with rxq := b1 :: q }) hst hx hp hrest.symm fun j hj => by
      simpa [hhead] using hg (j + 1) (Nat.succ_lt_succ hj)
    exact (fsmSteps_succ hstep _).trans hnext

/-- With its header at the head of the FIFO and the frame behind it, HUNT and COLLECT read the frame. -/
theorem fsmSteps_frame {p0 p1 : Byte} {body r : List Byte} (hst : s.st = .hunt) (hx : s.exp = false)
    (hp : headerPattern s = some (p0, p1)) (hq : s.rxq = p0 :: p1 :: (body ++ r)) (hcount : body.length + 2 = s.n)
    (hn : s.n ≤ 27) :
    ∃ m, BufWritten s m 0 (p0 :: p1 :: body) ∧
      fsmSteps (1 + body.length) s =
        .next { s with buf := m, rxq := r, idx := s.n, flen := s.n, armed := false, exp := false, st := .finish } := by
  have hwritten := writeBytes_written s 0 [p0, p1]
  have hstep := (fsmStep_hunt hst).trans (stepHunt_match hx hp hq)
  rw [Nat.add_comm]
  cases body with
  | nil =>
    have htwo : s.n = 2 := hcount.symm
    rw [huntMatch_of_two htwo, hq] at hstep
    exact ⟨_, hwritten, (fsmSteps_one hstep).trans (by rw [htwo]; rfl)⟩
  | cons b bytes =>
    simp only [List.length_cons] at hcount
    rw [huntMatch_of_more (by omega), hq] at hstep
    obtain ⟨m, hm, hrun⟩ := fsmSteps_collect (b := b) (bytes := bytes) (r := r)
      (s := { s with buf := Memory.writeBytes s.buf 0 [p0, p1], rxq := b :: bytes ++ r, idx := 2, flen := 2,
                     st := .collect }) rfl hx rfl (by simp only; omega) hn
    exact ⟨m, hwritten.append rfl hm, (fsmSteps_succ hstep _).trans hrun⟩

/-- Settles O36: the stray bytes, then the frame. -/
theorem huntResynchronises : Obligations.HuntResynchronises := by
  intro s p0 p1 g r hst hx _ hp h2 hn hq hg hr
  have hskip := fsmSteps_hunt hst hx hp (by simp) hq hg
  have hbody : (r.take (s.n - 2)).length = s.n - 2 := List.length_take_of_le hr
  obtain ⟨m, hm, hrun⟩ := fsmSteps_frame (s := { s with rxq := p0 :: p1 :: r }) (body := r.take (s.n - 2))
    (r := r.drop (s.n - 2)) hst hx hp (by rw [List.take_append_drop]) (by rw [hbody]; simp only; omega) hn
  refine ⟨m, hm, ?_⟩
  rw [Nat.add_assoc, fsmSteps_add hskip]
  rwa [hbody] at hrun

/-! A whole send (R78, R84). -/

theorem runEvents_singleton (e : Event) (s : State) : runEvents [e] s = act e s := by
  simp only [runEvents]
  split <;> simp [*]

/-- The rounds of a loaded frame, and the step that ends the send. -/
theorem runEvents_send {k : Nat} (hst : s.st = .tx) (hv : s.txv = false) (hidx : s.idx = 0) (hk : s.n = k + 1)
    (hn : s.n ≤ 27) :
    runEvents (sendRounds (k + 1) ++ [.fsm]) s =
      endTx { s with wire := s.wire ++ (List.range (k + 1)).map (bufAt s), txd := bufAt s k, txv := false,
                     idx := k + 1 } := by
  have hrounds := runEvents_sendRounds (k + 1) hst hv (by omega) hn
  rw [sendBytes_succ_eq] at hrounds
  simp only [hidx, Nat.zero_add] at hrounds
  rw [runEvents_append hrounds, runEvents_singleton]
  refine (fsmStep_tx ?_).trans (stepTx_end rfl hk.le)
  exact hst

/-- Settles O37. -/
theorem sendEmitsBuffer : Obligations.SendEmitsBuffer := by
  intro s u x hinv hidle h1 h27 hexec
  obtain ⟨k, hk⟩ : ∃ k, s.len.toNat = k + 1 := ⟨s.len.toNat - 1, by omega⟩
  obtain ⟨-, htxv, -⟩ := hinv.idle hidle
  rw [exec_send_idle x hidle, startSend_of_fits (by simpa) (by simpa), lenOperand_accept] at hexec
  cases hexec
  rw [hk] at h27 ⊢
  refine ⟨_, (runEvents_send ?_ ?_ ?_ ?_ ?_).trans (endTx_send ?_), rfl, rfl, rfl, rfl, rfl, rfl, rfl, rfl⟩
  exacts [rfl, htxv, rfl, rfl, h27, rfl]

end Sys2Proof.Machine
end

section
/-! PROOFS. The two transactions with an inverter, sent and received (R88, R89, R121). -/

namespace Sys2Proof.Machine

open Sys2Proof.Config

variable {s t : State}

/-! A reply in BUF. -/

theorem BufWritten.bufAt {u : State} {frame : List Byte} (h : BufWritten u s.buf 0 frame) {i : Nat}
    (hi : i < frame.length) : bufAt s i = frame.getD i 0#8 := by
  have hread := h.read hi
  rwa [Nat.zero_add] at hread

theorem BufWritten.map_bufAt {u : State} {frame : List Byte} (h : BufWritten u s.buf 0 frame) :
    (List.range frame.length).map (Machine.bufAt s) = frame :=
  (h.map_range le_rfl).trans (List.take_length)

theorem BufWritten.frameSumGood {u : State} {frame : List Byte} (h : BufWritten u s.buf 0 frame)
    (hlen : 15 ≤ frame.length) :
    frameSumGood s = decide (sum8 (frame.take 14) = frame.getD 14 0#8) := by
  have hsum : (List.range 14).map (Machine.bufAt s) = frame.take 14 := h.map_range (by omega)
  rw [frameSumGood_eq_decide, hsum, h.bufAt (by omega)]

/-- The fields of a status reply that stands in BUF. -/
theorem decodeFields_of_frame {u : State} {frame : List Byte} (h : BufWritten u s.buf 0 frame) (hlen : frame.length = 27) :
    decodeFields s =
      { s with rDevid := be32 (frame.getD 6 0#8) (frame.getD 7 0#8) (frame.getD 8 0#8) (frame.getD 9 0#8),
               rPower := be32 (frame.getD 10 0#8) (frame.getD 11 0#8) (frame.getD 12 0#8) (frame.getD 13 0#8),
               rDcv := be16 (frame.getD 15 0#8) (frame.getD 16 0#8), rDci := be16 (frame.getD 17 0#8) (frame.getD 18 0#8),
               rAcv := be16 (frame.getD 19 0#8) (frame.getD 20 0#8), rAci := be16 (frame.getD 21 0#8) (frame.getD 22 0#8),
               rState := frame.getD s.params.stateOfs.toNat 0#8, rTemp := frame.getD (s.params.stateOfs.toNat + 1) 0#8,
               rValid := decide (sum8 (frame.take 14) = frame.getD 14 0#8) } := by
  have hbyte (i : Nat) (hi : i < 27) : Machine.bufAt s i = frame.getD i 0#8 := h.bufAt (hlen ▸ hi)
  have hofs : s.params.stateOfs.toNat + 1 < 27 := by cases s.params.stateOfs <;> decide
  rw [decodeFields_eq, h.frameSumGood (by omega), hbyte _ (Nat.lt_of_succ_lt hofs), hbyte _ hofs]
  simp only [hbyte _ (show 6 < 27 by decide), hbyte _ (show 7 < 27 by decide), hbyte _ (show 8 < 27 by decide),
    hbyte _ (show 9 < 27 by decide), hbyte _ (show 10 < 27 by decide), hbyte _ (show 11 < 27 by decide),
    hbyte _ (show 12 < 27 by decide), hbyte _ (show 13 < 27 by decide), hbyte _ (show 15 < 27 by decide),
    hbyte _ (show 16 < 27 by decide), hbyte _ (show 17 < 27 by decide), hbyte _ (show 18 < 27 by decide),
    hbyte _ (show 19 < 27 by decide), hbyte _ (show 20 < 27 by decide), hbyte _ (show 21 < 27 by decide),
    hbyte _ (show 22 < 27 by decide)]

/-! Bytes that fit. -/

theorem runEvents_rxBytes_fits {bytes : List Byte} (h : s.rxq.length + bytes.length ≤ s.params.rxqDepth) :
    runEvents (bytes.map .rxByte) s = .next { s with rxq := s.rxq ++ bytes } := by
  have hroom : bytes.length ≤ room s := by
    simp only [room]
    omega
  rw [runEvents_rxBytes, pushAll_eq, List.take_of_length_le hroom, decide_eq_false (Nat.not_lt.mpr hroom), Bool.or_false]

/-! GET_STATUS (R88). -/

/-- GET_STATUS completes with the FIFO drained, the fields decoded, and OK and VALID the test of the checksum. -/
theorem stepFinish_getStatus_result (ho : s.opc = opcGetStatus) :
    ∃ t, stepFinish s = .next t ∧ t.busy = false ∧ t.done = true ∧ t.ok = frameSumGood s ∧ t.rValid = t.ok ∧
      t.rxq = [] ∧ t.flen = s.flen ∧ t.buf = s.buf ∧ t.rDevid = (decodeFields s).rDevid ∧
      t.rState = (decodeFields s).rState := by
  refine ⟨_, stepFinish_of_getStatus ho, ?_⟩
  cases hgood : frameSumGood s with
  | true =>
    rw [finishGetStatus_of_good hgood]
    exact ⟨rfl, rfl, rfl, hgood, rfl, rfl, rfl, rfl, rfl⟩
  | false =>
    rw [finishGetStatus_of_bad (by simp [hgood])]
    exact ⟨rfl, rfl, rfl, if_pos ho, rfl, rfl, rfl, rfl, rfl⟩

/-- What is on the wire once GET_STATUS waits for its reply, and how it waits. -/
structure AwaitsStatus (s b : State) : Prop where
  wire : b.wire = s.wire ++ sentFrame 0xC0#8 s.devid 0x00#8
  fifo : b.rxq = []
  st : b.st = .collect
  exp : b.exp = false
  idx : b.idx = 0
  n : b.n = 27
  opc : b.opc = opcGetStatus
  params : b.params = s.params

/-- A flush that goes on to send, the rounds of the frame, and the step that ends the send. -/
theorem runEvents_flush_send {k : Nat} (hst : s.st = .flush) (ho : s.opc ≠ opcFlush) (hv : s.txv = false)
    (hidx : s.idx = 0) (hk : s.n = k + 1) (hn : s.n ≤ 27) :
    runEvents ([.fsm] ++ sendRounds (k + 1) ++ [.fsm]) s =
      endTx { s with rxq := [], st := .tx, wire := s.wire ++ (List.range (k + 1)).map (bufAt s), txd := bufAt s k,
                     txv := false, idx := k + 1 } := by
  have hflush : act .fsm s = .next { s with rxq := [], st := .tx } := (fsmStep_flush hst).trans (stepFlush_of_other ho)
  exact (runEvents_cons hflush _).trans (runEvents_send (s := { s with rxq := [], st := .tx }) rfl hv hidx hk hn)

theorem getStatus_sends (hinv : Inv s) (hidle : s.busy = false) (htmo : s.tmoBlock ≠ 0#32) (x : BitVec 28)
    (hexec : exec (.getStatus x) s = .next t) :
    ∃ b, runEvents ([.fsm] ++ sendRounds 15 ++ [.fsm]) t = .next b ∧ AwaitsStatus s b := by
  obtain ⟨-, htxv, -⟩ := hinv.idle hidle
  obtain ⟨m, hm, hstart⟩ := startGetStatus_eq (accept opcGetStatus s)
  rw [exec_getStatus_idle x hidle, hstart] at hexec
  cases hexec
  refine ⟨_, (runEvents_flush_send ?_ ?_ ?_ ?_ ?_ ?_).trans (endTx_getStatus ?_), ?_⟩
  rotate_right
  · exact ⟨congrArg (s.wire ++ ·) (hm.map_range le_rfl), rfl, rfl, decide_eq_false htmo, rfl, rfl, rfl, rfl⟩
  · exact rfl
  · exact (by decide : opcGetStatus ≠ opcFlush)
  · exact htxv
  · exact rfl
  · exact rfl
  · exact (by decide : 15 ≤ 27)
  · exact rfl

/-- GET_STATUS, waiting, collects 27 bytes. -/
theorem getStatus_collects {b : State} (h : AwaitsStatus s b) {reply extra : List Byte} (hlen : reply.length = 27)
    (hfits : 27 + extra.length ≤ s.params.rxqDepth) :
    ∃ u, runEvents ((reply ++ extra).map .rxByte ++ List.replicate 27 .fsm) b = .next u ∧ u.st = .finish ∧
      u.opc = opcGetStatus ∧ u.params = s.params ∧ u.flen = 27 ∧ BufWritten b u.buf 0 reply := by
  obtain ⟨-, hfifo, hst, hexp, hidx, hn, hopc, hparams⟩ := h
  obtain ⟨b0, bytes, rfl⟩ := List.exists_cons_of_length_eq_add_one hlen
  have hbytes : bytes.length = 26 := by simpa using hlen
  have hqueued : runEvents ((b0 :: bytes ++ extra).map .rxByte) b = .next { b with rxq := b0 :: bytes ++ extra } := by
    rw [runEvents_rxBytes_fits (by rw [hfifo, hparams, List.length_append, hlen, List.length_nil]; omega), hfifo]
    rfl
  obtain ⟨m, hm, hcollect⟩ := fsmSteps_collect (s := { b with rxq := b0 :: bytes ++ extra }) hst hexp rfl
    (by simp only [hidx, hn, hbytes]) hn.le
  rw [hbytes] at hcollect
  simp only [hidx] at hm
  exact ⟨_, (runEvents_append hqueued _).trans hcollect, rfl, hopc, hparams, hn, hm⟩

/-- Settles O38: what goes out, and what 27 bytes back amount to. -/
theorem getStatusTransaction : Obligations.GetStatusTransaction := by
  intro s a x hinv hidle htmo hexec
  obtain ⟨b, hsends, hwaits⟩ := getStatus_sends hinv hidle htmo x hexec
  refine ⟨b, hsends, hwaits.wire, hwaits.fifo, hwaits.st, fun reply extra hlen hfits => ?_⟩
  obtain ⟨u, hcollects, hst, hopc, hparams, hflen, hm⟩ := getStatus_collects hwaits hlen hfits
  obtain ⟨t, hfinish, hbusy, hdone, hok, hvalid, hrxq, hflen', hbuf, hdevid, hstate⟩ :=
    stepFinish_getStatus_result hopc
  have hreply : BufWritten b t.buf 0 reply := hbuf ▸ hm
  have hframe := hreply.map_bufAt
  rw [hlen] at hframe
  rw [decodeFields_of_frame hm hlen] at hdevid hstate
  refine ⟨t, ?_, hbusy, hdone, hok.trans (hm.frameSumGood (by omega)), hvalid, hrxq, hflen'.trans hflen, hframe,
    hdevid, hparams ▸ hstate⟩
  rw [List.replicate_succ', ← List.append_assoc, runEvents_append hcollects, runEvents_singleton]
  exact (fsmStep_finish hst).trans hfinish

/-! SEND_VALIDATE (R89). -/

/-- SEND_VALIDATE completes with OK the two tests of its reply, and writes no result register. -/
theorem stepFinish_sendValidate_result (ho : s.opc = opcSendValidate) :
    ∃ t, stepFinish s = .next t ∧ t.busy = false ∧ t.done = true ∧ t.ok = (frameSumGood s && echoGood s) ∧
      t.rxq = s.rxq ∧ t.flen = s.flen ∧ t.buf = s.buf ∧ t.rDevid = s.rDevid ∧ t.rPower = s.rPower ∧
      t.rValid = s.rValid := by
  have hother : s.opc ≠ opcGetStatus := by
    rw [ho]
    decide
  refine ⟨_, stepFinish_of_sendValidate ho, ?_⟩
  cases hgood : frameSumGood s with
  | false =>
    rw [finishSendValidate_of_bad_sum (by simp [hgood])]
    exact ⟨rfl, rfl, rfl, rfl, rfl, rfl, rfl, rfl, if_neg hother⟩
  | true =>
    cases hecho : echoGood s with
    | false =>
      rw [finishSendValidate_of_bad_echo hgood (by simp [hecho])]
      exact ⟨rfl, rfl, rfl, rfl, rfl, rfl, rfl, rfl, if_neg hother⟩
    | true =>
      rw [finishSendValidate_of_good hgood hecho]
      exact ⟨rfl, rfl, rfl, rfl, rfl, rfl, rfl, rfl, rfl⟩

/-- What is on the wire once SEND_VALIDATE waits for its reply, and how it waits. -/
structure AwaitsAck (s b : State) : Prop where
  wire : b.wire = s.wire ++ sentFrame s.cmd s.devid s.value
  fifo : b.rxq = []
  st : b.st = .hunt
  exp : b.exp = false
  n : b.n = 15
  opc : b.opc = opcSendValidate
  params : b.params = s.params
  lCmd : b.lCmd = s.cmd
  lValue : b.lValue = s.value
  results : b.rDevid = s.rDevid ∧ b.rPower = s.rPower ∧ b.rValid = s.rValid

theorem sendValidate_sends (hinv : Inv s) (hidle : s.busy = false) (htmo : s.tmoWait ≠ 0#32)
    (hcmd : s.cmd = 0xC1#8 ∨ s.cmd = 0xC3#8) (hempty : s.rxq = []) (x : BitVec 28)
    (hexec : exec (.sendValidate x) s = .next t) :
    ∃ b, runEvents (sendRounds 15 ++ [.fsm]) t = .next b ∧ AwaitsAck s b := by
  obtain ⟨-, htxv, -⟩ := hinv.idle hidle
  obtain ⟨m, hm, hstart⟩ :=
    startSendValidate_of_ack (s := accept opcSendValidate s) ((isAckCommandCode_iff s.cmd).mpr hcmd)
  rw [exec_sendValidate_idle x hidle, hstart] at hexec
  cases hexec
  refine ⟨_, (runEvents_send ?_ ?_ ?_ ?_ ?_).trans (endTx_sendValidate ?_), ?_⟩
  rotate_right
  · exact ⟨congrArg (s.wire ++ ·) (hm.map_range le_rfl), hempty, rfl, decide_eq_false htmo, rfl, rfl, rfl, rfl, rfl,
      rfl, rfl, rfl⟩
  · exact rfl
  · exact htxv
  · exact rfl
  · exact rfl
  · exact (by decide : 15 ≤ 27)
  · exact rfl

/-- SEND_VALIDATE, waiting, collects the 15 bytes that start with its header. -/
theorem sendValidate_collects {b : State} (h : AwaitsAck s b) (hdepth : 15 ≤ s.params.rxqDepth) {reply : List Byte}
    (hlen : reply.length = 15) (h0 : reply.getD 0 0#8 = 0x43#8) (h1 : reply.getD 1 0#8 = s.cmd) :
    ∃ u, runEvents (reply.map .rxByte ++ List.replicate 14 .fsm) b = .next u ∧ u.st = .finish ∧
      u.opc = opcSendValidate ∧ u.rxq = [] ∧ u.flen = 15 ∧ BufWritten b u.buf 0 reply ∧ u.lValue = s.value ∧
      u.rDevid = s.rDevid ∧ u.rPower = s.rPower ∧ u.rValid = s.rValid := by
  obtain ⟨-, hfifo, hst, hexp, hn, hopc, hparams, hcmd, hvalue, hresults⟩ := h
  obtain ⟨b0, rest, rfl⟩ := List.exists_cons_of_length_eq_add_one hlen
  obtain ⟨b1, body, rfl⟩ := List.exists_cons_of_length_eq_add_one (Nat.succ.inj hlen)
  have hbody : body.length = 13 := by simpa using hlen
  have hqueued : runEvents ((b0 :: b1 :: body).map .rxByte) b = .next { b with rxq := b0 :: b1 :: body } := by
    rw [runEvents_rxBytes_fits (by rw [hfifo, hparams, hlen, List.length_nil]; omega), hfifo]
    rfl
  have hheader : headerPattern b = some (b0, b1) := by
    rw [headerPattern_sendValidate hopc, hcmd, ← h1, ← h0]
    rfl
  obtain ⟨m, hm, hcollect⟩ := fsmSteps_frame (s := { b with rxq := b0 :: b1 :: body }) (body := body) (r := []) hst hexp
    hheader (by rw [List.append_nil]) (by simp only [hn, hbody]) (by simp only [hn]; decide)
  rw [hbody] at hcollect
  exact ⟨_, (runEvents_append hqueued _).trans hcollect, rfl, hopc, rfl, hn, hm, hvalue, hresults⟩

/-- Settles O39: what goes out, and what 15 bytes back amount to. -/
theorem sendValidateTransaction : Obligations.SendValidateTransaction := by
  intro s a x hinv hidle htmo hcmd hempty hexec
  obtain ⟨b, hsends, hwaits⟩ := sendValidate_sends hinv hidle htmo hcmd hempty x hexec
  refine ⟨b, hsends, hwaits.wire, hwaits.st, fun reply hlen h0 h1 => ?_⟩
  have hdepth : 15 ≤ s.params.rxqDepth := by
    have hlegal := hinv.params
    simp only [Params.legal, Bool.and_eq_true, decide_eq_true_eq] at hlegal
    omega
  obtain ⟨u, hcollects, hst, hopc, hrxq, hflen, hm, hvalue, hdevid, hpower, hvalid⟩ :=
    sendValidate_collects hwaits hdepth hlen h0 h1
  obtain ⟨t, hfinish, hbusy, hdone, hok, hrxq', hflen', hbuf, hdevid', hpower', hvalid'⟩ :=
    stepFinish_sendValidate_result hopc
  have hframe := (show BufWritten b t.buf 0 reply from hbuf ▸ hm).map_bufAt
  have hecho : echoGood u = decide (reply.getD 13 0#8 = s.value) := by
    rw [Bool.eq_iff_iff, echoGood_iff, decide_eq_true_iff, hm.bufAt (by omega), hvalue]
  rw [hlen] at hframe
  rw [hm.frameSumGood (by omega), hecho] at hok
  refine ⟨t, ?_, hbusy, hdone, hok, hrxq'.trans hrxq, hflen'.trans hflen, hframe, hdevid'.trans hdevid,
    hpower'.trans hpower, hvalid'.trans hvalid⟩
  rw [List.replicate_succ', ← List.append_assoc, runEvents_append hcollects, runEvents_singleton]
  exact (fsmStep_finish hst).trans hfinish

end Sys2Proof.Machine
end

section
/-! PROOFS. DRAIN_ONE from its first PSCAN step to its end (R82, R90 to R92). -/

namespace Sys2Proof.Machine

open Sys2Proof.Config

variable {s t u : State}

/-! Within the budget (R90, R92). -/

/-- The result registers. -/
def recordView (s : State) := (s.rDevid, s.rPower, s.rDcv, s.rDci, s.rAcv, s.rAci, s.rState, s.rTemp, s.rValid)

/-- `t` is the end of a drain from `s`: completed with OK = 1, within the budget, and with new results only where it
delivered a frame. -/
structure DrainEnds (s t : State) : Prop where
  busy : t.busy = false
  done : t.done = true
  ok : t.ok = true
  taken : ∃ j, j ≤ s.budget ∧ t.rxq = s.rxq.drop j
  results : t.recd = false → recordView t = recordView s
  delivered : t.recd = true → t.rValid = true

/-- A drain that first takes `i` bytes of its budget, and delivers nothing with them. -/
theorem DrainEnds.after (h : DrainEnds u t) {i : Nat} (hq : u.rxq = s.rxq.drop i) (hb : u.budget + i ≤ s.budget)
    (hv : recordView u = recordView s) : DrainEnds s t := by
  obtain ⟨j, hj, htaken⟩ := h.taken
  exact ⟨h.busy, h.done, h.ok, ⟨i + j, by omega, by rw [htaken, hq, List.drop_drop]⟩,
    fun hr => (h.results hr).trans hv, h.delivered⟩

theorem drainEnds_endNoFrame (hr : s.recd = false) : DrainEnds s (endNoFrame s) :=
  ⟨rfl, rfl, rfl, ⟨0, Nat.zero_le _, rfl⟩, fun _ => rfl, fun h => by simp [endNoFrame, hr] at h⟩

/-- The state from which a PSCAN step goes on has taken something of the budget; otherwise the drain has ended. -/
theorem stepPscan_drains (hinv : Inv s) (hst : s.st = .pscan) (h : stepPscan s = .next t) :
    DrainEnds s t ∨
      2 ≤ s.budget ∧ t.st = .pscan ∧
        ∃ i, 1 ≤ i ∧ t.rxq = s.rxq.drop i ∧ t.budget + i = s.budget ∧ recordView t = recordView s := by
  have hrecd := (hinv.toRunning (by simp [hst])).recd
  obtain ⟨-, ht⟩ | ⟨hmin, _, _, _, -, ⟨-, ht⟩ | ⟨-, -, -, ht⟩ | ⟨-, -, hfits, hlen, ht⟩⟩ := stepPscan_cases h
  all_goals rw [ht]
  · exact .inl (drainEnds_endNoFrame hrecd)
  · exact .inr ⟨hmin, hst, 1, le_rfl, rfl, Nat.sub_add_cancel (by omega), rfl⟩
  · exact .inl (drainEnds_endNoFrame hrecd)
  · by_cases hsum : sum8 (s.rxq.take 14) = s.rxq.getD 14 0#8
    · have hgood := (frameSumGood_scanned hlen { s with buf := scannedBuf s, rxq := s.rxq.drop 27, flen := 27 } rfl).mpr
        hsum
      rw [scanFrame_of_good hlen hsum]
      exact .inl ⟨rfl, rfl, rfl, ⟨27, hfits, rfl⟩, fun h => by simp at h, fun _ => hgood⟩
    · rw [scanFrame_of_bad hlen hsum]
      exact .inr ⟨hmin, hst, 27, by decide, rfl, Nat.sub_add_cancel hfits, rfl⟩

/-- A drain ends within max(1, BUDGET) steps, by induction on the budget. -/
theorem exists_drainEnds (hinv : Inv s) (hst : s.st = .pscan) :
    ∃ k t, 1 ≤ k ∧ k ≤ max 1 s.budget ∧ fsmSteps k s = .next t ∧ DrainEnds s t := by
  induction hb : s.budget using Nat.strong_induction_on generalizing s with
  | _ b ih =>
    obtain ⟨u, hstep⟩ := hinv.stepPscan_next hst
    have hfsm : fsmStep s = .next u := (fsmStep_pscan hst).trans hstep
    obtain hends | ⟨hmin, hst', i, hi, hq, hbudget, hview⟩ := stepPscan_drains hinv hst hstep
    · exact ⟨1, u, le_rfl, le_max_left _ _, fsmSteps_one hfsm, hends⟩
    · obtain ⟨k, t, h1, hk, hrun, hends⟩ := ih u.budget (by omega) (hinv.fsmStep hfsm) hst' rfl
      exact ⟨k + 1, t, by omega, by omega, (fsmSteps_succ hfsm k).trans hrun, hends.after hq hbudget.le hview⟩

/-- Settles O40. -/
theorem drainOneBounded : Obligations.DrainOneBounded := by
  intro s hinv hst
  obtain ⟨k, t, h1, hk, hrun, hends⟩ := exists_drainEnds hinv hst
  refine ⟨k, t, h1, hk, hrun, hends.busy, hends.done, hends.ok, hends.taken, fun hr => ?_, hends.delivered⟩
  simpa only [recordView, Prod.mk.injEq] using hends.results hr

/-! To the first good frame (R82, R91). -/

section
variable {frame r : List Byte} (hq : s.rxq = frame ++ r) (hlen : frame.length = 27)
include hq hlen

theorem frameSum_head : (sum8 (s.rxq.take 14) = s.rxq.getD 14 0#8) = (sum8 (frame.take 14) = frame.getD 14 0#8) := by
  rw [hq, List.take_append_of_le_length (by omega), List.getD_append _ _ _ _ (by omega)]

/-- With a whole frame at the head of the FIFO, its header right and its bytes within the budget, the step reads it. -/
theorem stepPscan_scanFrame (h0 : frame.getD 0 0#8 = 0x43#8) (h1 : frame.getD 1 0#8 = 0xC0#8) (hb : 27 ≤ s.budget) :
    stepPscan s = .next (scanFrame s) := by
  obtain ⟨b0, rest, rfl⟩ := List.exists_cons_of_length_eq_add_one hlen
  obtain ⟨b1, body, rfl⟩ := List.exists_cons_of_length_eq_add_one (Nat.succ.inj hlen)
  exact stepPscan_frame hb hq ⟨h0, h1⟩ (by rw [hq, List.length_append, hlen]; omega)

theorem scanFrame_bad (hsum : sum8 (frame.take 14) ≠ frame.getD 14 0#8) :
    scanFrame s = { s with buf := scannedBuf s, rxq := r, flen := 27, budget := s.budget - 27 } := by
  rw [scanFrame_of_bad (by rw [hq, List.length_append, hlen]; omega) (by rwa [ne_eq, frameSum_head hq hlen])]
  rw [hq, List.drop_append_of_le_length hlen.ge, List.drop_of_length_le hlen.le, List.nil_append]

theorem scanFrame_good (hsum : sum8 (frame.take 14) = frame.getD 14 0#8) :
    scanFrame s =
      complete true { decodeFields { s with buf := scannedBuf s, rxq := r, flen := 27 } with recd := true } := by
  rw [scanFrame_of_good (by rw [hq, List.length_append, hlen]; omega) (by rwa [frameSum_head hq hlen])]
  rw [hq, List.drop_append_of_le_length hlen.ge, List.drop_of_length_le hlen.le, List.nil_append]

theorem scannedBuf_written : BufWritten s (scannedBuf s) 0 frame := by
  have htake : s.rxq.take 27 = frame := by rw [hq, List.take_append_of_le_length hlen.ge, List.take_of_length_le hlen.le]
  exact htake ▸ writeBytes_written s 0 (s.rxq.take 27)

end

/-- `u` scans on from `s`, `k` bytes of the budget further. -/
structure ScansOn (s : State) (k : Nat) (rest : List Byte) (u : State) : Prop where
  inv : Inv u
  st : u.st = .pscan
  rxq : u.rxq = rest
  budget : u.budget + k = s.budget
  params : u.params = s.params

/-- What `ScanSkips` lists is passed over, a step for each of its places. -/
theorem ScanSkips.fsmSteps {rest g : List Byte} {k : Nat} (h : ScanSkips rest k g) (hrest : rest ≠ []) (hinv : Inv s)
    (hst : s.st = .pscan) (hq : s.rxq = g ++ rest) (hb : g.length + 2 ≤ s.budget) :
    ∃ u, fsmSteps k s = .next u ∧ ScansOn s g.length rest u := by
  induction h generalizing s with
  | done => exact ⟨s, rfl, hinv, hst, hq, rfl, rfl⟩
  | dropByte k b g hne _ ih =>
    simp only [List.length_cons] at hb
    obtain ⟨b1, q, hnext⟩ : ∃ b1 q, g ++ rest = b1 :: q := List.exists_cons_of_ne_nil (by simp [hrest])
    have hstep := (fsmStep_pscan hst).trans (stepPscan_drop (by omega) (hq.trans (congrArg (b :: ·) hnext))
      fun hhead => hne ⟨hhead.1, hnext ▸ congrArg some hhead.2⟩)
    obtain ⟨u, hrun, hon⟩ := ih (s := { s with rxq := b1 :: q, budget := s.budget - 1 }) (hinv.fsmStep hstep) hst
      hnext.symm (by simp only; omega)
    have hbudget := hon.budget
    simp only at hbudget
    exact ⟨u, (fsmSteps_succ hstep k).trans hrun, hon.inv, hon.st, hon.rxq,
      by simp only [List.length_cons]; omega, hon.params⟩
  | dropFrame k frame g hlen h0 h1 hsum _ ih =>
    simp only [List.length_append, hlen] at hb
    rw [List.append_assoc] at hq
    have hstep := (fsmStep_pscan hst).trans (stepPscan_scanFrame hq hlen h0 h1 (by omega))
    rw [scanFrame_bad hq hlen hsum] at hstep
    obtain ⟨u, hrun, hon⟩ := ih (s := { s with
      buf := scannedBuf s, rxq := g ++ rest, flen := 27, budget := s.budget - 27 }) (hinv.fsmStep hstep) hst rfl
      (by simp only; omega)
    have hbudget := hon.budget
    simp only at hbudget
    exact ⟨u, (fsmSteps_succ hstep k).trans hrun, hon.inv, hon.st, hon.rxq,
      by simp only [List.length_append, hlen]; omega, hon.params⟩

/-- Settles O41: the bytes and frames before it, then the good frame. -/
theorem drainDeliversGoodFrame : Obligations.DrainDeliversGoodFrame := by
  intro s k g frame r hinv hst hq hskips hlen h0 h1 hsum hb
  have hrest : frame ++ r ≠ [] := fun hnil => by simp [List.append_eq_nil_iff.mp hnil] at hlen
  rw [List.append_assoc] at hq
  obtain ⟨u, hrun, hon⟩ := hskips.fsmSteps hrest hinv hst hq (by omega)
  have hbudget := hon.budget
  have hstep := (fsmStep_pscan hon.st).trans (stepPscan_scanFrame hon.rxq hlen h0 h1 (by omega))
  have hwritten := scannedBuf_written hon.rxq hlen
  have hdecoded := decodeFields_of_frame (s := { u with buf := scannedBuf u, rxq := r, flen := 27 }) hwritten hlen
  have hframe := hwritten.map_bufAt (s := { u with buf := scannedBuf u, rxq := r, flen := 27 })
  rw [hlen] at hframe
  rw [scanFrame_good hon.rxq hlen hsum, hdecoded] at hstep
  exact ⟨_, (fsmSteps_add hrun 1).trans (fsmSteps_one hstep), rfl, rfl, rfl, rfl, rfl, rfl, hframe,
    decide_eq_true hsum, rfl, rfl, rfl, rfl, rfl, rfl,
    congrArg (fun p : Params => frame.getD p.stateOfs.toNat 0#8) hon.params,
    congrArg (fun p : Params => frame.getD (p.stateOfs.toNat + 1) 0#8) hon.params⟩

end Sys2Proof.Machine
end

section
/-! PROOFS. Progress (R72, R76, R92): a measure that no step of a running operation raises and that every FSM step but a
byte read in HUNT or COLLECT lowers, as do a sent byte and a TICK step of a running deadline; and the two statements it
settles. -/

namespace Sys2Proof.Machine

open Sys2Proof.Config

variable {s t : State}

/-! The measure. -/

/-- The phases in the order in which an operation goes through them, the last lowest. -/
def phaseRank : Phase → Nat
  | .idle => 0
  | .pscan => 1
  | .finish => 2
  | .collect => 3
  | .hunt => 4
  | .tx => 5
  | .flush => 6

/-- What is left to do in the phase: half steps of the send, milliseconds of the deadline, bytes of the budget. -/
def phaseWork (s : State) : Nat :=
  match s.st with
  | .tx => 2 * (s.n - s.idx) + s.txv.toNat
  | .hunt | .collect => if s.exp then 0 else s.tmoCur.toNat - (s.now - s.t0).toNat
  | .pscan => s.budget
  | .idle | .flush | .finish => 0

def runRank (s : State) : ℕ ×ₗ ℕ := toLex (phaseRank s.st, phaseWork s)

/-- Everything the measure reads. -/
def rankView (s : State) := (s.st, s.n, s.idx, s.txv, s.exp, s.tmoCur, s.now, s.t0, s.budget)

theorem runRank_congr (h : rankView t = rankView s) : runRank t = runRank s := by
  simp only [rankView, Prod.mk.injEq] at h
  obtain ⟨hst, hn, hidx, htxv, hexp, htmo, hnow, ht0, hbudget⟩ := h
  simp only [runRank, phaseWork, hst, hn, hidx, htxv, hexp, htmo, hnow, ht0, hbudget]

theorem runRank_lt_of_phase (h : phaseRank t.st < phaseRank s.st) : runRank t < runRank s :=
  Prod.Lex.toLex_lt_toLex.mpr (.inl h)

theorem runRank_lt_of_work (hst : t.st = s.st) (h : phaseWork t < phaseWork s) : runRank t < runRank s :=
  Prod.Lex.toLex_lt_toLex.mpr (.inr ⟨congrArg phaseRank hst, h⟩)

theorem phaseRank_injective : Function.Injective phaseRank := by
  intro p q h
  cases p <;> cases q <;> simp [phaseRank] at h ⊢

theorem eq_of_runRank_eq (h : runRank t = runRank s) : t.st = s.st ∧ phaseWork t = phaseWork s := by
  obtain ⟨hphase, hwork⟩ := Prod.mk.inj (toLex.injective h)
  exact ⟨phaseRank_injective hphase, hwork⟩

/-! A running deadline. -/

/-- The operation waits for bytes, and its deadline has not expired. -/
def Waits (s : State) : Prop := (s.st = .hunt ∨ s.st = .collect) ∧ s.exp = false

theorem phaseWork_of_waits (h : Waits s) : phaseWork s = s.tmoCur.toNat - (s.now - s.t0).toNat := by
  obtain ⟨hst | hst, hexp⟩ := h <;> simp [phaseWork, hst, hexp]

theorem Inv.time_left (hinv : Inv s) (h : Waits s) : (s.now - s.t0).toNat < s.tmoCur.toNat :=
  BitVec.lt_def.mp (hinv.timeLeft (hinv.armedIff.mpr h.1) h.2)

/-- The same measure, the same wait. -/
theorem Waits.of_runRank_eq (h : Waits s) (hinv : Inv s) (hrank : runRank t = runRank s) : Waits t := by
  obtain ⟨hst, hwork⟩ := eq_of_runRank_eq hrank
  have hphase : t.st = .hunt ∨ t.st = .collect := hst ▸ h.1
  have hleft := hinv.time_left h
  rw [phaseWork_of_waits h] at hwork
  refine ⟨hphase, Bool.eq_false_iff.mpr fun hexp => ?_⟩
  have hzero : phaseWork t = 0 := by
    obtain hst' | hst' := hphase <;> simp [phaseWork, hst', hexp]
  omega

theorem tick_elapsed (h : (s.now - s.t0).toNat < s.tmoCur.toNat) :
    ((tick s).now - s.t0).toNat = (s.now - s.t0).toNat + 1 := by
  have hbound := s.tmoCur.isLt
  rw [tick_now]
  bv_omega

theorem runRank_tick_of_waits (hinv : Inv s) (h : Waits s) : runRank (tick s) < runRank s := by
  have hleft := hinv.time_left h
  refine runRank_lt_of_work rfl ?_
  rw [phaseWork_of_waits h]
  by_cases hexp : (tick s).exp = true
  · have hzero : phaseWork (tick s) = 0 := by
      obtain hst | hst := h.1 <;> simp only [phaseWork, tick_st, hst, hexp, if_true]
    omega
  · have hwaits : Waits (tick s) := ⟨h.1, Bool.eq_false_iff.mpr hexp⟩
    rw [phaseWork_of_waits hwaits, tick_tmoCur, tick_t0, tick_elapsed hleft]
    omega

theorem runRank_tick_of_not_waits (h : ¬Waits s) : runRank (tick s) = runRank s := by
  cases hst : s.st with
  | hunt | collect =>
    have hexp : s.exp = true := by simpa [Waits, hst] using h
    simp [runRank, phaseWork, hst, hexp]
  | _ => simp [runRank, phaseWork, hst]

/-! A byte on offer, and bytes sent. -/

theorem txv_of_runRank_eq (hst : s.st = .tx) (hv : s.txv = true) (hrank : runRank t = runRank s) :
    t.st = .tx ∧ t.txv = true := by
  obtain ⟨hst', hwork⟩ := eq_of_runRank_eq hrank
  have htx : t.st = .tx := hst'.trans hst
  refine ⟨htx, Bool.eq_true_of_not_eq_false fun hfalse => ?_⟩
  simp only [phaseWork, htx, hst, hv, hfalse, Bool.toNat_true, Bool.toNat_false] at hwork
  omega

theorem runRank_takeByte (hst : s.st = .tx) (hv : s.txv = true) : runRank (takeByte s) < runRank s := by
  rw [takeByte_of_offer hv]
  refine runRank_lt_of_work rfl ?_
  simp [phaseWork, hst, hv]

theorem runRank_emitFrame {bytes : List Byte} (h : Offers bytes s) (hlen : 0 < bytes.length) :
    runRank (emitFrame bytes s) < runRank s := by
  rw [emitFrame_of_offers h]
  obtain ⟨hst, -, hidx, hn, -⟩ := h
  obtain ⟨k, hk⟩ : ∃ k, bytes.length = k + 1 := ⟨bytes.length - 1, by omega⟩
  rw [hk, sendBytes_succ_eq]
  refine runRank_lt_of_work rfl ?_
  simp only [phaseWork, hst, hidx, Bool.toNat_false]
  omega

/-! FSM steps. -/

theorem fsmEnabled_hunt (hst : s.st = .hunt) : fsmEnabled s = true ↔ s.exp = true ∨ 2 ≤ s.rxq.length := by
  simp only [fsmEnabled, hst, Bool.or_eq_true, avail]
  exact or_congr_right decide_eq_true_iff

theorem fsmEnabled_collect (hst : s.st = .collect) : fsmEnabled s = true ↔ s.exp = true ∨ s.rxq ≠ [] := by
  simp only [fsmEnabled, hst, Bool.or_eq_true, decide_eq_true_eq, avail, Nat.one_le_iff_ne_zero, ne_eq,
    List.length_eq_zero_iff]

theorem fsmStep_of_not_enabled (h : fsmEnabled s = false) : fsmStep s = .next s := by
  have hnot := Bool.eq_false_iff.mp h
  cases hst : s.st with
  | idle => exact fsmStep_idle hst
  | tx => exact (fsmStep_tx hst).trans (stepTx_hold (by simpa [fsmEnabled, hst] using h))
  | hunt =>
    rw [ne_eq, fsmEnabled_hunt hst, not_or, Bool.not_eq_true, not_le] at hnot
    exact (fsmStep_hunt hst).trans (stepHunt_hold hnot.1 hnot.2)
  | collect =>
    rw [ne_eq, fsmEnabled_collect hst, not_or, Bool.not_eq_true, not_not] at hnot
    exact (fsmStep_collect hst).trans (stepCollect_hold hnot.1 hnot.2)
  | flush | finish | pscan => simp [fsmEnabled, hst] at h

/-- A step of a running operation ends it, gets on with it, or takes received bytes before the deadline. -/
def Advances (s t : State) : Prop :=
  t.busy = false ∨ runRank t < runRank s ∨ (Waits s ∧ runRank t = runRank s ∧ t.rxq.length < s.rxq.length)

theorem advances_of_idle (h : t.busy = false) : Advances s t := .inl h

theorem advances_of_phase (h : phaseRank t.st < phaseRank s.st) : Advances s t := .inr (.inl (runRank_lt_of_phase h))

theorem stepFlush_advances (hst : s.st = .flush) (h : stepFlush s = .next t) : Advances s t := by
  obtain ⟨-, rfl⟩ | ⟨-, rfl⟩ := stepFlush_cases h
  · exact advances_of_idle rfl
  · exact advances_of_phase (by simp [hst, phaseRank])

theorem stepTx_advances (hst : s.st = .tx) (hen : fsmEnabled s = true) (h : stepTx s = .next t) : Advances s t := by
  have hv : s.txv = false := by simpa [fsmEnabled, hst] using hen
  obtain ⟨hv', -⟩ | ⟨-, hlt, -, rfl⟩ | ⟨-, -, -, rfl⟩ | ⟨-, -, -, rfl⟩ | ⟨-, -, -, rfl⟩ := stepTx_cases h
  · simp [hv] at hv'
  · refine .inr (.inl (runRank_lt_of_work rfl ?_))
    simp only [phaseWork, offerByte_eq, hst, hv, Bool.toNat_true, Bool.toNat_false]
    omega
  · exact advances_of_idle rfl
  · exact advances_of_phase (by simp [hst, phaseRank])
  · exact advances_of_phase (by simp [hst, phaseRank])

theorem stepHunt_advances (hst : s.st = .hunt) (hen : fsmEnabled s = true) (h : stepHunt s = .next t) : Advances s t := by
  obtain ⟨-, rfl⟩ | ⟨hexp, hfew, -⟩ | ⟨-, _, _, _, -, -, rfl⟩ | ⟨hexp, _, _, _, _, hq, -, -, rfl⟩ := stepHunt_cases h
  · exact advances_of_idle rfl
  · obtain hexp' | hmany := (fsmEnabled_hunt hst).mp hen
    · simp [hexp] at hexp'
    · omega
  · refine advances_of_phase ?_
    unfold huntMatch
    split <;> simp [hst, phaseRank]
  · exact .inr (.inr ⟨⟨.inl hst, hexp⟩, runRank_congr rfl, by simp [hq]⟩)

theorem stepCollect_advances (hst : s.st = .collect) (hen : fsmEnabled s = true) (h : stepCollect s = .next t) :
    Advances s t := by
  obtain ⟨-, rfl⟩ | ⟨hexp, hnone, -⟩ | ⟨hexp, hq, -, rfl⟩ := stepCollect_cases h
  · exact advances_of_idle rfl
  · obtain hexp' | hsome := (fsmEnabled_collect hst).mp hen
    · simp [hexp] at hexp'
    · exact absurd hnone hsome
  · by_cases hlast : s.idx + 1 = s.n
    · rw [collectByte_of_last hlast]
      exact advances_of_phase (by simp [hst, phaseRank])
    · rw [collectByte_of_more hlast]
      refine .inr (.inr ⟨⟨.inr hst, hexp⟩, by simp [runRank, phaseWork, hst], ?_⟩)
      simpa using List.length_pos_iff.mpr hq

theorem stepFinish_advances (h : stepFinish s = .next t) : Advances s t := by
  obtain ⟨-, rfl⟩ | ⟨ho, -⟩ | ⟨ho, -⟩ := stepFinish_cases h
  · exact advances_of_idle rfl
  · obtain ⟨u, hu, hbusy, -⟩ := stepFinish_getStatus_result ho
    cases h.symm.trans hu
    exact advances_of_idle hbusy
  · obtain ⟨u, hu, hbusy, -⟩ := stepFinish_sendValidate_result ho
    cases h.symm.trans hu
    exact advances_of_idle hbusy

theorem stepPscan_advances (hst : s.st = .pscan) (hinv : Inv s) (h : stepPscan s = .next t) : Advances s t := by
  obtain hends | ⟨-, hst', i, hi, -, hbudget, -⟩ := stepPscan_drains hinv hst h
  · exact advances_of_idle hends.busy
  · refine .inr (.inl (runRank_lt_of_work (hst'.trans hst.symm) ?_))
    simp only [phaseWork, hst', hst]
    omega

theorem fsmStep_advances (hinv : Inv s) (hen : fsmEnabled s = true) (h : fsmStep s = .next t) : Advances s t := by
  cases hst : s.st with
  | idle => simp [fsmEnabled, hst] at hen
  | flush => exact stepFlush_advances hst ((fsmStep_flush hst).symm.trans h)
  | tx => exact stepTx_advances hst hen ((fsmStep_tx hst).symm.trans h)
  | hunt => exact stepHunt_advances hst hen ((fsmStep_hunt hst).symm.trans h)
  | collect => exact stepCollect_advances hst hen ((fsmStep_collect hst).symm.trans h)
  | finish => exact stepFinish_advances ((fsmStep_finish hst).symm.trans h)
  | pscan => exact stepPscan_advances hst hinv ((fsmStep_pscan hst).symm.trans h)

/-- Settles O35: a held step by the phases' own holds, an enabled one by the measure. -/
theorem holdsChangeNothing : Obligations.HoldsChangeNothing := by
  refine ⟨fun s => fsmStep_of_not_enabled, fun s t hinv hen h hsame => ?_⟩
  have hadvances := fsmStep_advances hinv hen h
  subst hsame
  obtain hidle | hlower | ⟨-, -, hshorter⟩ := hadvances
  · have hst : t.st = .idle := (hinv.idle hidle).1
    simp [fsmEnabled, hst] at hen
  · exact lt_irrefl _ hlower
  · exact lt_irrefl _ hshorter

/-! The other agents. -/

theorem rankView_hostWrite {a : BitVec 8} {width : Nat} {v : Word} (hb : s.busy = true)
    (h : hostWrite a width v s = .next t) : rankView t = rankView s := by
  unfold hostWrite at h
  split at h
  · cases h
    rfl
  · rw [exec_decodeOp_busy (s := respond 0#32 false s) _ hb] at h
    cases h
    rfl
  · next r _ _ =>
    cases h
    cases r with
    | buf i =>
      rw [writeReg_buf_busy (s := respond 0#32 false s) i v hb]
      rfl
    | _ => rfl

theorem rankView_receiveFrame (bytes : List Byte) (s : State) : rankView (receiveFrame bytes s) = rankView s := by
  rw [receiveFrame, pushAll_eq]
  rfl

/-- No step of any agent raises the measure of a running operation. -/
theorem act_runRank_le {e : Event} (hinv : Inv s) (hb : s.busy = true) (h : act e s = .next t) :
    t.busy = false ∨ runRank t ≤ runRank s := by
  cases e with
  | host a =>
    cases a with
    | read a width =>
      cases h
      refine .inr (runRank_congr ?_).le
      unfold hostRead
      split <;> rfl
    | write a width v => exact .inr (runRank_congr (rankView_hostWrite hb h)).le
  | rxByte b =>
    cases h
    exact .inr (runRank_congr (rankView_receiveFrame [b] s)).le
  | txTake =>
    cases h
    cases hv : s.txv with
    | true => exact .inr (runRank_takeByte (hinv.offer hv).1 hv).le
    | false => exact .inr (congrArg runRank (takeByte_of_empty hv)).le
  | msTick =>
    cases h
    by_cases hwaits : Waits s
    · exact .inr (runRank_tick_of_waits hinv hwaits).le
    · exact .inr (runRank_tick_of_not_waits hwaits).le
  | fsm =>
    cases hen : fsmEnabled s with
    | true =>
      obtain hidle | hlower | ⟨-, hsame, -⟩ := fsmStep_advances hinv hen h
      exacts [.inl hidle, .inr hlower.le, .inr hsame.le]
    | false =>
      cases h.symm.trans (fsmStep_of_not_enabled hen)
      exact .inr le_rfl
  | rst =>
    cases h
    exact .inl rfl
  | wire d bytes =>
    cases d with
    | tx =>
      cases h.symm.trans (wireStep_tx bytes s)
      by_cases hsends : Offers bytes s ∧ 0 < bytes.length
      · exact .inr (runRank_emitFrame hsends.1 hsends.2).le
      · refine .inr (congrArg runRank ?_).le
        by_cases hoffers : Offers bytes s
        · have hnil : bytes.length = 0 := Nat.eq_zero_of_not_pos fun hpos => hsends ⟨hoffers, hpos⟩
          rw [emitFrame_of_offers hoffers, hnil]
          rfl
        · exact emitFrame_of_not_offers hoffers
    | rx =>
      cases h.symm.trans (wireStep_rx bytes s)
      exact .inr (runRank_congr (rankView_receiveFrame bytes s)).le

/-- An event that counts as an FSM step advances the operation. -/
theorem act_advances {e : Event} (hinv : Inv s) (hcounts : 0 < fsmStepsOf e s) (h : act e s = .next t) :
    Advances s t := by
  cases e with
  | fsm => exact fsmStep_advances hinv (fsmEnabled_of_fsmStepsOf_pos hcounts) h
  | wire d bytes =>
    cases d with
    | tx =>
      cases h.symm.trans (wireStep_tx bytes s)
      simp only [fsmStepsOf] at hcounts
      split at hcounts
      · next hoffers => exact .inr (.inl (runRank_emitFrame ((offering_iff bytes s).mp hoffers) hcounts))
      · exact absurd hcounts (lt_irrefl 0)
    | rx => exact absurd hcounts (lt_irrefl 0)
  | host | rxByte | txTake | msTick | rst => exact absurd hcounts (lt_irrefl 0)

/-! Along a schedule (R76). -/

/-- In the states of a run no step of a schedule stops it. -/
theorem scheduleState_succ {c : Schedule} {k : Nat} (hinv : Inv (scheduleState c s k)) :
    act (c k) (scheduleState c s k) = .next (scheduleState c s (k + 1)) := by
  obtain ⟨t, ht⟩ := hinv.act_next (c k)
  simp [scheduleState, ht]

theorem scheduleState_inv (c : Schedule) (hinv : Inv s) (k : Nat) : Inv (scheduleState c s k) := by
  induction k with
  | zero => exact hinv
  | succ k ih => exact ih.act (scheduleState_succ ih)

/-- From place `k` on, the operation runs and its measure is at rest. -/
structure Settled (c : Schedule) (s : State) (k : Nat) : Prop where
  inv : Inv s
  busy : ∀ j, (scheduleState c s j).busy = true
  rank : ∀ j, k ≤ j → runRank (scheduleState c s j) = runRank (scheduleState c s k)

/-- An operation that never ends comes to rest: its measure cannot fall for ever. -/
theorem exists_settled {c : Schedule} (hinv : Inv s) (hbusy : ∀ j, (scheduleState c s j).busy = true) :
    ∃ k, Settled c s k := by
  have hantitone : Antitone fun j => runRank (scheduleState c s j) := by
    refine antitone_nat_of_succ_le fun j => ?_
    have hj := scheduleState_inv c hinv j
    obtain hidle | hle := act_runRank_le hj (hbusy j) (scheduleState_succ hj)
    · simp [hbusy (j + 1)] at hidle
    · exact hle
  obtain ⟨k, hk⟩ := WellFoundedLT.antitone_chain_condition hantitone
  exact ⟨k, hinv, hbusy, fun j hj => (hk j hj).symm⟩

section
variable {c : Schedule} {k : Nat} (h : Settled c s k)
include h

theorem Settled.rank_eq {i j : Nat} (hi : k ≤ i) (hj : k ≤ j) :
    runRank (scheduleState c s j) = runRank (scheduleState c s i) :=
  (h.rank j hj).trans (h.rank i hi).symm

/-- At rest no event lowers the measure. -/
theorem Settled.not_lower {j : Nat} (hj : k ≤ j) (hact : act (c j) (scheduleState c s j) = .next t)
    (hlower : runRank t < runRank (scheduleState c s j)) : False := by
  cases hact.symm.trans (scheduleState_succ (scheduleState_inv c h.inv j))
  exact hlower.ne (h.rank_eq hj (Nat.le_succ_of_le hj))

/-- At rest no deadline runs: a TICK step would lower the measure. -/
theorem Settled.not_waits (hticks : TicksForever c) {j : Nat} (hj : k ≤ j) : ¬Waits (scheduleState c s j) := by
  intro hwaits
  obtain ⟨m, hm, htick⟩ := hticks j
  have hinv := scheduleState_inv c h.inv
  have hwaits' := hwaits.of_runRank_eq (hinv j) (h.rank_eq hj (hj.trans hm))
  exact h.not_lower (hj.trans hm) (t := tick (scheduleState c s m)) (by rw [htick]; rfl)
    (runRank_tick_of_waits (hinv m) hwaits')

/-- At rest no byte is on offer: the sink would take it. -/
theorem Settled.not_offer (hsink : SinkTakes c s) {j : Nat} (hj : k ≤ j) (hst : (scheduleState c s j).st = .tx) :
    (scheduleState c s j).txv = false := by
  refine Bool.eq_false_iff.mpr fun hv => ?_
  obtain ⟨m, hm, htake⟩ := hsink j hv
  obtain ⟨hst', hv'⟩ := txv_of_runRank_eq hst hv (h.rank_eq hj (hj.trans hm))
  exact h.not_lower (hj.trans hm) (t := takeByte (scheduleState c s m)) (by rw [htake]; rfl) (runRank_takeByte hst' hv')

/-- At rest the FSM always has a step. -/
theorem Settled.enabled (hticks : TicksForever c) (hsink : SinkTakes c s) {j : Nat} (hj : k ≤ j) :
    fsmEnabled (scheduleState c s j) = true := by
  have hwaits := h.not_waits hticks hj
  cases hst : (scheduleState c s j).st with
  | idle => exact absurd hst ((scheduleState_inv c h.inv j).busyIff.mp (h.busy j))
  | tx => simpa [fsmEnabled, hst] using h.not_offer hsink hj hst
  | hunt =>
    have hexp : (scheduleState c s j).exp = true := by simpa [Waits, hst] using hwaits
    exact (fsmEnabled_hunt hst).mpr (.inl hexp)
  | collect =>
    have hexp : (scheduleState c s j).exp = true := by simpa [Waits, hst] using hwaits
    exact (fsmEnabled_collect hst).mpr (.inl hexp)
  | flush | finish | pscan => simp [fsmEnabled, hst]

/-- Under the assumptions of R76 nothing is at rest for ever. -/
theorem Settled.false (hprogress : Progress c s) : False := by
  obtain ⟨hfair, hticks, hsink⟩ := hprogress
  obtain ⟨j, hj, hcounts⟩ := hfair k fun j hj => h.enabled hticks hsink hj
  have hinv := scheduleState_inv c h.inv j
  obtain hidle | hlower | ⟨hwaits, -, -⟩ := act_advances hinv hcounts (scheduleState_succ hinv)
  · simp [h.busy (j + 1)] at hidle
  · exact h.not_lower hj (scheduleState_succ hinv) hlower
  · exact h.not_waits hticks hj hwaits

end

/-- Settles O42: an operation that never ended would come to rest, which the assumptions of R76 exclude. -/
theorem everyOperationEnds : Obligations.EveryOperationEnds := by
  intro c s hinv hprogress _
  by_contra hnever
  obtain ⟨k, hsettled⟩ := exists_settled (c := c) hinv fun j =>
    Bool.eq_true_of_not_eq_false fun hidle => hnever ⟨j, hidle⟩
  exact hsettled.false hprogress

end Sys2Proof.Machine
end

section
/-! PROOFS. Binary32 (R8, R69, R70): the layout of a finite value, rounding to the nearest integer, and rounding to the
nearest finite value, which is the former in steps of the last place. -/

namespace Sys2Proof.Machine

open Sys2Proof.Config

/-! Rounding to the nearest integer, ties to even. -/

/-- m is nearest to x among the integers, and even where another integer is as near. -/
def RoundsTo (m : Nat) (x : ℚ) : Prop :=
  ∀ j : ℤ, |(m : ℚ) - x| ≤ |(j : ℚ) - x| ∧ (|(j : ℚ) - x| = |(m : ℚ) - x| → j ≠ m → Even m)

/-- Below the middle between two integers the lower one is nearest, and alone. -/
theorem roundsTo_floor {q : Nat} {x : ℚ} (h0 : (q : ℚ) ≤ x) (h : x - q < 1 / 2) : RoundsTo q x := by
  intro j
  rw [abs_of_nonpos (sub_nonpos.mpr h0)]
  obtain hle | hgt := le_or_gt j q
  · have hj : (j : ℚ) ≤ q := mod_cast hle
    rw [abs_of_nonpos (by linarith)]
    exact ⟨by linarith, fun heq hne => absurd (mod_cast (by linarith : (j : ℚ) = q)) hne⟩
  · have hj : (q : ℚ) + 1 ≤ j := mod_cast hgt
    rw [abs_of_nonneg (by linarith)]
    exact ⟨by linarith, fun heq => by linarith⟩

/-- Above the middle the upper one is. -/
theorem roundsTo_ceil {q : Nat} {x : ℚ} (h1 : x ≤ q + 1) (h : 1 / 2 < x - q) : RoundsTo (q + 1) x := by
  intro j
  push_cast
  rw [abs_of_nonneg (by linarith : (0 : ℚ) ≤ q + 1 - x)]
  obtain hle | hgt := le_or_gt j q
  · have hj : (j : ℚ) ≤ q := mod_cast hle
    rw [abs_of_nonpos (by linarith)]
    exact ⟨by linarith, fun heq => by linarith⟩
  · have hj : (q : ℚ) + 1 ≤ j := mod_cast hgt
    rw [abs_of_nonneg (by linarith)]
    exact ⟨by linarith, fun heq hne => absurd (mod_cast (by linarith : (j : ℚ) = q + 1)) hne⟩

/-- In the middle both are, and the even one is taken. -/
theorem roundsTo_even {q : Nat} {x : ℚ} (h : x - q = 1 / 2) : RoundsTo (q + q % 2) x := by
  have heven : Even (q + q % 2) := by
    rw [Nat.even_iff]
    omega
  have hhalf : |((q + q % 2 : ℕ) : ℚ) - x| = 1 / 2 := by
    obtain h2 | h2 := Nat.mod_two_eq_zero_or_one q <;> rw [h2] <;> push_cast
    · rw [abs_of_nonpos (by linarith)]
      linarith
    · rw [abs_of_nonneg (by linarith)]
      linarith
  refine fun j => ⟨?_, fun _ _ => heven⟩
  rw [hhalf]
  obtain hle | hgt := le_or_gt j q
  · have hj : (j : ℚ) ≤ q := mod_cast hle
    rw [abs_of_nonpos (by linarith)]
    linarith
  · have hj : (q : ℚ) + 1 ≤ j := mod_cast hgt
    rw [abs_of_nonneg (by linarith)]
    linarith

theorem div_sub_natDiv (num : Nat) {den : Nat} (hden : 0 < den) :
    (num : ℚ) / den - (num / den : ℕ) = (num % den : ℕ) / den := by
  have hpos : (den : ℚ) ≠ 0 := mod_cast hden.ne'
  have hsplit : ((num / den : ℕ) : ℚ) * den + (num % den : ℕ) = num := mod_cast Nat.div_add_mod' num den
  rw [← hsplit]
  field_simp
  ring

theorem divNearestEven_roundsTo (num : Nat) {den : Nat} (hden : 0 < den) :
    RoundsTo (divNearestEven num den) (num / den) := by
  have hpos : (0 : ℚ) < den := mod_cast hden
  have hrest := div_sub_natDiv num hden
  have hrest0 : (0 : ℚ) ≤ (num % den : ℕ) / den := by positivity
  have hrest1 : ((num % den : ℕ) : ℚ) / den < 1 := (div_lt_one hpos).mpr (mod_cast Nat.mod_lt num hden)
  simp only [divNearestEven]
  split
  · next hlow =>
    have hlow' : (2 : ℚ) * (num % den : ℕ) < den := mod_cast hlow
    exact roundsTo_floor (by linarith) (by rw [hrest, div_lt_iff₀ hpos]; linarith)
  · next hmid =>
    have hmid' : (den : ℚ) ≤ 2 * (num % den : ℕ) := mod_cast not_lt.mp hmid
    split
    · next hhigh =>
      have hhigh' : (den : ℚ) < 2 * (num % den : ℕ) := mod_cast hhigh
      exact roundsTo_ceil (by linarith) (by rw [hrest, lt_div_iff₀ hpos]; linarith)
    · next htie =>
      have htie' : (2 : ℚ) * (num % den : ℕ) ≤ den := mod_cast not_lt.mp htie
      exact roundsTo_even (by rw [hrest, div_eq_iff hpos.ne']; linarith)

theorem RoundsTo.le {m n : Nat} {x : ℚ} (h : RoundsTo m x) (hx : x ≤ n) : m ≤ n := by
  by_contra hlt
  have hm : (n : ℚ) + 1 ≤ m := mod_cast not_le.mp hlt
  have hnear := (h n).1
  rw [abs_of_nonneg (by linarith), Int.cast_natCast, abs_of_nonneg (by linarith)] at hnear
  linarith

theorem RoundsTo.ge {m n : Nat} {x : ℚ} (h : RoundsTo m x) (hx : n ≤ x) : n ≤ m := by
  by_contra hlt
  have hm : (m : ℚ) + 1 ≤ n := mod_cast not_le.mp hlt
  have hnear := (h n).1
  rw [abs_of_nonpos (by linarith), Int.cast_natCast, abs_of_nonpos (by linarith)] at hnear
  linarith

/-- Below the middle of n and n + 1 the result is at most n. -/
theorem RoundsTo.le_of_lt_half {m n : Nat} {x : ℚ} (h : RoundsTo m x) (hx : x < n + 1 / 2) : m ≤ n := by
  by_contra hlt
  have hm : (n : ℚ) + 1 ≤ m := mod_cast not_le.mp hlt
  have hnear := (h n).1
  rw [Int.cast_natCast, abs_of_nonneg (by linarith), le_abs] at hnear
  obtain hnear | hnear := hnear <;> linarith

/-- From the middle of an odd n and n + 1 on the result is above n. -/
theorem RoundsTo.lt_of_half_le {m n : Nat} {x : ℚ} (h : RoundsTo m x) (hn : Odd n) (hx : n + 1 / 2 ≤ x) : n < m := by
  by_contra hle
  have hm : (m : ℚ) ≤ n := mod_cast not_lt.mp hle
  obtain ⟨hnear, htie⟩ := h (n + 1)
  push_cast at hnear htie
  rw [abs_of_nonpos (by linarith : (m : ℚ) - x ≤ 0)] at hnear htie
  obtain hge | hlt := le_or_gt ((n : ℚ) + 1) x
  · rw [abs_of_nonpos (by linarith)] at hnear
    linarith
  · rw [abs_of_nonneg (by linarith)] at hnear htie
    have hsame : m = n := mod_cast (by linarith : (m : ℚ) = n)
    have heven : Even m := htie (by linarith) (by omega)
    exact Nat.not_even_iff_odd.mpr hn (hsame ▸ heven)

/-! The last place (R8). -/

/-- num / den counted in steps of 2^-149. -/
def units (num den : Nat) : ℚ := (num * 2 ^ 149 : ℕ) / den

theorem units_lt (num : Nat) {den : Nat} (hden : 0 < den) : units num den < 2 ^ (lastPlace num den + 24) := by
  have hlog : num * 2 ^ 149 / den < 2 ^ (lastPlace num den + 24) :=
    Nat.lt_log2_self.trans_le (Nat.pow_le_pow_right (by decide) (by simp only [lastPlace]; omega))
  rw [Nat.div_lt_iff_lt_mul hden] at hlog
  rw [units, div_lt_iff₀ (mod_cast hden)]
  exact_mod_cast hlog

theorem le_units {num den : Nat} (hden : 0 < den) (h : 0 < lastPlace num den) :
    2 ^ (lastPlace num den + 23) ≤ units num den := by
  have hplace : lastPlace num den + 23 = (num * 2 ^ 149 / den).log2 := by
    simp only [lastPlace] at h ⊢
    omega
  have hne : num * 2 ^ 149 / den ≠ 0 := fun h0 => by
    rw [h0, Nat.log2_zero] at hplace
    omega
  have hlog := Nat.log2_self_le hne
  rw [← hplace, Nat.le_div_iff_mul_le hden] at hlog
  rw [units, le_div_iff₀ (mod_cast hden)]
  exact_mod_cast hlog

/-- The significand of `rne32` in steps of the last place. -/
def rneSignificand (num den : Nat) : Nat := divNearestEven (num * 2 ^ 149) (den * 2 ^ lastPlace num den)

theorem rneMagnitude_eq (num den : Nat) :
    rneMagnitude num den = min 0x7F800000 (lastPlace num den * 2 ^ 23 + rneSignificand num den) := by
  rw [Nat.min_def]
  rfl

theorem rneSignificand_roundsTo (num : Nat) {den : Nat} (hden : 0 < den) :
    RoundsTo (rneSignificand num den) (units num den / 2 ^ lastPlace num den) := by
  have hround := divNearestEven_roundsTo (num * 2 ^ 149) (den := den * 2 ^ lastPlace num den) (by positivity)
  rw [units, div_div]
  exact_mod_cast hround

theorem rneSignificand_le (num : Nat) {den : Nat} (hden : 0 < den) : rneSignificand num den ≤ 2 ^ 24 := by
  refine (rneSignificand_roundsTo num hden).le ?_
  rw [div_le_iff₀ (by positivity)]
  have hlt := units_lt num hden
  rw [pow_add, mul_comm] at hlt
  exact_mod_cast hlt.le

theorem le_rneSignificand {num den : Nat} (hden : 0 < den) (h : 0 < lastPlace num den) :
    2 ^ 23 ≤ rneSignificand num den := by
  refine (rneSignificand_roundsTo num hden).ge ?_
  rw [le_div_iff₀ (by positivity)]
  have hle := le_units hden h
  rw [pow_add, mul_comm] at hle
  exact_mod_cast hle

/-- From the middle between the largest finite value and 2^128 on, in steps of 2^-149. -/
def overflowUnits : ℚ := (2 ^ 25 - 1) * 2 ^ 252

theorem overflowUnits_lt : overflowUnits < 2 ^ 277 := by
  rw [overflowUnits, show 277 = 25 + 252 from rfl, pow_add]
  exact mul_lt_mul_of_pos_right (by norm_num) (by positivity)

theorem le_overflowUnits : 2 ^ 276 ≤ overflowUnits := by
  rw [overflowUnits, show 276 = 24 + 252 from rfl, pow_add]
  exact mul_le_mul_of_nonneg_right (by norm_num) (by positivity)

theorem overflowUnits_div : overflowUnits / 2 ^ 253 = (2 ^ 24 - 1 : ℕ) + 1 / 2 := by
  rw [overflowUnits, show 253 = 1 + 252 from rfl, pow_add, mul_div_mul_right _ _ (by positivity)]
  norm_num

/-- Below it the rounded value is finite. -/
theorem rne_finite {num den : Nat} (hden : 0 < den) (h : units num den < overflowUnits) :
    lastPlace num den * 2 ^ 23 + rneSignificand num den < 0x7F800000 := by
  have hsig := rneSignificand_le num hden
  obtain hlow | hhigh := Nat.lt_or_ge (lastPlace num den) 253
  · omega
  · have hplace : lastPlace num den = 253 := by
      have hle := (le_units (num := num) hden (by omega)).trans_lt h
      have hlt : (2 : ℚ) ^ (lastPlace num den + 23) < 2 ^ 277 := hle.trans overflowUnits_lt
      have hexp := (pow_lt_pow_iff_right₀ (by norm_num : (1 : ℚ) < 2)).mp hlt
      omega
    have hround := rneSignificand_roundsTo num hden
    rw [hplace] at hround ⊢
    have hsig' := hround.le_of_lt_half (overflowUnits_div ▸ div_lt_div_of_pos_right h (by positivity))
    omega

/-- From it on the rounded value is an infinity. -/
theorem rne_infinite {num den : Nat} (hden : 0 < den) (h : overflowUnits ≤ units num den) :
    0x7F800000 ≤ lastPlace num den * 2 ^ 23 + rneSignificand num den := by
  have hplace : 253 ≤ lastPlace num den := by
    have hle := h.trans_lt (units_lt num hden)
    have hlt : (2 : ℚ) ^ 276 < 2 ^ (lastPlace num den + 24) := le_overflowUnits.trans_lt hle
    have hexp := (pow_lt_pow_iff_right₀ (by norm_num : (1 : ℚ) < 2)).mp hlt
    omega
  have hsig := le_rneSignificand (num := num) hden (by omega)
  obtain heq | hgt := hplace.eq_or_lt
  · have hround := rneSignificand_roundsTo num hden
    rw [← heq] at hround ⊢
    have hsig' := hround.lt_of_half_le (by decide) (overflowUnits_div ▸ div_le_div_of_nonneg_right h (by positivity))
    omega
  · omega

end Sys2Proof.Machine
end

section
/-! PROOFS. Binary32 (R8, R69, R70): `rne32` answers the nearest finite value, and with it `scale` and `f32mul`. -/

namespace Sys2Proof.Machine

open Sys2Proof.Config

/-! The layout. -/

theorem f32Exp_eq (x : F32) : f32Exp x = x.toNat / 2 ^ 23 % 2 ^ 8 := by
  simp [f32Exp, BitVec.extractLsb', Nat.shiftRight_eq_div_pow]

theorem f32Frac_eq (x : F32) : f32Frac x = x.toNat % 2 ^ 23 := by
  simp [f32Frac, BitVec.extractLsb']

theorem f32Significand_lt (x : F32) : f32Significand x < 2 ^ 24 := by
  have hfrac : f32Frac x < 2 ^ 23 := f32Frac_eq x ▸ Nat.mod_lt _ (by decide)
  unfold f32Significand
  split <;> omega

/-- A sign and 31 magnitude bits. -/
def ofMagnitude (negative : Bool) (bits : Nat) : F32 := BitVec.ofBool negative ++ BitVec.ofNat 31 bits

theorem rne32_eq (negative : Bool) (num den : Nat) :
    rne32 negative num den = ofMagnitude negative (rneMagnitude num den) := rfl

section
variable (negative : Bool) {bits : Nat} (h : bits < 2 ^ 31)
include h

theorem ofMagnitude_toNat : (ofMagnitude negative bits).toNat = negative.toNat * 2 ^ 31 + bits := by
  rw [ofMagnitude, toNat_append_eq, BitVec.toNat_ofNat, Nat.mod_eq_of_lt h]
  cases negative <;> rfl

theorem f32Exp_ofMagnitude : f32Exp (ofMagnitude negative bits) = bits / 2 ^ 23 := by
  rw [f32Exp_eq, ofMagnitude_toNat negative h]
  have hsign : negative.toNat ≤ 1 := Bool.toNat_le negative
  omega

theorem f32Frac_ofMagnitude : f32Frac (ofMagnitude negative bits) = bits % 2 ^ 23 := by
  rw [f32Frac_eq, ofMagnitude_toNat negative h]
  omega

theorem lastBit_ofMagnitude (heven : Even bits) : (ofMagnitude negative bits).getLsbD 0 = false := by
  rw [BitVec.getLsbD, ofMagnitude_toNat negative h, Nat.testBit_zero, decide_eq_false_iff_not]
  rw [Nat.even_iff] at heven
  omega

end

theorem f32Sign_ofMagnitude (negative : Bool) (bits : Nat) : f32Sign (ofMagnitude negative bits) = negative := by
  rw [f32Sign, ofMagnitude, BitVec.getLsbD_append]
  simp

/-! Values in steps of 2^-149. -/

/-- The magnitude of a finite value in steps of 2^-149. -/
def f32Magnitude (x : F32) : Nat := f32Significand x * 2 ^ f32Scale x

/-- +1 or -1. -/
def signOf (negative : Bool) : ℤ := if negative then -1 else 1

theorem signOf_mul_self (b : Bool) : signOf b * signOf b = 1 := by cases b <;> rfl

theorem f32Value_eq (x : F32) : f32Value x = (signOf (f32Sign x) * f32Magnitude x : ℤ) / 2 ^ 149 := by
  simp only [f32Value, signOf, f32Magnitude]
  split <;> simp

/-- A finite value is a multiple of 2^k steps, or smaller than every 24-bit significand with that last place. -/
theorem f32Magnitude_grid (x : F32) (k : Nat) : 2 ^ k ∣ f32Magnitude x ∨ 0 < k ∧ f32Magnitude x < 2 ^ (k + 23) := by
  obtain hle | hlt := le_or_gt k (f32Scale x)
  · exact .inl ((Nat.pow_dvd_pow 2 hle).mul_left _)
  · obtain ⟨j, rfl⟩ : ∃ j, k = j + 1 := ⟨k - 1, by omega⟩
    refine .inr ⟨by omega, ?_⟩
    calc f32Significand x * 2 ^ f32Scale x < 2 ^ 24 * 2 ^ f32Scale x :=
          Nat.mul_lt_mul_of_pos_right (f32Significand_lt x) (by positivity)
      _ ≤ 2 ^ 24 * 2 ^ j := Nat.mul_le_mul_left _ (Nat.pow_le_pow_right (by decide) (by omega))
      _ = 2 ^ (j + 1 + 23) := by ring

/-- The bits of a significand with its last place, also where the significand is the next power of two. -/
theorem f32Magnitude_ofMagnitude (negative : Bool) {k m : Nat} (hk : 0 < k → 2 ^ 23 ≤ m) (hm : m ≤ 2 ^ 24)
    (hfin : k * 2 ^ 23 + m < 0x7F800000) : f32Magnitude (ofMagnitude negative (k * 2 ^ 23 + m)) = m * 2 ^ k := by
  have hbits : k * 2 ^ 23 + m < 2 ^ 31 := by omega
  simp only [f32Magnitude, f32Significand, f32Scale, f32Exp_ofMagnitude negative hbits, f32Frac_ofMagnitude negative hbits]
  obtain hsub | hnorm := Nat.lt_or_ge m (2 ^ 23)
  · have hzero : k = 0 := Nat.eq_zero_of_not_pos fun hpos => hsub.not_ge (hk hpos)
    subst hzero
    simp only [zero_mul, zero_add, Nat.div_eq_of_lt hsub, Nat.mod_eq_of_lt hsub, if_true, pow_zero, mul_one]
  · obtain hlt | heq := hm.lt_or_eq
    · have hexp : (k * 2 ^ 23 + m) / 2 ^ 23 = k + 1 := by omega
      have hfrac : (k * 2 ^ 23 + m) % 2 ^ 23 = m - 2 ^ 23 := by omega
      rw [hexp, hfrac, if_neg (by omega), if_neg (by omega), Nat.add_sub_cancel, Nat.add_sub_cancel' hnorm]
    · have hexp : (k * 2 ^ 23 + m) / 2 ^ 23 = k + 2 := by omega
      have hfrac : (k * 2 ^ 23 + m) % 2 ^ 23 = 0 := by omega
      rw [hexp, hfrac, if_neg (by omega), if_neg (by omega), heq, show k + 2 - 1 = k + 1 from rfl]
      ring

/-! Rounding to the nearest finite value. -/

/-- In steps of the last place the nearest finite value is the nearest integer. -/
theorem units_nearest (num : Nat) {den : Nat} (hden : 0 < den) {y : ℤ}
    (hy : (2 ^ lastPlace num den : ℤ) ∣ y ∨ 0 < lastPlace num den ∧ y < 2 ^ (lastPlace num den + 23)) :
    |((rneSignificand num den * 2 ^ lastPlace num den : ℤ) : ℚ) - units num den| ≤ |(y : ℚ) - units num den| ∧
      (|(y : ℚ) - units num den| = |((rneSignificand num den * 2 ^ lastPlace num den : ℤ) : ℚ) - units num den| →
        y ≠ rneSignificand num den * 2 ^ lastPlace num den → Even (rneSignificand num den)) := by
  have hround := rneSignificand_roundsTo num hden
  have hunits := le_units (num := num) hden
  generalize lastPlace num den = k at *
  generalize rneSignificand num den = m at *
  generalize units num den = u at *
  have hpos : (0 : ℚ) < 2 ^ k := by positivity
  have hscale (j : ℤ) : |((j * 2 ^ k : ℤ) : ℚ) - u| = |(j : ℚ) - u / 2 ^ k| * 2 ^ k := by
    rw [← abs_of_pos hpos, ← abs_mul, abs_of_pos hpos, sub_mul, div_mul_cancel₀ _ hpos.ne']
    push_cast
    rfl
  have hgrid (j : ℤ) : |((m * 2 ^ k : ℤ) : ℚ) - u| ≤ |((j * 2 ^ k : ℤ) : ℚ) - u| := by
    rw [hscale, hscale]
    exact mul_le_mul_of_nonneg_right (mod_cast (hround j).1) hpos.le
  obtain ⟨j, rfl⟩ | ⟨hk, hsmall⟩ := hy
  · rw [mul_comm (2 ^ k) j]
    refine ⟨hgrid j, fun htie hne => (hround j).2 ?_ fun hj => hne (by rw [hj])⟩
    rw [hscale, hscale] at htie
    exact_mod_cast mul_right_cancel₀ hpos.ne' htie
  · have hle := hunits hk
    have hsmall' : (y : ℚ) < 2 ^ (k + 23) := mod_cast hsmall
    have hpow := hgrid (2 ^ 23)
    rw [show ((2 ^ 23 * 2 ^ k : ℤ) : ℚ) = 2 ^ (k + 23) by push_cast; ring, abs_of_nonpos (sub_nonpos.mpr hle)] at hpow
    rw [abs_of_nonpos (by linarith : (y : ℚ) - u ≤ 0)]
    exact ⟨by linarith, fun htie => by linarith⟩

/-- A finite value with the sign of a result taken off, in steps of 2^-149. -/
def stepsFrom (negative : Bool) (x : F32) : ℤ := signOf negative * (signOf (f32Sign x) * f32Magnitude x)

theorem f32Value_eq_stepsFrom (negative : Bool) (x : F32) :
    f32Value x = signOf negative * stepsFrom negative x / 2 ^ 149 := by
  have hsteps : signOf negative * stepsFrom negative x = signOf (f32Sign x) * f32Magnitude x := by
    rw [stepsFrom, ← mul_assoc, signOf_mul_self, one_mul]
  rw [f32Value_eq, ← hsteps]
  push_cast
  rfl

theorem ratio_eq_units (num den : Nat) : (num : ℚ) / den = units num den / 2 ^ 149 := by
  rw [units, Nat.cast_mul, div_right_comm, Nat.cast_pow, Nat.cast_ofNat, mul_div_cancel_right₀ _ (by positivity)]

theorem distance_eq (negative : Bool) (x : F32) (num den : Nat) :
    |f32Value x - signOf negative * (num / den)| = |(stepsFrom negative x : ℚ) - units num den| / 2 ^ 149 := by
  have habs : |(signOf negative : ℚ)| = 1 := by cases negative <;> simp [signOf]
  calc |f32Value x - signOf negative * (num / den)|
      = |(signOf negative : ℚ) * (((stepsFrom negative x : ℚ) - units num den) / 2 ^ 149)| := by
        rw [f32Value_eq_stepsFrom negative, ratio_eq_units]
        congr 1
        ring
    _ = |(stepsFrom negative x : ℚ) - units num den| / 2 ^ 149 := by
        rw [abs_mul, habs, one_mul, abs_div, abs_of_pos (by positivity : (0 : ℚ) < 2 ^ 149)]

theorem stepsFrom_grid (negative : Bool) (x : F32) (k : Nat) :
    (2 ^ k : ℤ) ∣ stepsFrom negative x ∨ 0 < k ∧ stepsFrom negative x < 2 ^ (k + 23) := by
  obtain hdvd | ⟨hk, hsmall⟩ := f32Magnitude_grid x k
  · have hdvd' : (2 ^ k : ℤ) ∣ f32Magnitude x := mod_cast Int.natCast_dvd_natCast.mpr hdvd
    exact .inl ((hdvd'.mul_left _).mul_left _)
  · have hsmall' : (f32Magnitude x : ℤ) < 2 ^ (k + 23) := mod_cast hsmall
    refine .inr ⟨hk, lt_of_le_of_lt ?_ hsmall'⟩
    cases hn : negative <;> cases hx : f32Sign x <;> simp [stepsFrom, signOf, hx]

/-- `rne32` of a rational below the overflow bound is the nearest finite value, ties to even. -/
theorem nearestEven_rne32 (negative : Bool) (num : Nat) {den : Nat} (hden : 0 < den)
    (h : units num den < overflowUnits) :
    NearestEven (rne32 negative num den) (signOf negative * (num / den)) := by
  have hfin := rne_finite hden h
  have hmag := f32Magnitude_ofMagnitude negative (le_rneSignificand hden) (rneSignificand_le num hden) hfin
  rw [rne32_eq, rneMagnitude_eq, min_eq_right hfin.le]
  have hsteps : stepsFrom negative (ofMagnitude negative (lastPlace num den * 2 ^ 23 + rneSignificand num den)) =
      rneSignificand num den * 2 ^ lastPlace num den := by
    rw [stepsFrom, f32Sign_ofMagnitude, hmag, ← mul_assoc, signOf_mul_self, one_mul]
    push_cast
    rfl
  refine ⟨?_, fun x _ => ?_⟩
  · rw [F32Finite, f32Exp_ofMagnitude negative (by omega)]
    omega
  · obtain ⟨hnear, htie⟩ := units_nearest num hden (stepsFrom_grid negative x (lastPlace num den))
    rw [distance_eq, distance_eq, hsteps]
    refine ⟨div_le_div_of_nonneg_right hnear (by positivity), fun heq hne => ?_⟩
    have heven : Even (rneSignificand num den) := htie ((div_left_inj' (by positivity)).mp heq) fun hsame => hne (by
      rw [f32Value_eq_stepsFrom negative, f32Value_eq_stepsFrom negative, hsteps, hsame])
    refine lastBit_ofMagnitude negative (by omega) (Even.add ?_ heven)
    exact Even.mul_left (by decide) _

/-- `rne32` of a rational from the overflow bound on is an infinity. -/
theorem f32IsInf_rne32 (negative : Bool) {num den : Nat} (hden : 0 < den) (h : overflowUnits ≤ units num den) :
    f32IsInf (rne32 negative num den) = true := by
  rw [rne32_eq, rneMagnitude_eq, min_eq_left (rne_infinite hden h), f32IsInf,
    f32Exp_ofMagnitude negative (by decide), f32Frac_ofMagnitude negative (by decide)]
  rfl

theorem units_lt_overflowUnits_iff (num den : Nat) :
    units num den < overflowUnits ↔ (num : ℚ) / den < (2 ^ 25 - 1) * 2 ^ 103 := by
  rw [ratio_eq_units, div_lt_iff₀ (by positivity), overflowUnits, mul_assoc, ← pow_add]

/-! `scale` and `f32mul`. -/

/-- Settles O58: v / 100 is far below the overflow bound. -/
theorem scaleIsNearest : Obligations.ScaleIsNearest := by
  refine ⟨fun v => ?_, rfl, rfl⟩
  have hv : (v.toNat : ℚ) < 2 ^ 16 := mod_cast v.isLt
  have hbound : units v.toNat 100 < overflowUnits := by
    rw [units_lt_overflowUnits_iff]
    push_cast
    linarith
  have hnearest := nearestEven_rne32 false v.toNat (den := 100) (by decide) hbound
  simpa [signOf, scale] using hnearest

theorem f32mul_finite {a b : F32} (ha : F32Finite a) (hb : F32Finite b) :
    f32mul a b =
      rne32 (f32Sign a != f32Sign b) (f32Significand a * f32Significand b * 2 ^ (f32Scale a + f32Scale b))
        (2 ^ 149 * 2 ^ 149) := by
  have hfinite (x : F32) (hx : F32Finite x) : f32IsNaN x = false ∧ f32IsInf x = false := by
    have hexp : (f32Exp x == 255) = false := beq_eq_false_iff_ne.mpr hx
    simp only [f32IsNaN, f32IsInf, hexp, Bool.false_and, and_self]
  simp [f32mul, hfinite a ha, hfinite b hb]

/-- The exact product, as the quotient `f32mul` rounds. -/
theorem f32Value_mul (a b : F32) :
    f32Value a * f32Value b =
      signOf (f32Sign a != f32Sign b) *
        ((f32Significand a * f32Significand b * 2 ^ (f32Scale a + f32Scale b) : ℕ) / (2 ^ 149 * 2 ^ 149 : ℕ)) := by
  have hsign : signOf (f32Sign a) * signOf (f32Sign b) = signOf (f32Sign a != f32Sign b) := by
    cases f32Sign a <;> cases f32Sign b <;> rfl
  rw [f32Value_eq, f32Value_eq, ← hsign, f32Magnitude, f32Magnitude, pow_add]
  push_cast
  ring

theorem abs_signOf_mul (negative : Bool) {q : ℚ} (hq : 0 ≤ q) : |signOf negative * q| = q := by
  cases negative <;> simp [signOf, abs_of_nonneg hq]

/-- Settles O59: the product is the quotient that is rounded, and the overflow bound speaks of its magnitude. -/
theorem productIsNearest : Obligations.ProductIsNearest := by
  intro a b ha hb p
  have hden : 0 < 2 ^ 149 * 2 ^ 149 := by positivity
  have hp : p = _ := f32Value_mul a b
  rw [f32mul_finite ha hb, hp, abs_signOf_mul _ (by positivity), ← units_lt_overflowUnits_iff, ← not_lt,
    ← units_lt_overflowUnits_iff, not_lt]
  exact ⟨f32Sign_ofMagnitude _ _, nearestEven_rne32 _ _ hden, f32IsInf_rne32 _ hden⟩

end Sys2Proof.Machine
end
